-- ==== Sys2Proof/Word.lean ====
section
/-! DEFINITION. The word and byte types of the block: every register is 32 bits wide (10_state.md R14, 00_scope.md R6 `WORD`). -/

namespace Sys2Proof

/-- One 32-bit register word, D0's limb (00_scope.md R6 `WORD`, R13). -/
abbrev Word := BitVec 32

/-- One byte of a word's little-endian image (20_memory.md R36). -/
abbrev Byte := BitVec 8

end Sys2Proof
end

