-- ==== Sys2Proof/Config.lean ====
section
/-! DEFINITION. The fixed parameters of 00_scope.md R6 and the open parameters of R7, with the platform's launch contract (20_memory.md R40, R41). -/

namespace Sys2Proof

/-- `MANT_BITS`, the mantissa width (00_scope.md R6). -/
abbrev mantBits : Nat := 96

/-- `MMAX` = 2^96 - 1, the largest mantissa (00_scope.md R6). -/
abbrev MMAX : Nat := 79228162514264337593543950335

/-- `SCALE_MAX`, the largest scale (00_scope.md R6). -/
abbrev scaleMax : Nat := 28

/-- `F64_DIGITS`, the significant-digit budget of binary64 input (00_scope.md R6). -/
abbrev f64Digits : Nat := 15

/-- `F32_DIGITS`, the significant-digit budget of binary32 input (00_scope.md R6). -/
abbrev f32Digits : Nat := 7

/-- `CY_SCALE`, the scale of the currency form (00_scope.md R6). -/
abbrev cyScale : Nat := 4

/-- `POW10_STEP`, the largest power of ten of one scale step (00_scope.md R6). -/
abbrev pow10Step : Nat := 9

/-- The largest K that SCALERES takes: the sum of two scales (30_encoding.md R48). -/
abbrev scaleSumMax : Nat := 56

/-- Size in bytes of the register window (20_memory.md R31). -/
abbrev windowBytes : Nat := 0x80

/-- How the platform uses the window, which the block itself cannot see (DESIGN CHOICE, log entry 3, safe).
The block serves one host whose accesses arrive in issue order (20_memory.md R39 to R41). -/
inductive Launch where
  /-- One host, or several that serialise whole sequences, with ordered accesses (R39, R41). -/
  | inContract
  /-- Two agents share the window without mutual exclusion: "refuse such a launch" (R41, 60_exceptions.md R153). -/
  | unsynchronisedHosts
  /-- The interconnect may reorder the accesses and the program has no barrier (R40, 93_implementation_defined.md row 13). -/
  | unorderedAccesses
  deriving DecidableEq, Repr

/-- The open parameters of 00_scope.md R7, "The model takes these as arguments", and the launch contract.
A state carries them as plain data and no step changes them (DESIGN CHOICE, log entry 1, safe: a statement over every state holds for every value of them). -/
structure Config where
  /-- `BASE`, the address of the window in the host's address space (R7). -/
  base : Nat
  /-- `DIV_NORMALIZE`, whether DIV strips an extended quotient (R7, 44_divmod.md R107). -/
  divNormalize : Bool
  /-- Whether the launch keeps the contract of one host and ordered accesses. -/
  launch : Launch
  deriving DecidableEq, Repr

/-- The parameters at reset: R7's default `DIV_NORMALIZE = true`.
`BASE` has no default in the spec: DESIGN CHOICE 0 (log entry 1, unsafe).
The launch is the one the block's rules are about. -/
def Config.default : Config := { base := 0, divNormalize := true, launch := .inContract }

end Sys2Proof
end

