-- ==== Sys2Proof/Syntax.lean ====
section
/-! DEFINITION. The command set: one constructor for each row of spec/opcode_table.json (30_encoding.md R48). -/

namespace Sys2Proof

/-- The five rounding modes, numbered 0 to 4 in this order (30_encoding.md R58, 45_round.md R116). -/
inductive RoundMode where
  /-- MODE 0, ToEven. -/
  | rne
  /-- MODE 1, AwayFromZero: nearest, ties away from zero. -/
  | away
  /-- MODE 2, Truncate. -/
  | trunc
  /-- MODE 3, Floor. -/
  | floor
  /-- MODE 4, Ceiling. -/
  | ceil
  deriving DecidableEq, Repr

/-- The commands of 30_encoding.md R48.
Operands stand in OPA and OPB, not in the command; only MODE and K are carried by the word (R44, R47). -/
inductive Instr where
  -- 41_construct.md
  | ldw
  | mkparts
  | fromi32
  | fromu32
  | fromi64
  | fromu64
  -- 42_addsub.md, 43_mul.md, 44_divmod.md
  | add
  | sub
  | mul
  | div
  | rem
  -- 45_round.md, 46_compare.md
  /-- `mode` is MODE and `k` is K, the target scale. -/
  | round (mode : RoundMode) (k : Nat)
  | cmp
  | norm
  -- 47_convert.md
  | tof64
  | tof32
  | fromf64
  | fromf32
  | fromcy
  | tocy
  -- 40_primitives.md
  | mul96x32
  | mul96x64
  | mul96x96
  | div96x32
  | div96x64
  | div128x96
  | lzc32
  | lzc96
  /-- `k` is K, the power of ten. -/
  | pow10mul (k : Nat)
  /-- `k` is K, the input scale. -/
  | scaleres (k : Nat)
  deriving DecidableEq, Repr

end Sys2Proof
end

