-- ==== Sys2Proof/WellFormed.lean ====
section
/-! DEFINITION. Which terms of Instr are commands of the block: the range conditions on K of 30_encoding.md R48 and R49 (c). -/

namespace Sys2Proof

/-- Which terms a command word can stand for; exec gives the others a total meaning too, which no step reaches (DESIGN CHOICE, log entry 8, safe).
K is at most 28 for ROUND and POW10MUL and at most 56 for SCALERES (30_encoding.md R49 (c)).
MODE needs no check: RoundMode holds exactly the values R49 (b) admits. -/
def Instr.wf : Instr → Bool
  | .ldw => true
  | .mkparts => true
  | .fromi32 => true
  | .fromu32 => true
  | .fromi64 => true
  | .fromu64 => true
  | .add => true
  | .sub => true
  | .mul => true
  | .div => true
  | .rem => true
  | .round _ k => decide (k ≤ scaleMax)
  | .cmp => true
  | .norm => true
  | .tof64 => true
  | .tof32 => true
  | .fromf64 => true
  | .fromf32 => true
  | .fromcy => true
  | .tocy => true
  | .mul96x32 => true
  | .mul96x64 => true
  | .mul96x96 => true
  | .div96x32 => true
  | .div96x64 => true
  | .div128x96 => true
  | .lzc32 => true
  | .lzc96 => true
  | .pow10mul k => decide (k ≤ scaleMax)
  | .scaleres k => decide (k ≤ scaleSumMax)

end Sys2Proof
end

