-- ==== Sys2Proof/Decode.lean ====
section
/-! DEFINITION. The command word: its fields, the decoder (30_encoding.md R45 to R51), the opcode table as masks and matches (R48, R49), and the encoder (R58). -/

namespace Sys2Proof

/-- Why a word is ILLEGAL (30_encoding.md R50).
The block reports every reason with the same code, ILLEGAL_COMMAND. -/
inductive DecodeError where
  /-- RSV0 or RSV1 is not 0 (R49 (a)). -/
  | reservedField
  /-- The OPC value is listed in R51. -/
  | reservedOpcode
  /-- MODE is not 0 on a command that does not use it (R49 (b)). -/
  | modeUnused
  /-- MODE is 5, 6 or 7 on ROUND (R49 (b)). -/
  | modeOutOfRange
  /-- K is not 0 on a command that does not use it (R49 (c)). -/
  | kUnused
  /-- K is above its command's bound (R49 (c)). -/
  | kOutOfRange
  /-- The bytes are not the four of one word: "Every command is exactly one word" (R44). -/
  | notOneWord
  deriving DecidableEq, Repr

/-- `OPC`, bits 7:0 (30_encoding.md R45). -/
def opcField (w : Word) : BitVec 8 := w.extractLsb' 0 8

/-- `MODE`, bits 10:8 (R45). -/
def modeField (w : Word) : BitVec 3 := w.extractLsb' 8 3

/-- `RSV0`, bits 15:11 (R45). -/
def rsv0Field (w : Word) : BitVec 5 := w.extractLsb' 11 5

/-- `K`, bits 21:16 (R45). -/
def kField (w : Word) : BitVec 6 := w.extractLsb' 16 6

/-- `RSV1`, bits 31:22 (R45). -/
def rsv1Field (w : Word) : BitVec 10 := w.extractLsb' 22 10

/-- MODE as a rounding mode; 5, 6 and 7 are none (R58, R49 (b)). -/
def decodeMode (m : BitVec 3) : Except DecodeError RoundMode :=
  match m.toNat with
  | 0 => .ok .rne
  | 1 => .ok .away
  | 2 => .ok .trunc
  | 3 => .ok .floor
  | 4 => .ok .ceil
  | _ => .error .modeOutOfRange

/-- A command that uses neither MODE nor K (R49 (b), (c)). -/
def decodePlain (w : Word) (i : Instr) : Except DecodeError Instr :=
  if modeField w ≠ 0 then .error .modeUnused
  else if kField w ≠ 0 then .error .kUnused
  else .ok i

/-- K, an unsigned count, checked against its command's bound (R47, R49 (c)). -/
def decodeK (w : Word) (bound : Nat) : Except DecodeError Nat :=
  if (kField w).toNat ≤ bound then .ok (kField w).toNat else .error .kOutOfRange

/-- A command that uses K alone: MODE must be 0 (R49 (b), (c)). -/
def decodeWithK (w : Word) (bound : Nat) (mk : Nat → Instr) : Except DecodeError Instr :=
  if modeField w ≠ 0 then .error .modeUnused
  else (decodeK w bound).map mk

/-- ROUND, the one command that uses both fields (R48). -/
def decodeRound (w : Word) : Except DecodeError Instr :=
  match decodeMode (modeField w) with
  | .error e => .error e
  | .ok m => (decodeK w scaleMax).map (Instr.round m)

/-- The command OPC selects, once the reserved fields are known to be 0 (R48, R51). -/
def decodeOpc (w : Word) : Except DecodeError Instr :=
  match (opcField w).toNat with
  | 0x01 => decodePlain w .ldw
  | 0x02 => decodePlain w .mkparts
  | 0x03 => decodePlain w .fromi32
  | 0x04 => decodePlain w .fromu32
  | 0x05 => decodePlain w .fromi64
  | 0x06 => decodePlain w .fromu64
  | 0x10 => decodePlain w .add
  | 0x11 => decodePlain w .sub
  | 0x12 => decodePlain w .mul
  | 0x13 => decodePlain w .div
  | 0x14 => decodePlain w .rem
  | 0x18 => decodeRound w
  | 0x19 => decodePlain w .cmp
  | 0x1A => decodePlain w .norm
  | 0x20 => decodePlain w .tof64
  | 0x21 => decodePlain w .tof32
  | 0x22 => decodePlain w .fromf64
  | 0x23 => decodePlain w .fromf32
  | 0x24 => decodePlain w .fromcy
  | 0x25 => decodePlain w .tocy
  | 0x30 => decodePlain w .mul96x32
  | 0x31 => decodePlain w .mul96x64
  | 0x32 => decodePlain w .mul96x96
  | 0x34 => decodePlain w .div96x32
  | 0x35 => decodePlain w .div96x64
  | 0x36 => decodePlain w .div128x96
  | 0x38 => decodePlain w .lzc32
  | 0x39 => decodePlain w .lzc96
  | 0x3A => decodeWithK w scaleMax .pow10mul
  | 0x3B => decodeWithK w scaleSumMax .scaleres
  | _ => .error .reservedOpcode

/-- `Decode(w)` (30_encoding.md R49): the command, or the reason the word is ILLEGAL (R50). -/
def decode (w : Word) : Except DecodeError Instr :=
  if rsv0Field w ≠ 0 ∨ rsv1Field w ≠ 0 then .error .reservedField else decodeOpc w

/-- The four bytes of a word, the first bits 7:0 (20_memory.md R36). -/
def bytesOfWord (w : Word) : List Byte :=
  [w.extractLsb' 0 8, w.extractLsb' 8 8, w.extractLsb' 16 8, w.extractLsb' 24 8]

/-- The word of four bytes in little-endian order (20_memory.md R36). -/
def wordOfBytes (b0 b1 b2 b3 : Byte) : Word := b3 ++ b2 ++ b1 ++ b0

/-- The decoder on a byte string: exactly one word is a command (30_encoding.md R44). -/
def decodeBytes : List Byte → Except DecodeError Instr
  | [b0, b1, b2, b3] => decode (wordOfBytes b0 b1 b2 b3)
  | _ => .error .notOneWord

/-- The instruction the decoder reads from a row of spec/opcode_table.json whose bits are `w`:
the low `nbits` bits of `w`, the bits above them 0, laid out as the four bytes of one word. -/
def decodeTableWord (nbits w : Nat) : Option Instr :=
  if w % 2 ^ nbits < 2 ^ 32 then
    (decodeBytes (bytesOfWord (BitVec.ofNat 32 (w % 2 ^ nbits)))).toOption
  else none

/-! The encoder. -/

/-- MODE of a rounding mode (30_encoding.md R58). -/
def RoundMode.code : RoundMode → Nat
  | .rne => 0
  | .away => 1
  | .trunc => 2
  | .floor => 3
  | .ceil => 4

/-- OPC of a command (30_encoding.md R48). -/
def Instr.opc : Instr → Nat
  | .ldw => 0x01
  | .mkparts => 0x02
  | .fromi32 => 0x03
  | .fromu32 => 0x04
  | .fromi64 => 0x05
  | .fromu64 => 0x06
  | .add => 0x10
  | .sub => 0x11
  | .mul => 0x12
  | .div => 0x13
  | .rem => 0x14
  | .round _ _ => 0x18
  | .cmp => 0x19
  | .norm => 0x1A
  | .tof64 => 0x20
  | .tof32 => 0x21
  | .fromf64 => 0x22
  | .fromf32 => 0x23
  | .fromcy => 0x24
  | .tocy => 0x25
  | .mul96x32 => 0x30
  | .mul96x64 => 0x31
  | .mul96x96 => 0x32
  | .div96x32 => 0x34
  | .div96x64 => 0x35
  | .div128x96 => 0x36
  | .lzc32 => 0x38
  | .lzc96 => 0x39
  | .pow10mul _ => 0x3A
  | .scaleres _ => 0x3B

/-- The assembled word `OPC | MODE<<8 | K<<16` (30_encoding.md R58). -/
def assemble (opc mode k : Nat) : Word :=
  BitVec.ofNat 32 opc ||| BitVec.ofNat 32 mode <<< 8 ||| BitVec.ofNat 32 k <<< 16

/-- The command word of a command (30_encoding.md R58). -/
def encode (i : Instr) : Word :=
  match i with
  | .round m k => assemble i.opc m.code k
  | .pow10mul k => assemble i.opc 0 k
  | .scaleres k => assemble i.opc 0 k
  | .ldw | .mkparts | .fromi32 | .fromu32 | .fromi64 | .fromu64 | .add | .sub | .mul | .div
  | .rem | .cmp | .norm | .tof64 | .tof32 | .fromf64 | .fromf32 | .fromcy | .tocy | .mul96x32
  | .mul96x64 | .mul96x96 | .div96x32 | .div96x64 | .div128x96 | .lzc32 | .lzc96 =>
    assemble i.opc 0 0

/-! The opcode table, as R49's second reading: "a word w selects a command whose row in
`opcode_table.json` has `(w & mask) = match`, and whose range conditions (b) and (c) hold". -/

/-- One row of the table: its mask and match, and the greatest MODE and K its range conditions admit. -/
structure OpcodeRow where
  mask : Word
  value : Word
  modeMax : Nat
  kMax : Nat
  deriving DecidableEq, Repr

/-- The row of a command that uses neither MODE nor K: every bit is fixed. -/
def fixedRow (value : Word) : OpcodeRow := { mask := 0xFFFFFFFF#32, value, modeMax := 0, kMax := 0 }

/-- The rows of 41_construct.md to 44_divmod.md. -/
def arithmeticRows : List OpcodeRow :=
  [fixedRow 0x01#32, fixedRow 0x02#32, fixedRow 0x03#32, fixedRow 0x04#32, fixedRow 0x05#32,
   fixedRow 0x06#32, fixedRow 0x10#32, fixedRow 0x11#32, fixedRow 0x12#32, fixedRow 0x13#32,
   fixedRow 0x14#32]

/-- The rows of 45_round.md to 47_convert.md. -/
def conversionRows : List OpcodeRow :=
  [{ mask := 0xFFC0F8FF#32, value := 0x18#32, modeMax := 4, kMax := 28 },
   fixedRow 0x19#32, fixedRow 0x1A#32, fixedRow 0x20#32, fixedRow 0x21#32, fixedRow 0x22#32,
   fixedRow 0x23#32, fixedRow 0x24#32, fixedRow 0x25#32]

/-- The rows of 40_primitives.md. -/
def primitiveRows : List OpcodeRow :=
  [fixedRow 0x30#32, fixedRow 0x31#32, fixedRow 0x32#32, fixedRow 0x34#32, fixedRow 0x35#32,
   fixedRow 0x36#32, fixedRow 0x38#32, fixedRow 0x39#32,
   { mask := 0xFFC0FFFF#32, value := 0x3A#32, modeMax := 0, kMax := 28 },
   { mask := 0xFFC0FFFF#32, value := 0x3B#32, modeMax := 0, kMax := 56 }]

/-- spec/opcode_table.json, in its own order (30_encoding.md R48). -/
def opcodeRows : List OpcodeRow := arithmeticRows ++ conversionRows ++ primitiveRows

/-- A word selects a row when it matches under the mask and meets the range conditions (R49). -/
def OpcodeRow.selects (row : OpcodeRow) (w : Word) : Bool :=
  w &&& row.mask == row.value && decide ((modeField w).toNat ≤ row.modeMax)
    && decide ((kField w).toNat ≤ row.kMax)

end Sys2Proof
end

