-- ==== Sys2Proof/Machine/State.lean ====
section
/-! DEFINITION. The state of the block as plain data (10_state.md R14), what its platform can do to it (20_memory.md R37, 70_reset_and_hazards.md R154), the ways a step can stop, and the state after reset. -/

namespace Sys2Proof.Machine

open Sys2Proof

/-- Four 32-bit registers, OPA[0..3] or OPB[0..3] (10_state.md R14): `w0` is register 0, the least significant limb (20_memory.md R35). -/
structure Quad where
  w0 : Word
  w1 : Word
  w2 : Word
  w3 : Word
  deriving DecidableEq, Repr

/-- The eight result registers RES[0..7] (10_state.md R14, R17). -/
structure Octo where
  w0 : Word
  w1 : Word
  w2 : Word
  w3 : Word
  w4 : Word
  w5 : Word
  w6 : Word
  w7 : Word
  deriving DecidableEq, Repr

/-- The width of a host access; only `word` is defined by the block (20_memory.md R32). -/
inductive AccessWidth where
  | byte
  | half
  | word
  | double
  deriving DecidableEq, Repr

/-- One thing the platform does to the block: a host access at an absolute address (20_memory.md R37), or a reset (70_reset_and_hazards.md R154).
`data` is the word a 32-bit write carries; an access of another width is stopped before its data is looked at. -/
inductive HostEvent where
  | read (addr : Nat) (width : AccessWidth)
  | write (addr : Nat) (width : AccessWidth) (data : Word)
  | reset
  deriving DecidableEq, Repr

/-- The registers of the window (20_memory.md R31). -/
inductive Reg where
  | opa (i : Fin 4)
  | opb (i : Fin 4)
  | res (i : Fin 8)
  | cmd
  | status
  deriving DecidableEq, Repr

/-- The error kinds of a command (60_exceptions.md R138). -/
inductive ErrKind where
  /-- Code 1: the result exceeds the 96-bit mantissa and the scale range. -/
  | overflow
  /-- Code 2: the divisor's mantissa is 0. -/
  | divideByZero
  /-- Code 3: an operand quadruple is not valid, or MKPARTS has a scale above 28. -/
  | invalidRepresentation
  /-- Code 4: the command word selects no command. -/
  | illegalCommand
  deriving DecidableEq, Repr

/-- Everything the spec gives the block, and the input it reads.

The first five fields are the registers of 10_state.md R14.
STATUS is held as its one field ERR: bits 31:3 read as 0 and nothing stores them (R19; DEDUCED, log entry 9, safe).
`pending`, `reads` and `cfg` are the model's own (DESIGN CHOICE, log entries 1 to 3, safe): the platform's events not yet performed, in issue order (20_memory.md R39), the values the host has read, newest first (70_reset_and_hazards.md R157), and the parameters of 00_scope.md R7. -/
structure State where
  /-- OPA[0..3], written by the host alone (R15). -/
  opa : Quad
  /-- OPB[0..3], written by the host alone (R16). -/
  opb : Quad
  /-- RES[0..7], written by every command that succeeds (R17). -/
  res : Octo
  /-- CMD, the last command word written (R18). -/
  cmd : Word
  /-- STATUS.ERR, bits 2:0 of STATUS (R19). -/
  err : BitVec 3
  /-- The platform's events the block has not performed yet, oldest first. -/
  pending : List HostEvent
  /-- The values the host's reads returned, newest first. -/
  reads : List Word
  /-- The parameters and the launch contract. -/
  cfg : Config
  deriving DecidableEq, Repr

/-- A stuck host access: it "has no step and is never final" (60_exceptions.md R153).
Both are safe: the block defines no such access (20_memory.md R32), so nothing is proved of a host that makes one. -/
inductive Fault where
  /-- Raised by a byte, halfword or doubleword access to the window (R32); safe. -/
  | accessWidth
  /-- Raised by a 32-bit access whose offset is not a multiple of 4 (R32); safe. -/
  | accessMisaligned
  deriving DecidableEq, Repr

/-- What the model gives no meaning.
All are safe: a refused launch or access proves nothing. -/
inductive Refusal where
  /-- An instruction without a meaning yet; raised by no arm of this model. -/
  | notModelled (mnemonic : String)
  /-- Raised when two agents share the window without mutual exclusion: "refuse such a launch" (20_memory.md R41); safe. -/
  | unsynchronisedHosts
  /-- Raised when the platform may reorder accesses and the program has no barrier (20_memory.md R40, 93_implementation_defined.md row 13); safe. -/
  | unorderedAccesses
  /-- Raised by an access outside the window: "what else the host's address space holds, is the platform's business" (20_memory.md R31); safe. -/
  | outsideWindow
  deriving DecidableEq, Repr

/-- Four registers at 0. -/
def Quad.zero : Quad := ⟨0#32, 0#32, 0#32, 0#32⟩

/-- Eight registers at 0. -/
def Octo.zero : Octo := ⟨0#32, 0#32, 0#32, 0#32, 0#32, 0#32, 0#32, 0#32⟩

/-- The machine right after reset: every register holds 0 (10_state.md R30, 70_reset_and_hazards.md R154).
No event is pending and nothing has been read; the parameters are Config.default (log entry 1). -/
def State.reset : State :=
  { opa := Quad.zero
    opb := Quad.zero
    res := Octo.zero
    cmd := 0#32
    err := 0#3
    pending := []
    reads := []
    cfg := Config.default }

end Sys2Proof.Machine
end

