-- ==== Sys2Proof/Machine/Flags.lean ====
section
/-! DEFINITION. STATUS and the one word of ordering the block produces: the error codes (10_state.md R19), the STATUS view, and CMP's result word (46_compare.md R124). The block has no flags register (10_state.md R26). -/

namespace Sys2Proof.Machine

open Sys2Proof

/-- The ERR code of an error kind (10_state.md R19, 60_exceptions.md R138). -/
def ErrKind.code : ErrKind → BitVec 3
  | .overflow => 1#3
  | .divideByZero => 2#3
  | .invalidRepresentation => 3#3
  | .illegalCommand => 4#3

/-- ERR of a command that succeeds, `OK` (10_state.md R19). -/
def errOk : BitVec 3 := 0#3

/-- The STATUS register as the host reads it: ERR in bits 2:0, bits 31:3 read as 0 (10_state.md R19). -/
def State.status (s : State) : Word := s.err.zeroExtend 32

/-- CMP's ordering as a word: two's complement -1, 0 or 1 (46_compare.md R124). -/
def orderingWord (c : Int) : Word := if c = -1 then 0xFFFFFFFF#32 else BitVec.ofInt 32 c

end Sys2Proof.Machine
end

