-- ==== Sys2Proof/Machine/Operands.lean ====
section
/-! DEFINITION. The operand forms: limbs and wide integers (00_scope.md R8), the 4-word decimal layout (10_state.md R21, R22), Pack (R24), result words (30_encoding.md R56), raw operands (R53, R54) and the byte image (20_memory.md R36). -/

namespace Sys2Proof.Machine

open Sys2Proof

/-! Multi-word integers. -/

/-- `{R[j], …, R[k]}` of a list of words, the first the least significant limb (00_scope.md R8). -/
def ofLimbs : List Word → Nat
  | [] => 0
  | w :: ws => w.toNat + 2 ^ 32 * ofLimbs ws

/-- `n` limbs of `v`, least significant first: writing v into a register range (00_scope.md R9). -/
def limbs : Nat → Nat → List Word
  | 0, _ => []
  | n + 1, v => BitVec.ofNat 32 v :: limbs n (v / 2 ^ 32)

/-- The words of a quadruple, register 0 first. -/
def Quad.words (q : Quad) : List Word := [q.w0, q.w1, q.w2, q.w3]

/-- The words of the result registers, register 0 first. -/
def Octo.words (r : Octo) : List Word := [r.w0, r.w1, r.w2, r.w3, r.w4, r.w5, r.w6, r.w7]

/-- The eight RES words of a success: the words the command produces, and 0 in each other (30_encoding.md R56). -/
def resWords (ws : List Word) : Octo :=
  { w0 := ws.getD 0 0#32
    w1 := ws.getD 1 0#32
    w2 := ws.getD 2 0#32
    w3 := ws.getD 3 0#32
    w4 := ws.getD 4 0#32
    w5 := ws.getD 5 0#32
    w6 := ws.getD 6 0#32
    w7 := ws.getD 7 0#32 }

/-! Raw operands (30_encoding.md R53, R54). -/

/-- `X[0]`, zero-extended. -/
def Quad.u32 (q : Quad) : Nat := q.w0.toNat

/-- `{X[1], X[0]}`. -/
def Quad.u64 (q : Quad) : Nat := ofLimbs [q.w0, q.w1]

/-- `{X[2], X[1], X[0]}`, the 96-bit mantissa. -/
def Quad.u96 (q : Quad) : Nat := ofLimbs [q.w0, q.w1, q.w2]

/-- `{X[3], X[2], X[1], X[0]}`. -/
def Quad.u128 (q : Quad) : Nat := ofLimbs q.words

/-- `sext_32(X[0])`. -/
def Quad.s32 (q : Quad) : Int := q.w0.toInt

/-- `sext_64({X[1], X[0]})`. -/
def Quad.s64 (q : Quad) : Int := (q.w1 ++ q.w0).toInt

/-- SCALERES's operand `{OPB[1], OPB[0], OPA[3], OPA[2], OPA[1], OPA[0]}` (40_primitives.md R82). -/
def u192 (a b : Quad) : Nat := ofLimbs [a.w0, a.w1, a.w2, a.w3, b.w0, b.w1]

/-! The decimal layout. -/

/-- A decimal triple (s, e, m): sign (true = negative), scale and mantissa (00_scope.md R12). -/
structure Dec where
  sign : Bool
  scale : Nat
  mant : Nat
  deriving DecidableEq, Repr

/-- The scale field `flags[23:16]` (10_state.md R21). -/
def Quad.scaleField (q : Quad) : Nat := (q.w3.extractLsb' 16 8).toNat

/-- The reserved bits `{flags[30:24], flags[15:0]}` are all 0 (10_state.md R21). -/
def Quad.reservedZero (q : Quad) : Bool :=
  q.w3.extractLsb' 24 7 == 0#7 && q.w3.extractLsb' 0 16 == 0#16

/-- A quadruple is valid when its reserved bits are 0 and its scale is at most 28 (10_state.md R22). -/
def Quad.valid (q : Quad) : Bool := q.reservedZero && decide (q.scaleField ≤ scaleMax)

/-- `dec(X)`, the triple a quadruple holds (10_state.md R21). -/
def Quad.dec (q : Quad) : Dec := { sign := q.w3.getLsbD 31, scale := q.scaleField, mant := q.u96 }

/-- A decimal operand, checked valid first (10_state.md R22, 60_exceptions.md R141). -/
def readDec (q : Quad) : Except ErrKind Dec :=
  if q.valid then .ok q.dec else .error .invalidRepresentation

/-- The flags word of Pack, `(s << 31) | (e << 16)` (10_state.md R24). -/
def flagsWord (sign : Bool) (scale : Nat) : Word :=
  BitVec.ofNat 32 sign.toNat <<< 31 ||| BitVec.ofNat 32 scale <<< 16

/-- `Pack(s, e, m)` (10_state.md R24). -/
def pack (d : Dec) : Quad :=
  { w0 := BitVec.ofNat 32 d.mant
    w1 := BitVec.ofNat 32 (d.mant / 2 ^ 32)
    w2 := BitVec.ofNat 32 (d.mant / 2 ^ 64)
    w3 := flagsWord d.sign d.scale }

/-- The RES words of a decimal result: Pack in RES[0..3], 0 in RES[4..7] (00_scope.md R11). -/
def decResult (d : Dec) : Octo := resWords (pack d).words

/-- What a decimal triple must meet to be packed (10_state.md R24). -/
def Dec.fits (d : Dec) : Bool := decide (d.scale ≤ scaleMax) && decide (d.mant ≤ MMAX)

/-- The signed mantissa of a decimal at a scale `d.scale + k`: (-1)^s · m · 10^k (42_addsub.md R90, 46_compare.md R123). -/
def Dec.signedAt (d : Dec) (k : Nat) : Int :=
  if d.sign then -((d.mant * 10 ^ k : Nat) : Int) else ((d.mant * 10 ^ k : Nat) : Int)

/-- A decimal with its sign bit flipped (42_addsub.md R97). -/
def Dec.negated (d : Dec) : Dec := { d with sign := !d.sign }

/-! The byte image (20_memory.md R36). -/

/-- The 16-byte image of a decimal: byte i is bits 8·(i mod 4)+7 : 8·(i mod 4) of word i div 4 (20_memory.md R36). -/
def Quad.byteImage (q : Quad) : List Byte :=
  (List.range 16).map fun i => ((q.words.getD (i / 4) 0#32).extractLsb' (8 * (i % 4)) 8)

end Sys2Proof.Machine
end

