-- ==== Sys2Proof/Machine/Ops.lean ====
section
/-! DEFINITION. The named operations over the state: one update per field, how a command ends (30_encoding.md R46), reporting an error (60_exceptions.md R145), and the reset event (70_reset_and_hazards.md R154). -/

namespace Sys2Proof.Machine

open Sys2Proof

/-! Registers by index. -/

/-- Register `i` of a quadruple. -/
def Quad.get (q : Quad) (i : Fin 4) : Word :=
  match i with
  | 0 => q.w0
  | 1 => q.w1
  | 2 => q.w2
  | 3 => q.w3

/-- A quadruple with register `i` written. -/
def Quad.set (q : Quad) (i : Fin 4) (w : Word) : Quad :=
  match i with
  | 0 => { q with w0 := w }
  | 1 => { q with w1 := w }
  | 2 => { q with w2 := w }
  | 3 => { q with w3 := w }

/-- Register `i` of RES. -/
def Octo.get (r : Octo) (i : Fin 8) : Word :=
  match i with
  | 0 => r.w0
  | 1 => r.w1
  | 2 => r.w2
  | 3 => r.w3
  | 4 => r.w4
  | 5 => r.w5
  | 6 => r.w6
  | 7 => r.w7

/-! One update per field of State. -/

/-- OPA[i] gets a word (20_memory.md R37). -/
def State.withOpa (s : State) (i : Fin 4) (w : Word) : State := { s with opa := s.opa.set i w }

/-- OPB[i] gets a word (20_memory.md R37). -/
def State.withOpb (s : State) (i : Fin 4) (w : Word) : State := { s with opb := s.opb.set i w }

/-- RES[0..7] get the words of a success (30_encoding.md R46). -/
def State.withRes (s : State) (r : Octo) : State := { s with res := r }

/-- CMD gets the word written to it (10_state.md R18). -/
def State.withCmd (s : State) (w : Word) : State := { s with cmd := w }

/-- STATUS.ERR gets a code (10_state.md R20). -/
def State.withErr (s : State) (e : BitVec 3) : State := { s with err := e }

/-- The events still to be performed. -/
def State.withPending (s : State) (es : List HostEvent) : State := { s with pending := es }

/-- The host gets a value back from a read. -/
def State.withRead (s : State) (w : Word) : State := { s with reads := w :: s.reads }

/-! How a command ends. -/

/-- REPORTING AN ERROR, the one shared operation of every error: STATUS.ERR gets the code and nothing else changes (60_exceptions.md R145).
There is no trap: the block saves nothing, changes no mode and transfers control nowhere, so no return exists beside it (R146). -/
def State.raiseError (s : State) (e : ErrKind) : State := s.withErr e.code

/-- A success: all eight RES words are written and STATUS.ERR gets 0 (30_encoding.md R46, R56). -/
def State.succeed (s : State) (r : Octo) : State := (s.withRes r).withErr errOk

/-- The end of `Execute(w)`: the command's outcome is written (30_encoding.md R46). -/
def complete (outcome : Except ErrKind Octo) (s : State) : Host.Outcome State Fault Refusal :=
  match outcome with
  | .ok r => .next (s.succeed r)
  | .error e => .next (s.raiseError e)

/-- A command on one decimal operand, OPA (30_encoding.md R52). -/
def unaryDec (f : Dec → Except ErrKind Octo) (s : State) : Host.Outcome State Fault Refusal :=
  complete (match readDec s.opa with | .error e => .error e | .ok a => f a) s

/-- A command on two decimal operands, OPA checked before OPB (30_encoding.md R52, 60_exceptions.md R143). -/
def binaryDec (f : Dec → Dec → Except ErrKind Octo) (s : State) : Host.Outcome State Fault Refusal :=
  complete
    (match readDec s.opa with
      | .error e => .error e
      | .ok a => match readDec s.opb with | .error e => .error e | .ok b => f a b) s

/-- A decimal outcome as RES words (00_scope.md R11). -/
def decOutcome (o : Except ErrKind Dec) : Except ErrKind Octo :=
  match o with
  | .error e => .error e
  | .ok d => .ok (decResult d)

/-! Reset. -/

/-- The reset event: every register takes its reset value and no command is performed (70_reset_and_hazards.md R154; DESIGN CHOICE for the model's own fields, log entry 2, safe).
The platform's later events and the values the host already read are not the block's, and the parameters are fixed. -/
def State.blockReset (s : State) : State :=
  { State.reset with pending := s.pending, reads := s.reads, cfg := s.cfg }

end Sys2Proof.Machine
end

