-- ==== Sys2Proof/Machine/Arith.lean ====
section
/-! DEFINITION. The shared functions of 40_primitives.md section 1: rounding, stripping, scale reduction, scale search, leading-zero count and scale-up, over exact natural numbers. -/

namespace Sys2Proof.Machine

open Sys2Proof

/-- `RNE(n, d)`: n / d rounded to the nearest integer, a tie to the even one (40_primitives.md R61). -/
def rne (n d : Nat) : Nat :=
  if 2 * (n % d) > d ∨ (2 * (n % d) = d ∧ n / d % 2 = 1) then n / d + 1 else n / d

/-- `Strip(m, e)`: remove trailing decimal zeros while the scale is positive (40_primitives.md R62). -/
def strip (m : Nat) : Nat → Nat × Nat
  | 0 => (m, 0)
  | e + 1 => if m % 10 = 0 then strip (m / 10) e else (m, e + 1)

/-- The least k among `k, k + 1, …` with RNE(X, 10^k) ≤ MMAX, looking at `fuel` of them (40_primitives.md R63). -/
def leastReduction (X k : Nat) : (fuel : Nat) → Option Nat
  | 0 => none
  | n + 1 => if rne X (10 ^ k) ≤ MMAX then some k else leastReduction X (k + 1) n

/-- `ScaleResult(X, e)` (40_primitives.md R63): the search runs from `k0 = max(0, e - 28)` to e, and fails exactly when the least k is above e. -/
def scaleResult (X e : Nat) : Except ErrKind (Nat × Nat) :=
  match leastReduction X (e - scaleMax) (e + 1 - (e - scaleMax)) with
  | none => .error .overflow
  | some k => .ok (rne X (10 ^ k), e - k)

/-- The largest k in 0..bound with q · 10^k ≤ MMAX, for q ≤ MMAX (40_primitives.md R67). -/
def largestStep (q : Nat) : (bound : Nat) → Nat
  | 0 => 0
  | k + 1 => if q * 10 ^ (k + 1) ≤ MMAX then k + 1 else largestStep q k

/-- `SearchScale(q, t)` (40_primitives.md R67). -/
def searchScale (q : Nat) (t : Int) : Nat :=
  if 28 ≤ t then 0 else largestStep q (min pow10Step (28 - t).toNat)

/-- `bitlength(v)`, with bitlength(0) = 0 (40_primitives.md R68). -/
def bitLength (v : Nat) : Nat := if v = 0 then 0 else Nat.log2 v + 1

/-- `LZC_n(v) = n - bitlength(v)` (40_primitives.md R68). -/
def lzc (n v : Nat) : Nat := n - bitLength v

/-- `ScaleUp(m, k) = m · 10^k` (40_primitives.md R80). -/
def scaleUp (m k : Nat) : Nat := m * 10 ^ k

/-- D0's bit-position estimate of the reduction of an X above MMAX, `⌊(p - 96)·77/256⌋ + 1` with p the index of the highest set bit (40_primitives.md R66).
It is an implementation procedure: no command of the model uses it. -/
def estimatedReduction (X : Nat) : Nat := (191 - lzc 192 X - 96) * 77 / 256 + 1

end Sys2Proof.Machine
end

