-- ==== Sys2Proof/Machine/AddSub.lean ====
section
/-! DEFINITION. Addition and subtraction with scale alignment (42_addsub.md R90 to R97). -/

namespace Sys2Proof.Machine

open Sys2Proof

/-- The sum of two aligned magnitudes with signs: its sign and its magnitude (42_addsub.md R90 steps 3 and 4, R93). -/
def signedSum (sA : Bool) (a : Nat) (sB : Bool) (b : Nat) : Bool × Nat :=
  if sA = sB then (sA, a + b)
  else if b ≤ a then (sA, a - b)
  else (sB, b - a)

/-- `AddCore(A, B)` (42_addsub.md R90). -/
def addCore (A B : Dec) : Except ErrKind Dec :=
  if B.mant = 0 then .ok A
  else if A.mant = 0 then .ok B
  else
    let s := max A.scale B.scale
    let sum := signedSum A.sign (scaleUp A.mant (s - A.scale)) B.sign (scaleUp B.mant (s - B.scale))
    match scaleResult sum.2 s with
    | .error err => .error err
    | .ok (m, e) => .ok { sign := sum.1, scale := e, mant := m }

/-- ADD: decimal addition (42_addsub.md R96). -/
def execAdd (s : State) : Host.Outcome State Fault Refusal :=
  binaryDec (fun A B => decOutcome (addCore A B)) s

/-- SUB: AddCore with the effective sign of the second operand flipped (42_addsub.md R97). -/
def execSub (s : State) : Host.Outcome State Fault Refusal :=
  binaryDec (fun A B => decOutcome (addCore A B.negated)) s

end Sys2Proof.Machine
end

