-- ==== Sys2Proof/Machine/Compare.lean ====
section
/-! DEFINITION. Comparison and normalization (46_compare.md R122 to R126). -/

namespace Sys2Proof.Machine

open Sys2Proof

/-- `CmpCore(A, B)`: the order of the two exact values, -1, 0 or 1 (46_compare.md R122).
Both values are brought to the denominator 10^(a+b), so the comparison is one of integers. -/
def cmpCore (A B : Dec) : Int :=
  if A.signedAt B.scale < B.signedAt A.scale then -1
  else if A.signedAt B.scale = B.signedAt A.scale then 0
  else 1

/-- CMP: `RES[0]` gets the ordering (46_compare.md R124). -/
def execCmp (s : State) : Host.Outcome State Fault Refusal :=
  binaryDec (fun A B => .ok (resWords [orderingWord (cmpCore A B)])) s

/-- The canonical encoding of a value: Strip, and a zero made positive (46_compare.md R125). -/
def normCore (A : Dec) : Dec :=
  let p := strip A.mant A.scale
  { sign := if p.1 = 0 then false else A.sign, scale := p.2, mant := p.1 }

/-- NORM: remove trailing zeros (46_compare.md R125). -/
def execNorm (s : State) : Host.Outcome State Fault Refusal :=
  unaryDec (fun A => .ok (decResult (normCore A))) s

end Sys2Proof.Machine
end

