-- ==== Sys2Proof/Machine/Construct.lean ====
section
/-! DEFINITION. Construction and validation (41_construct.md R83 to R89). -/

namespace Sys2Proof.Machine

open Sys2Proof

/-- LDW: validate OPA and copy it bit for bit (41_construct.md R83). -/
def execLdw (s : State) : Host.Outcome State Fault Refusal :=
  unaryDec (fun _ => .ok (resWords s.opa.words)) s

/-- The decimal of explicit parts: OPB[0] selects the sign, OPB[1] is the scale (41_construct.md R84). -/
def decOfParts (opa opb : Quad) : Except ErrKind Dec :=
  if opb.w1.toNat > scaleMax then .error .invalidRepresentation
  else .ok { sign := decide (opb.w0 ≠ 0#32), scale := opb.w1.toNat, mant := opa.u96 }

/-- MKPARTS: construct from explicit parts (41_construct.md R84). -/
def execMkparts (s : State) : Host.Outcome State Fault Refusal :=
  complete (decOutcome (decOfParts s.opa s.opb)) s

/-- The decimal of a signed integer: `(v < 0 ? 1 : 0, 0, |v|)` (41_construct.md R85, R87). -/
def decOfInt (v : Int) : Dec := { sign := decide (v < 0), scale := 0, mant := v.natAbs }

/-- The decimal of an unsigned integer: `(0, 0, v)` (41_construct.md R86, R88). -/
def decOfNat (v : Nat) : Dec := { sign := false, scale := 0, mant := v }

/-- FROMI32: construct from `sext_32(OPA[0])` (41_construct.md R85). -/
def execFromi32 (s : State) : Host.Outcome State Fault Refusal :=
  complete (.ok (decResult (decOfInt s.opa.s32))) s

/-- FROMU32: construct from OPA[0] (41_construct.md R86). -/
def execFromu32 (s : State) : Host.Outcome State Fault Refusal :=
  complete (.ok (decResult (decOfNat s.opa.u32))) s

/-- FROMI64: construct from `sext_64({OPA[1], OPA[0]})` (41_construct.md R87). -/
def execFromi64 (s : State) : Host.Outcome State Fault Refusal :=
  complete (.ok (decResult (decOfInt s.opa.s64))) s

/-- FROMU64: construct from `{OPA[1], OPA[0]}` (41_construct.md R88). -/
def execFromu64 (s : State) : Host.Outcome State Fault Refusal :=
  complete (.ok (decResult (decOfNat s.opa.u64))) s

end Sys2Proof.Machine
end

