-- ==== Sys2Proof/Machine/Float.lean ====
section
/-! DEFINITION. The binary floating-point formats (47_convert.md R127): the exact value of a pattern and rounding a nonnegative rational to the nearest pattern. A rational is a pair of naturals (numerator, denominator); a magnitude pattern has its sign bit 0.
The layouts are the standard ones, as R127 says (PRESUMED, log entry 6, unsafe). -/

namespace Sys2Proof.Machine

open Sys2Proof

/-- An IEEE-754 binary interchange format: its fraction and exponent widths (47_convert.md R127). -/
structure FloatFormat where
  fracBits : Nat
  expBits : Nat
  deriving DecidableEq, Repr

/-- binary64: exponent bits 62:52, fraction bits 51:0 (47_convert.md R127). -/
def binary64 : FloatFormat := { fracBits := 52, expBits := 11 }

/-- binary32: exponent bits 30:23, fraction bits 22:0 (47_convert.md R127). -/
def binary32 : FloatFormat := { fracBits := 23, expBits := 8 }

/-- The bias: 1023 for binary64, 127 for binary32 (47_convert.md R127). -/
def FloatFormat.bias (F : FloatFormat) : Nat := 2 ^ (F.expBits - 1) - 1

/-- The exponent of the unit in the last place of the subnormals: -1074 or -149. -/
def FloatFormat.minUlp (F : FloatFormat) : Int := 1 - (F.bias : Int) - (F.fracBits : Int)

/-- The biased exponent field of a pattern. -/
def FloatFormat.expField (F : FloatFormat) (x : Nat) : Nat := x / 2 ^ F.fracBits % 2 ^ F.expBits

/-- The fraction field of a pattern. -/
def FloatFormat.fracField (F : FloatFormat) (x : Nat) : Nat := x % 2 ^ F.fracBits

/-- The sign bit of a pattern. -/
def FloatFormat.signBit (F : FloatFormat) (x : Nat) : Bool :=
  decide (x / 2 ^ (F.fracBits + F.expBits) % 2 = 1)

/-- A pattern with the exponent all ones: an infinity or a NaN (47_convert.md R127). -/
def FloatFormat.isSpecial (F : FloatFormat) (x : Nat) : Bool :=
  decide (F.expField x = 2 ^ F.expBits - 1)

/-- The significand of a finite pattern: the fraction, with the leading 1 of a normal number. -/
def FloatFormat.significand (F : FloatFormat) (x : Nat) : Nat :=
  if F.expField x = 0 then F.fracField x else 2 ^ F.fracBits + F.fracField x

/-- The exponent of the unit in the last place of a finite pattern. -/
def FloatFormat.ulpExp (F : FloatFormat) (x : Nat) : Int := F.minUlp + ((F.expField x - 1 : Nat) : Int)

/-- `|fval(x)|`, the exact magnitude of a finite pattern (47_convert.md R127). -/
def FloatFormat.magnitude (F : FloatFormat) (x : Nat) : Nat × Nat :=
  (F.significand x * 2 ^ (F.ulpExp x).toNat, 2 ^ (-F.ulpExp x).toNat)

/-- The integer e with 2^e ≤ n/d < 2^(e+1), for n, d ≥ 1. -/
def ilog2 (n d : Nat) : Int :=
  let e : Int := (Nat.log2 n : Int) - (Nat.log2 d : Int)
  if d * 2 ^ e.toNat ≤ n * 2 ^ (-e).toNat then e else e - 1

/-- The exponent of the unit in the last place at which n/d is rounded. -/
def FloatFormat.roundExp (F : FloatFormat) (n d : Nat) : Int :=
  max (ilog2 n d - (F.fracBits : Int)) F.minUlp

/-- `RNE64` and `RNE32`: the pattern of n/d rounded to nearest, ties to even significand (47_convert.md R127).
A rounding that carries out of the significand raises the exponent field by itself.
No value below 2^97 reaches the infinities, and the block produces none above (R127). -/
def FloatFormat.round (F : FloatFormat) (n d : Nat) : Nat :=
  if n = 0 then 0
  else
    let u := F.roundExp n d
    (u - F.minUlp).toNat * 2 ^ F.fracBits + rne (n * 2 ^ (-u).toNat) (d * 2 ^ u.toNat)

end Sys2Proof.Machine
end

