-- ==== Sys2Proof/Machine/Convert.lean ====
section
/-! DEFINITION. The floating-point and currency converters (47_convert.md R128 to R136). -/

namespace Sys2Proof.Machine

open Sys2Proof

/-! Decimal to floating point. -/

/-- `f3` of ToDouble: `RNE64(RNE64(lo64) + hi·2^64)` as a binary64 pattern (47_convert.md R128). -/
def mantissaDouble (m : Nat) : Nat :=
  let f1 := binary64.magnitude (binary64.round (m % 2 ^ 64) 1)
  binary64.round (f1.1 + m / 2 ^ 64 * 2 ^ 64 * f1.2) f1.2

/-- The magnitude of `ToDouble(s, e, m)`: `RNE64(f3 / RNE64(10^e))` as a binary64 pattern (47_convert.md R128). -/
def doubleMagnitude (e m : Nat) : Nat :=
  let f3 := binary64.magnitude (mantissaDouble m)
  let p := binary64.magnitude (binary64.round (10 ^ e) 1)
  binary64.round (f3.1 * p.2) (f3.2 * p.1)

/-- `bits64(ToDouble(s, e, m))`: the sign is applied last (47_convert.md R128). -/
def toDouble (d : Dec) : Nat := d.sign.toNat * 2 ^ 63 + doubleMagnitude d.scale d.mant

/-- `bits32(RNE32(ToDouble(s, e, m)))` (47_convert.md R130). -/
def toSingle (d : Dec) : Nat :=
  let f := binary64.magnitude (doubleMagnitude d.scale d.mant)
  d.sign.toNat * 2 ^ 31 + binary32.round f.1 f.2

/-- TOF64: decimal to binary64 (47_convert.md R129). -/
def execTof64 (s : State) : Host.Outcome State Fault Refusal :=
  unaryDec (fun A => .ok (resWords (limbs 2 (toDouble A)))) s

/-- TOF32: decimal to binary32 (47_convert.md R130). -/
def execTof32 (s : State) : Host.Outcome State Fault Refusal :=
  unaryDec (fun A => .ok (resWords (limbs 1 (toSingle A)))) s

/-! Floating point to decimal. -/

/-- The largest k with 10^k ≤ v, among k ≤ bound, for v ≥ 1. -/
def largestPow10 (v : Nat) : (bound : Nat) → Nat
  | 0 => 0
  | k + 1 => if 10 ^ (k + 1) ≤ v then k + 1 else largestPow10 v k

/-- The least j with d ≤ n·10^j among `j, j + 1, …`, looking at `fuel` of them. -/
def leastPow10 (n d j : Nat) : (fuel : Nat) → Nat
  | 0 => j
  | k + 1 => if d ≤ n * 10 ^ j then j else leastPow10 n d (j + 1) k

/-- `lg10(n/d)`: the integer e with 10^e ≤ n/d < 10^(e+1) (00_scope.md R9), for n, d ≥ 1.
10^k ≤ v needs k ≤ log2 v, and d ≤ n·10^j holds at j = log2 d + 1. -/
def lg10 (n d : Nat) : Int :=
  if d ≤ n then (largestPow10 (n / d) (Nat.log2 (n / d)) : Int)
  else -(leastPow10 n d 0 (Nat.log2 d + 1) : Int)

/-- The positive zero at scale 0. -/
def zeroDec : Dec := { sign := false, scale := 0, mant := 0 }

/-- The scale that keeps N significant digits, at most 28: `min(N - 1 - lg10(v), 28)` (47_convert.md R131). -/
def digitScale (N n d : Nat) : Int := min ((N : Int) - 1 - lg10 n d) 28

/-- `RNE(v · 10^p)` for an integer p of either sign (47_convert.md R131). -/
def roundedAt (n d : Nat) (p : Int) : Nat := rne (n * 10 ^ p.toNat) (d * 10 ^ (-p).toNat)

/-- FromFloat on a nonzero magnitude n/d below 2^96 (47_convert.md R131, R132). -/
def decOfMagnitude (sign : Bool) (N n d : Nat) : Except ErrKind Dec :=
  let p := digitScale N n d
  let m := roundedAt n d p
  if m = 0 then .ok zeroDec
  else if p < 0 then
    if m * 10 ^ (-p).toNat > MMAX then .error .overflow
    else .ok { sign := sign, scale := 0, mant := m * 10 ^ (-p).toNat }
  else
    let me := strip m p.toNat
    .ok { sign := sign, scale := me.2, mant := me.1 }

/-- `FromFloat(x, N)` (47_convert.md R131): NaN, the infinities and |x| ≥ 2^96 overflow (R133), and a zero is positive (R132). -/
def fromFloat (F : FloatFormat) (N x : Nat) : Except ErrKind Dec :=
  if F.isSpecial x then .error .overflow
  else if 2 ^ 96 * (F.magnitude x).2 ≤ (F.magnitude x).1 then .error .overflow
  else if (F.magnitude x).1 = 0 then .ok zeroDec
  else decOfMagnitude (F.signBit x) N (F.magnitude x).1 (F.magnitude x).2

/-- FROMF64: binary64 `{OPA[1], OPA[0]}` to decimal, 15 digits (47_convert.md R134). -/
def execFromf64 (s : State) : Host.Outcome State Fault Refusal :=
  complete (decOutcome (fromFloat binary64 f64Digits s.opa.u64)) s

/-- FROMF32: binary32 OPA[0] to decimal, 7 digits (47_convert.md R134). -/
def execFromf32 (s : State) : Host.Outcome State Fault Refusal :=
  complete (decOutcome (fromFloat binary32 f32Digits s.opa.u32)) s

/-! Currency. -/

/-- The decimal of a currency value c, in units of 10^-4 (47_convert.md R135). -/
def decOfCurrency (c : Int) : Dec :=
  if c = 0 then zeroDec
  else
    let me := strip c.natAbs cyScale
    { sign := decide (c < 0), scale := me.2, mant := me.1 }

/-- FROMCY: from `sext_64({OPA[1], OPA[0]})` (47_convert.md R135). -/
def execFromcy (s : State) : Host.Outcome State Fault Refusal :=
  complete (.ok (decResult (decOfCurrency s.opa.s64))) s

/-- The magnitude of a decimal in units of 10^-4, rounded to nearest even (47_convert.md R136). -/
def currencyMagnitude (A : Dec) : Nat :=
  if A.scale < cyScale then A.mant * 10 ^ (cyScale - A.scale)
  else rne A.mant (10 ^ (A.scale - cyScale))

/-- The currency value of a decimal, which must fit a signed 64-bit integer (47_convert.md R136). -/
def toCurrency (A : Dec) : Except ErrKind Int :=
  let c : Int := if A.sign then -(currencyMagnitude A : Int) else (currencyMagnitude A : Int)
  if c < -(2 ^ 63) ∨ c > 2 ^ 63 - 1 then .error .overflow else .ok c

/-- `c mod 2^64`, two's complement, as the two RES words (47_convert.md R136). -/
def currencyWords (c : Int) : Octo := resWords (limbs 2 (BitVec.ofInt 64 c).toNat)

/-- TOCY: to a 64-bit currency value (47_convert.md R136). -/
def execTocy (s : State) : Host.Outcome State Fault Refusal :=
  unaryDec
    (fun A => match toCurrency A with | .error err => .error err | .ok c => .ok (currencyWords c)) s

end Sys2Proof.Machine
end

