-- ==== Sys2Proof/Machine/DivMod.lean ====
section
/-! DEFINITION. Division and modulo (44_divmod.md R103 to R113). -/

namespace Sys2Proof.Machine

open Sys2Proof

/-- The loop variables of DivCore: quotient, remainder, scale and whether the division was extended (44_divmod.md R103). -/
structure DivLoop where
  q : Nat
  r : Nat
  t : Int
  extended : Bool
  deriving DecidableEq, Repr

/-- How one pass of the loop ends: `continue loop`, `exit loop` or `raise Overflow` (44_divmod.md R103). -/
inductive DivPass where
  | again (st : DivLoop)
  | exit (st : DivLoop)
  | overflow
  deriving DecidableEq, Repr

/-- 2^96 / 10 rounded: the quotient after a rounding that carried out of 96 bits (44_divmod.md R105 (b)). -/
def carriedQuotient : Nat := 7922816251426433759354395034

/-- The pass with a zero remainder: exact, and scaled up while the scale is negative (44_divmod.md R103, R106 (a)). -/
def divExactPass (st : DivLoop) : DivPass :=
  if st.t < 0 then
    if st.q * 10 ^ min pow10Step (-st.t).toNat > MMAX then .overflow
    else
      .again { st with
        q := st.q * 10 ^ min pow10Step (-st.t).toNat
        t := st.t + (min pow10Step (-st.t).toNat : Nat) }
  else .exit st

/-- The pass in which no more scaling is possible: round to nearest even, and drop a digit when the carry reaches 2^96 (44_divmod.md R103, R105 (b)). -/
def divRoundPass (d : Nat) (st : DivLoop) : DivPass :=
  let q := if 2 * st.r > d ∨ (2 * st.r = d ∧ st.q % 2 = 1) then st.q + 1 else st.q
  if q = 2 ^ 96 then
    if st.t - 1 < 0 then .overflow
    else .exit { q := carriedQuotient, r := st.r, t := st.t - 1, extended := true }
  else .exit { q := q, r := st.r, t := st.t, extended := true }

/-- The pass that grows the quotient by k digits, and unscales by one digit when it passes MMAX (44_divmod.md R103, R105 (a)). -/
def divExtendPass (d k : Nat) (st : DivLoop) : DivPass :=
  let t := st.t + (k : Int)
  let q := st.q * 10 ^ k + st.r * 10 ^ k / d
  let r := st.r * 10 ^ k % d
  if q > MMAX then
    if t - 1 < 0 then .overflow
    else
      let q0 := q / 10
      let dg := q % 10
      let up := dg > 5 ∨ (dg = 5 ∧ (r ≠ 0 ∨ q0 % 2 = 1))
      .exit { q := if up then q0 + 1 else q0, r := r, t := t - 1, extended := true }
  else .again { q := q, r := r, t := t, extended := true }

/-- One pass of the loop (44_divmod.md R103). -/
def divPass (d : Nat) (st : DivLoop) : DivPass :=
  if st.r = 0 then divExactPass st
  else
    let k := searchScale st.q st.t
    if k < pow10Step ∧ st.t + (k : Int) < 0 then .overflow
    else if k = 0 then divRoundPass d st
    else divExtendPass d k st

/-- The loop, for a bounded number of passes: 57 are always enough (44_divmod.md R104).
`none` says that the passes are used up, and no outcome of a division is (log entry 5). -/
def divLoop (d : Nat) : (passes : Nat) → DivLoop → Option (Except ErrKind DivLoop)
  | 0, _ => none
  | n + 1, st =>
    match divPass d st with
    | .again st' => divLoop d n st'
    | .exit st' => some (.ok st')
    | .overflow => some (.error .overflow)

/-- The bound on the passes of the loop (44_divmod.md R104). -/
def divPasses : Nat := 57

/-- The loop variables before the first pass: the natural-scale division (44_divmod.md R103). -/
def divStart (A B : Dec) : DivLoop :=
  { q := A.mant / B.mant
    r := A.mant % B.mant
    t := (A.scale : Int) - (B.scale : Int)
    extended := false }

/-- The sign of a quotient: every zero quotient is positive (44_divmod.md R103, R109). -/
def quotientSign (A B : Dec) (q : Nat) : Bool := if q = 0 then false else xor A.sign B.sign

/-- `DivCore(A, B)` (44_divmod.md R103); `normalize` is DIV_NORMALIZE (R107).
The arm for a loop whose passes are used up is never reached (DEDUCED, log entry 5, safe by the obligation that 57 passes always end it). -/
def divCore (normalize : Bool) (A B : Dec) : Except ErrKind Dec :=
  if B.mant = 0 then .error .divideByZero
  else
    match divLoop B.mant divPasses (divStart A B) with
    | none => .error .overflow
    | some (.error err) => .error err
    | some (.ok st) =>
      let qt := if st.extended && normalize then strip st.q st.t.toNat else (st.q, st.t.toNat)
      .ok { sign := quotientSign A B qt.1, scale := qt.2, mant := qt.1 }

/-- DIV: decimal division (44_divmod.md R110). -/
def execDiv (s : State) : Host.Outcome State Fault Refusal :=
  binaryDec (fun A B => decOutcome (divCore s.cfg.divNormalize A B)) s

/-- The largest u in 0..bound with ⌊n·10^u / d⌋ ≤ MMAX (44_divmod.md R108, `max U`). -/
def largestFit (n d : Nat) : (bound : Nat) → Option Nat
  | 0 => if n / d ≤ MMAX then some 0 else none
  | u + 1 => if n * 10 ^ (u + 1) / d ≤ MMAX then some (u + 1) else largestFit n d u

/-- The closed form's inexact quotient, rounded at scale u, or at u - 1 when it does not fit at u (44_divmod.md R108). -/
def divClosedAt (n d u : Nat) : Except ErrKind (Nat × Nat) :=
  if rne (n * 10 ^ u) d ≤ MMAX then .ok (strip (rne (n * 10 ^ u) d) u)
  else if u = 0 then .error .overflow
  else .ok (strip (rne (n * 10 ^ (u - 1)) d) (u - 1))

/-- The closed form of DivCore for DIV_NORMALIZE = true and a nonzero divisor (44_divmod.md R108).
DIV does not use it: R103 is the normative definition. -/
def divClosedForm (A B : Dec) : Except ErrKind Dec :=
  let outcome : Except ErrKind (Nat × Nat) :=
    if A.mant % B.mant = 0 then
      if B.scale ≤ A.scale then .ok (A.mant / B.mant, A.scale - B.scale)
      else if A.mant / B.mant * 10 ^ (B.scale - A.scale) > MMAX then .error .overflow
      else .ok (A.mant / B.mant * 10 ^ (B.scale - A.scale), 0)
    else
      match largestFit (A.mant * 10 ^ B.scale) (B.mant * 10 ^ A.scale) scaleMax with
      | none => .error .overflow
      | some u => divClosedAt (A.mant * 10 ^ B.scale) (B.mant * 10 ^ A.scale) u
  match outcome with
  | .error err => .error err
  | .ok (q, t) => .ok { sign := quotientSign A B q, scale := t, mant := q }

/-- `RemCore(A, B)` (44_divmod.md R111). -/
def remCore (A B : Dec) : Except ErrKind Dec :=
  if B.mant = 0 then .error .divideByZero
  else if A.mant = 0 then .ok A
  else
    let s := max A.scale B.scale
    .ok
      { sign := A.sign
        scale := s
        mant := scaleUp A.mant (s - A.scale) % scaleUp B.mant (s - B.scale) }

/-- REM: decimal remainder (44_divmod.md R113). -/
def execRem (s : State) : Host.Outcome State Fault Refusal :=
  binaryDec (fun A B => decOutcome (remCore A B)) s

end Sys2Proof.Machine
end

