-- ==== Sys2Proof/Machine/Multiply.lean ====
section
/-! DEFINITION. Multiplication (43_mul.md R99 to R101). -/

namespace Sys2Proof.Machine

open Sys2Proof

/-- `MulCore(A, B)`: the exact product, reduced once; a zero result is positive (43_mul.md R99, R101). -/
def mulCore (A B : Dec) : Except ErrKind Dec :=
  match scaleResult (A.mant * B.mant) (A.scale + B.scale) with
  | .error err => .error err
  | .ok (m, e) =>
    .ok { sign := if m = 0 then false else xor A.sign B.sign, scale := e, mant := m }

/-- MUL: decimal multiplication (43_mul.md R100). -/
def execMul (s : State) : Host.Outcome State Fault Refusal :=
  binaryDec (fun A B => decOutcome (mulCore A B)) s

end Sys2Proof.Machine
end

