-- ==== Sys2Proof/Machine/Primitives.lean ====
section
/-! DEFINITION. The primitive commands (40_primitives.md R70 to R82): multiplier, divider, leading-zero counter, power-of-10 scaler. -/

namespace Sys2Proof.Machine

open Sys2Proof

/-- MUL96X32: `RES[0..3] <- OPA[0..2] · OPB[0]` (40_primitives.md R70). -/
def execMul96x32 (s : State) : Host.Outcome State Fault Refusal :=
  complete (.ok (resWords (limbs 4 (s.opa.u96 * s.opb.u32)))) s

/-- MUL96X64: `RES[0..4] <- OPA[0..2] · OPB[0..1]` (40_primitives.md R71). -/
def execMul96x64 (s : State) : Host.Outcome State Fault Refusal :=
  complete (.ok (resWords (limbs 5 (s.opa.u96 * s.opb.u64)))) s

/-- MUL96X96: `RES[0..5] <- OPA[0..2] · OPB[0..2]` (40_primitives.md R72). -/
def execMul96x96 (s : State) : Host.Outcome State Fault Refusal :=
  complete (.ok (resWords (limbs 6 (s.opa.u96 * s.opb.u96)))) s

/-- The divider: the exact quotient in `qn` words and the remainder in the `rn` words above them, or DivideByZero (40_primitives.md R69, R74 to R77). -/
def divide (qn rn a d : Nat) : Except ErrKind Octo :=
  if d = 0 then .error .divideByZero else .ok (resWords (limbs qn (a / d) ++ limbs rn (a % d)))

/-- DIV96X32: `RES[0..2] <- a div d ; RES[3] <- a mod d` (40_primitives.md R74). -/
def execDiv96x32 (s : State) : Host.Outcome State Fault Refusal :=
  complete (divide 3 1 s.opa.u96 s.opb.u32) s

/-- DIV96X64: `RES[0..2] <- a div d ; RES[3..4] <- a mod d` (40_primitives.md R75). -/
def execDiv96x64 (s : State) : Host.Outcome State Fault Refusal :=
  complete (divide 3 2 s.opa.u96 s.opb.u64) s

/-- DIV128X96: `RES[0..3] <- a div d ; RES[4..6] <- a mod d` (40_primitives.md R76). -/
def execDiv128x96 (s : State) : Host.Outcome State Fault Refusal :=
  complete (divide 4 3 s.opa.u128 s.opb.u96) s

/-- LZC32: `RES[0] <- LZC_32(OPA[0])` (40_primitives.md R78). -/
def execLzc32 (s : State) : Host.Outcome State Fault Refusal :=
  complete (.ok (resWords [BitVec.ofNat 32 (lzc 32 s.opa.u32)])) s

/-- LZC96: `RES[0] <- LZC_96(OPA[0..2])` (40_primitives.md R79). -/
def execLzc96 (s : State) : Host.Outcome State Fault Refusal :=
  complete (.ok (resWords [BitVec.ofNat 32 (lzc 96 s.opa.u96)])) s

/-- POW10MUL: `RES[0..5] <- ScaleUp(OPA[0..2], K)` (40_primitives.md R81). -/
def execPow10mul (k : Nat) (s : State) : Host.Outcome State Fault Refusal :=
  complete (.ok (resWords (limbs 6 (scaleUp s.opa.u96 k)))) s

/-- SCALERES on a 192-bit integer: the reduced decimal, its sign always 0 (40_primitives.md R82). -/
def scaleresDec (X e : Nat) : Except ErrKind Dec :=
  match scaleResult X e with
  | .error err => .error err
  | .ok (m, e') => .ok { sign := false, scale := e', mant := m }

/-- SCALERES: ScaleResult of `{OPB[1], OPB[0], OPA[3..0]}` at scale K (40_primitives.md R82). -/
def execScaleres (k : Nat) (s : State) : Host.Outcome State Fault Refusal :=
  complete (decOutcome (scaleresDec (u192 s.opa s.opb) k)) s

end Sys2Proof.Machine
end

