-- ==== Sys2Proof/Machine/Rounding.lean ====
section
/-! DEFINITION. The rounding engine (45_round.md R115 to R121). -/

namespace Sys2Proof.Machine

open Sys2Proof

/-- `Up(mode, s, q, r, half)`: whether the magnitude q is incremented (45_round.md R116). -/
def roundUp (mode : RoundMode) (sign : Bool) (q r half : Nat) : Bool :=
  match mode with
  | .rne => decide (r > half ∨ (r = half ∧ q % 2 = 1))
  | .away => decide (r ≥ half)
  | .trunc => false
  | .floor => decide (r > 0) && sign
  | .ceil => decide (r > 0) && !sign

/-- `RoundCore(A, mode, t)` (45_round.md R115, R117). -/
def roundCore (A : Dec) (mode : RoundMode) (t : Nat) : Dec :=
  if A.scale ≤ t then A
  else
    let d := A.scale - t
    let q := A.mant / 10 ^ d
    let r := A.mant % 10 ^ d
    let up := roundUp mode A.sign q r (10 ^ d / 2)
    { sign := A.sign, scale := t, mant := q + (if up then 1 else 0) }

/-- ROUND: round to scale K with mode MODE (45_round.md R120). -/
def execRound (mode : RoundMode) (k : Nat) (s : State) : Host.Outcome State Fault Refusal :=
  unaryDec (fun A => .ok (decResult (roundCore A mode k))) s

end Sys2Proof.Machine
end

