-- ==== Sys2Proof/Machine/Dispatch.lean ====
section
/-! DEFINITION. `Perform` of 30_encoding.md R46: one arm per command, each one direct call of its meaning. -/

namespace Sys2Proof.Machine

open Sys2Proof

def exec (i : Instr) (s : State) : Host.Outcome State Fault Refusal :=
  match i with
  -- 41_construct.md
  | .ldw => Sys2Proof.Machine.execLdw s
  | .mkparts => Sys2Proof.Machine.execMkparts s
  | .fromi32 => Sys2Proof.Machine.execFromi32 s
  | .fromu32 => Sys2Proof.Machine.execFromu32 s
  | .fromi64 => Sys2Proof.Machine.execFromi64 s
  | .fromu64 => Sys2Proof.Machine.execFromu64 s
  -- 42_addsub.md, 43_mul.md, 44_divmod.md
  | .add => Sys2Proof.Machine.execAdd s
  | .sub => Sys2Proof.Machine.execSub s
  | .mul => Sys2Proof.Machine.execMul s
  | .div => Sys2Proof.Machine.execDiv s
  | .rem => Sys2Proof.Machine.execRem s
  -- 45_round.md, 46_compare.md
  | .round mode k => Sys2Proof.Machine.execRound mode k s
  | .cmp => Sys2Proof.Machine.execCmp s
  | .norm => Sys2Proof.Machine.execNorm s
  -- 47_convert.md
  | .tof64 => Sys2Proof.Machine.execTof64 s
  | .tof32 => Sys2Proof.Machine.execTof32 s
  | .fromf64 => Sys2Proof.Machine.execFromf64 s
  | .fromf32 => Sys2Proof.Machine.execFromf32 s
  | .fromcy => Sys2Proof.Machine.execFromcy s
  | .tocy => Sys2Proof.Machine.execTocy s
  -- 40_primitives.md
  | .mul96x32 => Sys2Proof.Machine.execMul96x32 s
  | .mul96x64 => Sys2Proof.Machine.execMul96x64 s
  | .mul96x96 => Sys2Proof.Machine.execMul96x96 s
  | .div96x32 => Sys2Proof.Machine.execDiv96x32 s
  | .div96x64 => Sys2Proof.Machine.execDiv96x64 s
  | .div128x96 => Sys2Proof.Machine.execDiv128x96 s
  | .lzc32 => Sys2Proof.Machine.execLzc32 s
  | .lzc96 => Sys2Proof.Machine.execLzc96 s
  | .pow10mul k => Sys2Proof.Machine.execPow10mul k s
  | .scaleres k => Sys2Proof.Machine.execScaleres k s

end Sys2Proof.Machine
end

