-- ==== Sys2Proof/Machine/Window.lean ====
section
/-! DEFINITION. The register window (20_memory.md R31 to R37), `Execute(w)` (30_encoding.md R46), and what one event of the platform does. -/

namespace Sys2Proof.Machine

open Sys2Proof

/-- The register at an aligned offset of the window, none at 0x48 to 0x7C (20_memory.md R31, R34). -/
def regAt (off : Nat) : Option Reg :=
  if off < 0x10 then some (.opa (Fin.ofNat 4 (off / 4)))
  else if off < 0x20 then some (.opb (Fin.ofNat 4 (off / 4)))
  else if off < 0x40 then some (.res (Fin.ofNat 8 (off / 4)))
  else if off = 0x40 then some .cmd
  else if off = 0x44 then some .status
  else none

/-- The offset of a register (20_memory.md R31). -/
def Reg.offset : Reg → Nat
  | .opa i => 4 * i.val
  | .opb i => 0x10 + 4 * i.val
  | .res i => 0x20 + 4 * i.val
  | .cmd => 0x40
  | .status => 0x44

/-- The word a register reads as; reading has no side effect (10_state.md R18, R19, 20_memory.md R37). -/
def readReg (s : State) : Reg → Word
  | .opa i => s.opa.get i
  | .opb i => s.opb.get i
  | .res i => s.res.get i
  | .cmd => s.cmd
  | .status => s.status

/-- `HostRead(off)`: the register's word, or 0 where the offset holds no register (20_memory.md R34, R37). -/
def windowRead (s : State) (off : Nat) : Word :=
  match regAt off with
  | some r => readReg s r
  | none => 0#32

/-- An ILLEGAL command word: STATUS.ERR gets 4 and nothing else changes (30_encoding.md R46, R50). -/
def illegalWord (s : State) : State := s.raiseError .illegalCommand

/-- `Execute(w)`: CMD gets the word, then the command it selects is performed (30_encoding.md R46). -/
def execute (w : Word) (s : State) : Host.Outcome State Fault Refusal :=
  match decode w with
  | .error _ => .next (illegalWord (s.withCmd w))
  | .ok i => exec i (s.withCmd w)

/-- `HostWrite(off, v)`: an operand register gets the word, CMD performs a command, and every other offset ignores the write (20_memory.md R37). -/
def windowWrite (s : State) (off : Nat) (v : Word) : Host.Outcome State Fault Refusal :=
  match regAt off with
  | some (.opa i) => .next (s.withOpa i v)
  | some (.opb i) => .next (s.withOpb i v)
  | some (.res _) => .next s
  | some .cmd => execute v s
  | some .status => .next s
  | none => .next s

/-- Whether an address lies in the window, 0x80 bytes at BASE (20_memory.md R31). -/
def inWindow (c : Config) (addr : Nat) : Bool :=
  decide (c.base ≤ addr) && decide (addr < c.base + windowBytes)

/-- An access to the window at an absolute address: it must be naturally aligned and 32 bits wide, or the host is stuck (20_memory.md R32).
The order of the three tests is the model's (DESIGN CHOICE, log entry 7, safe: no one of them goes on). -/
def access (s : State) (addr : Nat) (width : AccessWidth)
    (perform : Nat → Host.Outcome State Fault Refusal) : Host.Outcome State Fault Refusal :=
  if inWindow s.cfg addr = false then .refused .outsideWindow
  else if width ≠ .word then .fault .accessWidth
  else if (addr - s.cfg.base) % 4 ≠ 0 then .fault .accessMisaligned
  else perform (addr - s.cfg.base)

/-- What one event does to the block (20_memory.md R37, 70_reset_and_hazards.md R154). -/
def performEvent (e : HostEvent) (s : State) : Host.Outcome State Fault Refusal :=
  match e with
  | .read addr width => access s addr width fun off => .next (s.withRead (windowRead s off))
  | .write addr width v => access s addr width fun off => windowWrite s off v
  | .reset => .next s.blockReset

/-- One step under a launch that keeps the contract: the oldest event is performed (20_memory.md R39).
With no event the block "is idle between commands and holds its registers" (60_exceptions.md R149). -/
def performNext (s : State) : Host.Outcome State Fault Refusal :=
  match s.pending with
  | [] => .next s
  | e :: rest => performEvent e (s.withPending rest)

/-- One step: a launch outside the contract is refused (20_memory.md R40, R41, 60_exceptions.md R153). -/
def stepOf (s : State) : Host.Outcome State Fault Refusal :=
  match s.cfg.launch with
  | .unsynchronisedHosts => .refused .unsynchronisedHosts
  | .unorderedAccesses => .refused .unorderedAccesses
  | .inContract => performNext s

/-- The host write that performs a command word: the word at CMD (10_state.md R18). -/
def commandWrite (c : Config) (w : Word) : HostEvent := .write (c.base + Reg.cmd.offset) .word w

/-- A state with a command word issued as the host's next access, under a launch that keeps the contract. -/
def State.withCommand (s : State) (w : Word) : State :=
  { s with
    pending := commandWrite s.cfg w :: s.pending
    cfg := { s.cfg with launch := .inContract } }

end Sys2Proof.Machine
end

