-- ==== Sys2Proof/Machine/Step.lean ====
section
/-! DEFINITION. The step of the block: one event of the platform (20_memory.md R38, R39). -/

namespace Sys2Proof.Machine

open Sys2Proof

/-- One step: the block performs the oldest pending event, atomically (20_memory.md R38, R39). -/
def step (s : State) : Host.Outcome State Fault Refusal := stepOf s

/-- The state whose very next step performs the command word `w`: the block fetches nothing (10_state.md R29), so the word stands as the host's next access, a write to CMD (DESIGN CHOICE, log entry 2, safe). -/
def State.withFetchWord (s : State) (nbits w : Nat) : State :=
  s.withCommand (BitVec.ofNat 32 (w % 2 ^ nbits))

end Sys2Proof.Machine
end

