-- ==== Sys2Proof/Machine/HostProgram.lean ====
section
/-! DEFINITION. The host's program notation (30_encoding.md R58 to R60): the host is an agent of its own, "not part of the block", and drives the block one access at a time through its step. -/

namespace Sys2Proof.Machine

open Sys2Proof

/-- What a host write sends: an immediate, or a host register (30_encoding.md R59, R60). -/
inductive HostSource where
  | imm (w : Word)
  | hreg (h : Nat)
  deriving DecidableEq, Repr

/-- A host instruction (30_encoding.md R59).
Host registers are numbered and a label is the index of the instruction it stands before. -/
inductive HostInstr where
  /-- `WR <reg>, <imm32>`, and the form `WR <reg>, t` of R60. -/
  | wr (r : Reg) (src : HostSource)
  /-- `RD <hreg>, <reg>`. -/
  | rd (h : Nat) (r : Reg)
  /-- `BNE <hreg>, <imm>, <label>`. -/
  | bne (h : Nat) (imm : Word) (label : Nat)
  /-- `B <label>`. -/
  | b (label : Nat)
  deriving DecidableEq, Repr

/-- A bare command mnemonic: "a `WR CMD` of that command word" (30_encoding.md R59). -/
def HostInstr.command (i : Instr) : HostInstr := .wr .cmd (.imm (encode i))

/-! Pseudo-instructions (30_encoding.md R60). -/

/-- The four writes of a quadruple to the registers `reg 0` to `reg 3`. -/
def loadQuad (reg : Fin 4 → Reg) (q : Quad) : List HostInstr :=
  [.wr (reg 0) (.imm q.w0), .wr (reg 1) (.imm q.w1), .wr (reg 2) (.imm q.w2),
   .wr (reg 3) (.imm q.w3)]

/-- `LDA (s, e, m)`. -/
def lda (d : Dec) : List HostInstr := loadQuad .opa (pack d)

/-- `LDB (s, e, m)`. -/
def ldb (d : Dec) : List HostInstr := loadQuad .opb (pack d)

/-- Four copies through the host register t, each a read of RES[i] and a write of `reg i`. -/
def moveResult (t : Nat) (reg : Fin 4 → Reg) : List HostInstr :=
  [.rd t (.res 0), .wr (reg 0) (.hreg t), .rd t (.res 1), .wr (reg 1) (.hreg t),
   .rd t (.res 2), .wr (reg 2) (.hreg t), .rd t (.res 3), .wr (reg 3) (.hreg t)]

/-- `MOVRA`. -/
def movra (t : Nat) : List HostInstr := moveResult t .opa

/-- `MOVRB`. -/
def movrb (t : Nat) : List HostInstr := moveResult t .opb

/-- `CHK <label>`. -/
def chk (t label : Nat) : List HostInstr := [.rd t .status, .bne t 0#32 label]

/-! The host and the block together. -/

/-- A host program in progress: the host's place in it, its registers, and the block. -/
structure HostRun where
  pc : Nat
  regs : List (Nat × Word)
  block : State
  deriving DecidableEq, Repr

/-- A host register; one that was never written holds 0 (DESIGN CHOICE, log entry 4, unsafe). -/
def HostRun.reg (h : HostRun) (n : Nat) : Word := (h.regs.lookup n).getD 0#32

/-- A host register written. -/
def HostRun.setReg (h : HostRun) (n : Nat) (w : Word) : HostRun :=
  { h with regs := (n, w) :: h.regs.filter fun p => p.1 != n }

/-- The word a source sends. -/
def HostRun.source (h : HostRun) : HostSource → Word
  | .imm w => w
  | .hreg n => h.reg n

/-- The host issues one access and the block performs it before the host goes on (20_memory.md R38). -/
def HostRun.issue (h : HostRun) (e : HostEvent) (k : State → HostRun) :
    Host.Outcome HostRun Fault Refusal :=
  match step (h.block.withPending (e :: h.block.pending)) with
  | .next s => .next (k s)
  | .fault f => .fault f
  | .refused r => .refused r

/-- The address of a register in the host's address space (20_memory.md R31). -/
def HostRun.addr (h : HostRun) (r : Reg) : Nat := h.block.cfg.base + r.offset

/-- One host instruction; past the end of the program the run has ended and nothing changes (70_reset_and_hazards.md R157). -/
def hostStep (program : List HostInstr) (h : HostRun) : Host.Outcome HostRun Fault Refusal :=
  match program[h.pc]? with
  | none => .next h
  | some (.wr r src) =>
    h.issue (.write (h.addr r) .word (h.source src)) fun s => { h with pc := h.pc + 1, block := s }
  | some (.rd n r) =>
    h.issue (.read (h.addr r) .word) fun s =>
      { h.setReg n (s.reads.headD 0#32) with pc := h.pc + 1, block := s }
  | some (.bne n imm label) => .next { h with pc := if h.reg n ≠ imm then label else h.pc + 1 }
  | some (.b label) => .next { h with pc := label }

/-- A number of host instructions, one after another; it ends early where the host is stuck or refused. -/
def hostSteps (program : List HostInstr) : Nat → HostRun → Host.Outcome HostRun Fault Refusal
  | 0, h => .next h
  | n + 1, h =>
    match hostStep program h with
    | .next h' => hostSteps program n h'
    | .fault f => .fault f
    | .refused r => .refused r

end Sys2Proof.Machine
end

