-- ==== Sys2Proof/Machine/Value.lean ====
section
/-! DEFINITION. The exact rational values that claims compare (00_scope.md R12, 47_convert.md R127): the machine computes on integers, and these say what its words stand for. -/

namespace Sys2Proof.Machine

open Sys2Proof

/-- `val(s, e, m) = (-1)^s · m / 10^e` (00_scope.md R12). -/
def Dec.val (d : Dec) : ℚ := (if d.sign then -(d.mant : ℚ) else (d.mant : ℚ)) / 10 ^ d.scale

/-- `|fval(x)|` as a rational (47_convert.md R127). -/
def FloatFormat.absValue (F : FloatFormat) (x : Nat) : ℚ :=
  ((F.magnitude x).1 : ℚ) / ((F.magnitude x).2 : ℚ)

/-- A pattern of a finite nonnegative value: sign bit 0 and not special (47_convert.md R127). -/
def FloatFormat.finitePattern (F : FloatFormat) (x : Nat) : Prop :=
  x < 2 ^ (F.fracBits + F.expBits) ∧ F.isSpecial x = false

/-- `x` is the pattern nearest to the rational q ≥ 0, ties to even significand (47_convert.md R127, RNE64 and RNE32). -/
def FloatFormat.nearestEven (F : FloatFormat) (q : ℚ) (x : Nat) : Prop :=
  F.finitePattern x ∧
    ∀ y, F.finitePattern y →
      |F.absValue x - q| ≤ |F.absValue y - q| ∧
        (|F.absValue x - q| = |F.absValue y - q| → y = x ∨ x % 2 = 0)

/-- `m` is the integer nearest to the rational q, a tie to the even one (40_primitives.md R61). -/
def nearestEvenInt (q : ℚ) (m : Nat) : Prop :=
  |(m : ℚ) - q| ≤ 1 / 2 ∧ (|(m : ℚ) - q| = 1 / 2 → m % 2 = 0)

/-- The triple has no trailing decimal zero that its scale could drop (40_primitives.md R62). -/
def Dec.stripped (d : Dec) : Prop := d.scale = 0 ∨ d.mant % 10 ≠ 0

end Sys2Proof.Machine
end

