-- ==== Sys2Proof/Safety.lean ====
section
/-! DEFINITION. What counts as a safe run (60_exceptions.md R152, R153, 70_reset_and_hazards.md R157), and which errors each command may report (60_exceptions.md R139). -/

namespace Sys2Proof.Machine

open Sys2Proof

/-- An access the block performs: a naturally aligned 32-bit access to the window (20_memory.md R32, 60_exceptions.md R152). -/
def accessAllowed (c : Config) (addr : Nat) (width : AccessWidth) : Bool :=
  inWindow c addr && width == .word && (addr - c.base) % 4 == 0

/-- An event the block performs (60_exceptions.md R152). -/
def HostEvent.allowed (c : Config) : HostEvent → Bool
  | .read addr width => accessAllowed c addr width
  | .write addr width _ => accessAllowed c addr width
  | .reset => true

/-- STATUS.ERR holds one of the codes 0 to 4: "5, 6, 7 never produced" (10_state.md R19). -/
def State.errLegal (s : State) : Prop := s.err.toNat ≤ 4

/-- The invariant of a well-formed run: the launch keeps the contract, no access ahead is one the block refuses (70_reset_and_hazards.md R157), and ERR holds a legal code. -/
structure State.Safe (s : State) : Prop where
  launch : s.cfg.launch = .inContract
  events : ∀ e ∈ s.pending, e.allowed s.cfg = true
  err : s.errLegal

/-- The errors a command may report, ILLEGAL_COMMAND apart (60_exceptions.md R139). -/
def errorsOf : Instr → List ErrKind
  | .ldw => [.invalidRepresentation]
  | .mkparts => [.invalidRepresentation]
  | .fromi32 => []
  | .fromu32 => []
  | .fromi64 => []
  | .fromu64 => []
  | .add => [.invalidRepresentation, .overflow]
  | .sub => [.invalidRepresentation, .overflow]
  | .mul => [.invalidRepresentation, .overflow]
  | .div => [.invalidRepresentation, .divideByZero, .overflow]
  | .rem => [.invalidRepresentation, .divideByZero]
  | .round _ _ => [.invalidRepresentation]
  | .cmp => [.invalidRepresentation]
  | .norm => [.invalidRepresentation]
  | .tof64 => [.invalidRepresentation]
  | .tof32 => [.invalidRepresentation]
  | .fromf64 => [.overflow]
  | .fromf32 => [.overflow]
  | .fromcy => []
  | .tocy => [.invalidRepresentation, .overflow]
  | .mul96x32 => []
  | .mul96x64 => []
  | .mul96x96 => []
  | .div96x32 => [.divideByZero]
  | .div96x64 => [.divideByZero]
  | .div128x96 => [.divideByZero]
  | .lzc32 => []
  | .lzc96 => []
  | .pow10mul _ => []
  | .scaleres _ => [.overflow]

/-- The commands that read OPA as a decimal (30_encoding.md R52). -/
def readsDecimalOpa : Instr → Bool
  | .ldw | .add | .sub | .mul | .div | .rem | .round _ _ | .cmp | .norm | .tof64 | .tof32
  | .tocy => true
  | .mkparts | .fromi32 | .fromu32 | .fromi64 | .fromu64 | .fromf64 | .fromf32 | .fromcy
  | .mul96x32 | .mul96x64 | .mul96x96 | .div96x32 | .div96x64 | .div128x96 | .lzc32 | .lzc96
  | .pow10mul _ | .scaleres _ => false

/-- The commands that read OPB as a decimal as well (30_encoding.md R52). -/
def readsDecimalOpb : Instr → Bool
  | .add | .sub | .mul | .div | .rem | .cmp => true
  | .ldw | .round _ _ | .norm | .tof64 | .tof32 | .tocy | .mkparts | .fromi32 | .fromu32
  | .fromi64 | .fromu64 | .fromf64 | .fromf32 | .fromcy | .mul96x32 | .mul96x64 | .mul96x96
  | .div96x32 | .div96x64 | .div128x96 | .lzc32 | .lzc96 | .pow10mul _ | .scaleres _ => false

/-- The commands that read no word of OPB (30_encoding.md R54). -/
def readsOpaAlone : Instr → Bool
  | .ldw | .fromi32 | .fromu32 | .fromi64 | .fromu64 | .round _ _ | .norm | .tof64 | .tof32
  | .fromf64 | .fromf32 | .fromcy | .tocy | .lzc32 | .lzc96 | .pow10mul _ => true
  | .mkparts | .add | .sub | .mul | .div | .rem | .cmp | .mul96x32 | .mul96x64 | .mul96x96
  | .div96x32 | .div96x64 | .div128x96 | .scaleres _ => false

/-- The commands whose result is a decimal in RES[0..3] (30_encoding.md R54). -/
def givesDecimal : Instr → Bool
  | .ldw | .mkparts | .fromi32 | .fromu32 | .fromi64 | .fromu64 | .add | .sub | .mul | .div
  | .rem | .round _ _ | .norm | .fromf64 | .fromf32 | .fromcy | .scaleres _ => true
  | .cmp | .tof64 | .tof32 | .tocy | .mul96x32 | .mul96x64 | .mul96x96 | .div96x32 | .div96x64
  | .div128x96 | .lzc32 | .lzc96 | .pow10mul _ => false

/-- RES[0..3] as a quadruple. -/
def Octo.low (r : Octo) : Quad := { w0 := r.w0, w1 := r.w1, w2 := r.w2, w3 := r.w3 }

/-- RES[4..7] as a quadruple. -/
def Octo.high (r : Octo) : Quad := { w0 := r.w4, w1 := r.w5, w2 := r.w6, w3 := r.w7 }

end Sys2Proof.Machine
end

