-- ==== Sys2Proof/Certificates/Slice0/Obligations.lean ====
section
/-! DEFINITION. The statements for the provers: what the commands and the block do, from the numbered rules of spec/. -/

open Sys2Proof Sys2Proof.Machine

/-! ## The command word -/

/-- Decoding the assembled word of any command gives the command back, at every MODE and K its encoding admits (30_encoding.md R47, R48, R49, R58). -/
def Obligations.DecodeOfEncodeGivesTheCommand : Prop :=
  ∀ i : Instr, i.wf = true → decode (encode i) = .ok i

/-- The other direction: a word has one meaning, and is the assembled word of it (30_encoding.md R44, R49, R58). -/
def Obligations.DecodedWordIsTheEncodingOfItsCommand : Prop :=
  ∀ (w : Word) (i : Instr), decode w = .ok i → i.wf = true ∧ encode i = w

/-- 30_encoding.md R49: a word selects a command exactly when its OPC is the command's and conditions (a), (b) and (c) hold; and, as a mask and match, exactly when it is selected by a row of the opcode table.
No two rows select one word. -/
def Obligations.DecodeFollowsTheFieldsAndTheTable : Prop :=
  (∀ (w : Word) (i : Instr), decode w = .ok i ↔
    w.extractLsb' 11 5 = 0#5 ∧ w.extractLsb' 22 10 = 0#10 ∧
      (w.extractLsb' 0 8).toNat = i.opc ∧
      (match i with
        | .round m k => (w.extractLsb' 8 3).toNat = m.code ∧ (w.extractLsb' 16 6).toNat = k ∧ k ≤ 28
        | .pow10mul k => w.extractLsb' 8 3 = 0#3 ∧ (w.extractLsb' 16 6).toNat = k ∧ k ≤ 28
        | .scaleres k => w.extractLsb' 8 3 = 0#3 ∧ (w.extractLsb' 16 6).toNat = k ∧ k ≤ 56
        | _ => w.extractLsb' 8 3 = 0#3 ∧ w.extractLsb' 16 6 = 0#6)) ∧
    (∀ w : Word, (∃ i, decode w = .ok i) ↔ ∃ row ∈ opcodeRows, row.selects w = true) ∧
    ∀ (w : Word) (r r' : OpcodeRow), r ∈ opcodeRows → r' ∈ opcodeRows →
      r.selects w = true → r'.selects w = true → r = r'

/-- The word of every command, written out from its OPC, and of ROUND in each of the five modes, decodes to the command it stands for (30_encoding.md R48, R58; 45_round.md R116, R120; 40_primitives.md R81).
No number in it is taken from the model's own tables. -/
def Obligations.WordsOfTheSpecDecode : Prop :=
  decode 0x00000001#32 = .ok .ldw ∧ decode 0x00000002#32 = .ok .mkparts ∧
    decode 0x00000003#32 = .ok .fromi32 ∧ decode 0x00000004#32 = .ok .fromu32 ∧
    decode 0x00000005#32 = .ok .fromi64 ∧ decode 0x00000006#32 = .ok .fromu64 ∧
    decode 0x00000010#32 = .ok .add ∧ decode 0x00000011#32 = .ok .sub ∧
    decode 0x00000012#32 = .ok .mul ∧ decode 0x00000013#32 = .ok .div ∧
    decode 0x00000014#32 = .ok .rem ∧ decode 0x00020018#32 = .ok (.round .rne 2) ∧
    decode 0x00020118#32 = .ok (.round .away 2) ∧ decode 0x00000218#32 = .ok (.round .trunc 0) ∧
    decode 0x00020318#32 = .ok (.round .floor 2) ∧ decode 0x00020418#32 = .ok (.round .ceil 2) ∧
    decode 0x00000019#32 = .ok .cmp ∧ decode 0x0000001A#32 = .ok .norm ∧
    decode 0x00000020#32 = .ok .tof64 ∧ decode 0x00000021#32 = .ok .tof32 ∧
    decode 0x00000022#32 = .ok .fromf64 ∧ decode 0x00000023#32 = .ok .fromf32 ∧
    decode 0x00000024#32 = .ok .fromcy ∧ decode 0x00000025#32 = .ok .tocy ∧
    decode 0x00000030#32 = .ok .mul96x32 ∧ decode 0x00000031#32 = .ok .mul96x64 ∧
    decode 0x00000032#32 = .ok .mul96x96 ∧ decode 0x00000034#32 = .ok .div96x32 ∧
    decode 0x00000035#32 = .ok .div96x64 ∧ decode 0x00000036#32 = .ok .div128x96 ∧
    decode 0x00000038#32 = .ok .lzc32 ∧ decode 0x00000039#32 = .ok .lzc96 ∧
    decode 0x001C003A#32 = .ok (.pow10mul 28) ∧ decode 0x0028003B#32 = .ok (.scaleres 40)

/-! ## The window and the step -/

/-- 30_encoding.md R46: the host's write of a word that decodes to a command performs that command, with CMD holding the word.
The same is said of the word withFetchWord issues; that events wait in `pending` is the model's choice (log entry 2). -/
def Obligations.StepRunsTheDecodedCommand : Prop :=
  ∀ (s : State) (rest : List HostEvent) (w : Word) (i : Instr),
    decode w = .ok i →
    (s.cfg.launch = .inContract → s.pending = .write (s.cfg.base + 0x40) .word w :: rest →
      step s = exec i { s with cmd := w, pending := rest }) ∧
    step (s.withFetchWord 32 w.toNat) =
      exec i { s with cmd := w, cfg := { s.cfg with launch := .inContract } }

/-- 30_encoding.md R50 and R51: each kind of ILLEGAL word makes the block write STATUS.ERR = 4 and change no RES word. -/
def Obligations.IllegalWordsReportFourAndChangeNoResult : Prop :=
  ∀ (s : State) (rest : List HostEvent) (w : Word),
    s.cfg.launch = .inContract → s.pending = .write (s.cfg.base + 0x40) .word w :: rest →
    (let opc := (w.extractLsb' 0 8).toNat
     let mode := (w.extractLsb' 8 3).toNat
     let k := (w.extractLsb' 16 6).toNat
     (opc = 0x00 ∨ (0x07 ≤ opc ∧ opc ≤ 0x0F) ∨ (0x15 ≤ opc ∧ opc ≤ 0x17) ∨
        (0x1B ≤ opc ∧ opc ≤ 0x1F) ∨ (0x26 ≤ opc ∧ opc ≤ 0x2F) ∨ opc = 0x33 ∨ opc = 0x37 ∨
        0x3C ≤ opc) ∨
      w.extractLsb' 11 5 ≠ 0#5 ∨ w.extractLsb' 22 10 ≠ 0#10 ∨
      (mode ≠ 0 ∧ opc ≠ 0x18) ∨ (k ≠ 0 ∧ opc ≠ 0x18 ∧ opc ≠ 0x3A ∧ opc ≠ 0x3B) ∨
      (opc = 0x18 ∧ 4 < mode) ∨ (opc = 0x18 ∧ 28 < k) ∨ (opc = 0x3A ∧ 28 < k) ∨
      (opc = 0x3B ∧ 56 < k)) →
    step s = .next { s with cmd := w, pending := rest, err := 4#3 }

/-- 20_memory.md R31, R34, R37: an aligned 32-bit read returns the register at its offset, or 0 from 0x48 to 0x7C, and changes nothing else.
Bits 31:3 of STATUS read as 0 (10_state.md R19). -/
def Obligations.HostReadsReturnTheRegisterAtTheOffset : Prop :=
  ∀ (s : State) (rest : List HostEvent) (off : Nat),
    s.cfg.launch = .inContract → off < 0x80 → off % 4 = 0 →
    s.pending = .read (s.cfg.base + off) .word :: rest →
    step s = .next { s with
      pending := rest
      reads := (s.opa.words ++ s.opb.words ++ s.res.words ++ [s.cmd, s.err.zeroExtend 32]).getD
        (off / 4) 0#32 :: s.reads }

/-- 20_memory.md R37: a write to OPA[i] or OPB[i] changes that register alone; a write to RES, STATUS or an offset with no register changes nothing (10_state.md R17, 20_memory.md R34). -/
def Obligations.HostWritesChangeOneOperandRegisterOrNothing : Prop :=
  ∀ (s : State) (rest : List HostEvent) (off : Nat) (v : Word),
    s.cfg.launch = .inContract → off < 0x80 → off % 4 = 0 →
    s.pending = .write (s.cfg.base + off) .word v :: rest →
    (off < 0x20 → ∃ a b : Quad,
      step s = .next { s with opa := a, opb := b, pending := rest } ∧
        a.words ++ b.words = (s.opa.words ++ s.opb.words).set (off / 4) v) ∧
    (0x20 ≤ off → off ≠ 0x40 → step s = .next { s with pending := rest })

/-- 20_memory.md R32: an access to the window that is not 32 bits wide, or not at a multiple of 4, has no step: the host is stuck.
The names of the two stops, and the width being tested before the alignment, are the model's choice (log entry 7). -/
def Obligations.OtherAccessesAreStuck : Prop :=
  ∀ (s : State) (rest : List HostEvent) (off : Nat) (width : AccessWidth) (v : Word),
    s.cfg.launch = .inContract → off < 0x80 →
    (s.pending = .read (s.cfg.base + off) width :: rest ∨
      s.pending = .write (s.cfg.base + off) width v :: rest) →
    (width ≠ .word → step s = .fault .accessWidth) ∧
      (width = .word → off % 4 ≠ 0 → step s = .fault .accessMisaligned)

/-- 20_memory.md R40, R41 and 60_exceptions.md R153: a launch with unsynchronised hosts, or with accesses that may be reordered, is refused.
That both are fields of the model's Config is its own choice (log entry 3). -/
def Obligations.LaunchesOutsideTheContractAreRefused : Prop :=
  ∀ s : State,
    (s.cfg.launch = .unsynchronisedHosts → step s = .refused .unsynchronisedHosts) ∧
      (s.cfg.launch = .unorderedAccesses → step s = .refused .unorderedAccesses) ∧
      ∀ t, step s = .next t → s.cfg.launch = .inContract

/-- 70_reset_and_hazards.md R154: the reset event gives every register its reset value and performs no command; accesses issued after it are not lost.
That `pending`, `reads` and the parameters are fields that it keeps is the model's choice (log entries 1 and 2). -/
def Obligations.ResetEventClearsEveryRegister : Prop :=
  ∀ (s : State) (rest : List HostEvent),
    s.cfg.launch = .inContract → s.pending = .reset :: rest →
    ∃ t, step s = .next t ∧ (∀ off, off < 0x80 → windowRead t off = 0#32) ∧
      t = { State.reset with pending := rest, reads := s.reads, cfg := s.cfg }

/-- 10_state.md R30: after reset every register reads 0, OPA and OPB hold the valid quadruple of positive zero at scale 0, and the invariant of a well-formed run holds.
The empty `pending` and the parameters at reset are the model's choice (log entries 1 to 3). -/
def Obligations.ResetStateIsZeroAndSafe : Prop :=
  (∀ off, off < 0x80 → windowRead State.reset off = 0#32) ∧
    State.reset.opa.valid = true ∧ State.reset.opb.valid = true ∧
    State.reset.opa.dec = ⟨false, 0, 0⟩ ∧ State.reset.opb.dec = ⟨false, 0, 0⟩ ∧
    State.reset.Safe

/-- Only the host writes OPA, OPB and CMD, only a command or a reset writes RES and STATUS, and with no event pending nothing changes (10_state.md R15 to R18, 60_exceptions.md R149, R152).
Over every event: which register changes says which event was performed.
That no step changes the parameters or the launch, and that a step takes the oldest event off `pending`, are the model's choice (log entries 1 to 3). -/
def Obligations.RegistersChangeOnlyByTheirOwnEvents : Prop :=
  ∀ s t : State, step s = .next t →
    (t.opa ≠ s.opa → ∃ off v rest, off < 0x10 ∧
      (s.pending = .write (s.cfg.base + off) .word v :: rest ∨ s.pending = .reset :: rest)) ∧
    (t.opb ≠ s.opb → ∃ off v rest, 0x10 ≤ off ∧ off < 0x20 ∧
      (s.pending = .write (s.cfg.base + off) .word v :: rest ∨ s.pending = .reset :: rest)) ∧
    (t.cmd ≠ s.cmd ∨ t.res ≠ s.res ∨ t.err ≠ s.err → ∃ v rest,
      s.pending = .write (s.cfg.base + 0x40) .word v :: rest ∨ s.pending = .reset :: rest) ∧
    (t.reads ≠ s.reads → ∃ addr rest, s.pending = .read addr .word :: rest) ∧
    t.cfg = s.cfg ∧ t.pending = s.pending.tail

/-- The invariant of a well-formed run is kept by every step, and every step of such a run is taken: no input makes the block hang (60_exceptions.md R153, 70_reset_and_hazards.md R157, R160, 10_state.md R19).
The launch and the events as fields of the state are the model's choice (log entries 2 and 3). -/
def Obligations.SafeRunsNeverStopAndStaySafe : Prop :=
  ∀ s : State, s.Safe → ∃ t, step s = .next t ∧ t.Safe

/-! ## What holds of every command -/

/-- THE FRAME OF EVERY COMMAND, all thirty: a success changes RES and ERR alone, an error changes ERR alone (60_exceptions.md R145, 30_encoding.md R46).
So every other word of the window reads as before. -/
def Obligations.CommandsChangeResultAndStatusAlone : Prop :=
  ∀ (i : Instr) (s t : State), exec i s = .next t →
    (t.err = 0#3 → t = { s with res := t.res, err := 0#3 }) ∧
      (t.err ≠ 0#3 → t = { s with err := t.err }) ∧
      ∀ off, off < 0x20 ∨ (0x40 ≤ off ∧ off ≠ 0x44) → windowRead t off = windowRead s off

/-- 70_reset_and_hazards.md R160: every command ends, for every input, and reports one of the codes 0 to 3 (10_state.md R19, R20; 60_exceptions.md R139). -/
def Obligations.EveryCommandEnds : Prop :=
  ∀ (i : Instr) (s : State), ∃ t, exec i s = .next t ∧ t.err.toNat ≤ 3

/-- 30_encoding.md R57: one command word and one set of OPA, OPB and DIV_NORMALIZE values give the same ERR and, on success, the same RES, whatever else the states hold.
A failure leaves each state's own RES (60_exceptions.md R145). -/
def Obligations.OutcomeDependsOnTheOperandsAlone : Prop :=
  ∀ (i : Instr) (s s' t t' : State),
    s.opa = s'.opa → s.opb = s'.opb → s.cfg.divNormalize = s'.cfg.divNormalize →
    exec i s = .next t → exec i s' = .next t' →
    t.err = t'.err ∧ (t.err = 0#3 → t.res = t'.res)

/-- 10_state.md R16, 30_encoding.md R53, R54: a command that takes no operand from OPB gives the same outcome whatever OPB holds, and DIV alone depends on DIV_NORMALIZE (00_scope.md R7). -/
def Obligations.UnreadOperandsDoNotMatter : Prop :=
  ∀ (i : Instr) (s t t' : State) (q : Quad) (b : Bool), exec i s = .next t →
    (readsOpaAlone i = true → exec i { s with opb := q } = .next t' →
      t'.err = t.err ∧ t'.res = t.res) ∧
    (i ≠ .div → exec i { s with cfg := { s.cfg with divNormalize := b } } = .next t' →
      t'.err = t.err ∧ t'.res = t.res)

/-- 60_exceptions.md R139: a command reports only the errors its row of the table lists. -/
def Obligations.CommandsReportOnlyTheirOwnErrors : Prop :=
  ∀ (i : Instr) (s t : State), exec i s = .next t →
    t.err = 0#3 ∨ ∃ e ∈ errorsOf i, t.err = e.code

/-- 10_state.md R24, 30_encoding.md R56: RES[0..3] holds a valid quadruple after every decimal command that succeeds, and RES[4..7] hold 0. -/
def Obligations.DecimalResultsAreValid : Prop :=
  ∀ (i : Instr) (s t : State), i.wf = true → givesDecimal i = true → exec i s = .next t →
    t.err = 0#3 → t.res.low.valid = true ∧ t.res.high = Quad.zero

/-- 30_encoding.md R52, 10_state.md R22, 60_exceptions.md R141, R143: a command that reads a decimal reports code 3 when its flags word has a reserved bit set or a scale above 28, before anything else about the values; OPB is checked by the commands that read it. -/
def Obligations.InvalidOperandsReportThree : Prop :=
  ∀ (i : Instr) (s : State),
    (readsDecimalOpa i = true →
      (s.opa.w3 &&& 0x7F00FFFF#32 ≠ 0#32 ∨ 28 < (s.opa.w3.extractLsb' 16 8).toNat) →
      exec i s = .next { s with err := 3#3 }) ∧
    (readsDecimalOpb i = true →
      (s.opb.w3 &&& 0x7F00FFFF#32 ≠ 0#32 ∨ 28 < (s.opb.w3.extractLsb' 16 8).toNat) →
      exec i s = .next { s with err := 3#3 })

/-- 60_exceptions.md R140: a zero divisor reports code 2, whatever its scale and sign and whatever the dividend: DIV and REM of valid operands, and the divider primitives on any words. -/
def Obligations.ZeroDivisorsReportTwo : Prop :=
  ∀ s : State,
    (s.opa.valid = true → s.opb.valid = true → s.opb.w0 = 0#32 → s.opb.w1 = 0#32 →
      s.opb.w2 = 0#32 →
      exec .div s = .next { s with err := 2#3 } ∧ exec .rem s = .next { s with err := 2#3 }) ∧
    (s.opb.w0 = 0#32 → exec .div96x32 s = .next { s with err := 2#3 }) ∧
    (s.opb.w0 = 0#32 → s.opb.w1 = 0#32 → exec .div96x64 s = .next { s with err := 2#3 }) ∧
    (s.opb.w0 = 0#32 → s.opb.w1 = 0#32 → s.opb.w2 = 0#32 →
      exec .div128x96 s = .next { s with err := 2#3 })

/-! ## The decimal layout and construction -/

/-- 10_state.md R21, R24: the decimal view and Pack undo each other, on valid quadruples and on triples that fit, and the mantissa is `{hi, mid, lo}`. -/
def Obligations.PackAndDecimalViewAreInverse : Prop :=
  (∀ q : Quad, q.valid = true → pack q.dec = q) ∧
    (∀ d : Dec, d.scale ≤ 28 → d.mant ≤ 79228162514264337593543950335 →
      (pack d).valid = true ∧ (pack d).dec = d) ∧
    ∀ q : Quad, q.dec.mant = (q.w2 ++ q.w1 ++ q.w0).toNat

/-- 20_memory.md R36: the byte image of a quadruple, read as a little-endian number, is its 128-bit value. -/
def Obligations.ByteImageIsLittleEndian : Prop :=
  ∀ q : Quad,
    q.byteImage.length = 16 ∧
      q.byteImage.foldr (fun b n => b.toNat + 256 * n) 0 = (q.w3 ++ q.w2 ++ q.w1 ++ q.w0).toNat

/-- 41_construct.md R83: LDW copies a valid quadruple bit for bit and reports code 3 for an invalid one. -/
def Obligations.LdwCopiesValidWords : Prop :=
  decode 0x00000001#32 = .ok .ldw ∧
  ∀ s : State,
    (s.opa.w3 &&& 0x7F00FFFF#32 = 0#32 → (s.opa.w3.extractLsb' 16 8).toNat ≤ 28 →
      exec .ldw s = .next { s with
        res := ⟨s.opa.w0, s.opa.w1, s.opa.w2, s.opa.w3, 0#32, 0#32, 0#32, 0#32⟩, err := 0#3 }) ∧
    ((s.opa.w3 &&& 0x7F00FFFF#32 ≠ 0#32 ∨ 28 < (s.opa.w3.extractLsb' 16 8).toNat) →
      exec .ldw s = .next { s with err := 3#3 })

/-- 41_construct.md R84: MKPARTS takes the mantissa from OPA[0..2], the sign from OPB[0] and the scale from all of OPB[1]. -/
def Obligations.MkpartsBuildsFromParts : Prop :=
  decode 0x00000002#32 = .ok .mkparts ∧
  ∀ s : State,
    (s.opb.w1.toNat ≤ 28 →
      exec .mkparts s = .next { s with
        res := ⟨s.opa.w0, s.opa.w1, s.opa.w2,
          (if s.opb.w0 = 0#32 then 0#32 else 0x80000000#32) ||| s.opb.w1 <<< 16,
          0#32, 0#32, 0#32, 0#32⟩, err := 0#3 }) ∧
    (28 < s.opb.w1.toNat → exec .mkparts s = .next { s with err := 3#3 })

/-- 41_construct.md R85 to R88: the four integer constructions never fail, at scale 0, with the absolute value of a signed integer and its sign in bit 31 of the flags word. -/
def Obligations.IntegerConstructionsNeverFail : Prop :=
  decode 0x00000003#32 = .ok .fromi32 ∧ decode 0x00000004#32 = .ok .fromu32 ∧
    decode 0x00000005#32 = .ok .fromi64 ∧ decode 0x00000006#32 = .ok .fromu64 ∧
  ∀ s : State,
    exec .fromu32 s = .next { s with
      res := ⟨s.opa.w0, 0#32, 0#32, 0#32, 0#32, 0#32, 0#32, 0#32⟩, err := 0#3 } ∧
    exec .fromu64 s = .next { s with
      res := ⟨s.opa.w0, s.opa.w1, 0#32, 0#32, 0#32, 0#32, 0#32, 0#32⟩, err := 0#3 } ∧
    exec .fromi32 s = .next { s with
      res := (if s.opa.w0.msb then ⟨-s.opa.w0, 0#32, 0#32, 0x80000000#32, 0#32, 0#32, 0#32, 0#32⟩
        else ⟨s.opa.w0, 0#32, 0#32, 0#32, 0#32, 0#32, 0#32, 0#32⟩), err := 0#3 } ∧
    exec .fromi64 s = .next { s with
      res := (if s.opa.w1.msb then
          ⟨(-(s.opa.w1 ++ s.opa.w0)).extractLsb' 0 32, (-(s.opa.w1 ++ s.opa.w0)).extractLsb' 32 32,
            0#32, 0x80000000#32, 0#32, 0#32, 0#32, 0#32⟩
        else ⟨s.opa.w0, s.opa.w1, 0#32, 0#32, 0#32, 0#32, 0#32, 0#32⟩), err := 0#3 }

/-! ## Addition, subtraction, multiplication -/

/-- 42_addsub.md R94, R97: a zero operand gives the other operand bit for bit, with its sign flipped for the second operand of SUB; when both are zero the result is the first. -/
def Obligations.AddingZeroReturnsTheOtherOperand : Prop :=
  ∀ s : State, s.opa.valid = true → s.opb.valid = true →
    (s.opb.dec.mant = 0 →
      exec .add s = .next { s with
        res := ⟨s.opa.w0, s.opa.w1, s.opa.w2, s.opa.w3, 0#32, 0#32, 0#32, 0#32⟩, err := 0#3 } ∧
      exec .sub s = .next { s with
        res := ⟨s.opa.w0, s.opa.w1, s.opa.w2, s.opa.w3, 0#32, 0#32, 0#32, 0#32⟩, err := 0#3 }) ∧
    (s.opa.dec.mant = 0 → s.opb.dec.mant ≠ 0 →
      exec .add s = .next { s with
        res := ⟨s.opb.w0, s.opb.w1, s.opb.w2, s.opb.w3, 0#32, 0#32, 0#32, 0#32⟩, err := 0#3 } ∧
      exec .sub s = .next { s with
        res := ⟨s.opb.w0, s.opb.w1, s.opb.w2, s.opb.w3 ^^^ 0x80000000#32, 0#32, 0#32, 0#32, 0#32⟩,
        err := 0#3 })

/-- 42_addsub.md R90, R93, R97 with 40_primitives.md R63: the exact signed sum at the larger scale, rounded once by the least reduction that fits.
An exact cancellation keeps the first operand's sign. -/
def Obligations.SumsAreExactAndRoundedOnce : Prop :=
  ∀ (s : State) (i : Instr) (B : Dec) (k : Nat),
    (i = .add ∧ B = s.opb.dec ∨ i = .sub ∧ B = { s.opb.dec with sign := !s.opb.dec.sign }) →
    s.opa.valid = true → s.opb.valid = true → s.opa.dec.mant ≠ 0 → B.mant ≠ 0 →
    (let A := s.opa.dec
     let e := max A.scale B.scale
     let x : Int := (if A.sign then -1 else 1) * (A.mant * 10 ^ (e - A.scale) : Nat) +
       (if B.sign then -1 else 1) * (B.mant * 10 ^ (e - B.scale) : Nat)
     k ≤ e → rne x.natAbs (10 ^ k) ≤ MMAX → (∀ j, j < k → MMAX < rne x.natAbs (10 ^ j)) →
     exec i s = .next { s with
       res := decResult ⟨if x = 0 then A.sign else decide (x < 0), e - k, rne x.natAbs (10 ^ k)⟩
       err := 0#3 })

/-- 42_addsub.md R95: ADD and SUB overflow exactly when the exact sum's magnitude, rounded to an integer by RNE, exceeds MMAX, and then the operands have the same effective sign. -/
def Obligations.SumsOverflowExactlyAboveTheLargestMantissa : Prop :=
  ∀ (s : State) (i : Instr) (B : Dec),
    (i = .add ∧ B = s.opb.dec ∨ i = .sub ∧ B = { s.opb.dec with sign := !s.opb.dec.sign }) →
    s.opa.valid = true → s.opb.valid = true →
    (let A := s.opa.dec
     let e := max A.scale B.scale
     let x : Int := (if A.sign then -1 else 1) * (A.mant * 10 ^ (e - A.scale) : Nat) +
       (if B.sign then -1 else 1) * (B.mant * 10 ^ (e - B.scale) : Nat)
     (exec i s = .next { s with err := 1#3 } ↔ MMAX < rne x.natAbs (10 ^ e)) ∧
       (exec i s = .next { s with err := 1#3 } → A.sign = B.sign))

/-- 43_mul.md R99, R101 with 40_primitives.md R63: the exact product at the sum of the scales, reduced once by the least reduction from `max(0, e - 28)` that fits; every zero result is positive; Overflow when none fits. -/
def Obligations.ProductsAreExactAndRoundedOnce : Prop :=
  ∀ (s : State) (k : Nat), s.opa.valid = true → s.opb.valid = true →
    (let A := s.opa.dec
     let B := s.opb.dec
     let X := A.mant * B.mant
     let e := A.scale + B.scale
     (e - 28 ≤ k → k ≤ e → rne X (10 ^ k) ≤ MMAX →
       (∀ j, e - 28 ≤ j → j < k → MMAX < rne X (10 ^ j)) →
       exec .mul s = .next { s with
         res := decResult
           ⟨if rne X (10 ^ k) = 0 then false else xor A.sign B.sign, e - k, rne X (10 ^ k)⟩
         err := 0#3 }) ∧
     (MMAX < rne X (10 ^ e) → exec .mul s = .next { s with err := 1#3 }))

/-- 42_addsub.md R98 (a), 43_mul.md R102 (a): exchanging the operands changes nothing of MUL's outcome, and nothing of ADD's when the sum is not zero. -/
def Obligations.AddAndMulCommute : Prop :=
  ∀ s t t' : State, s.opa.valid = true → s.opb.valid = true →
    (exec .mul s = .next t → exec .mul { s with opa := s.opb, opb := s.opa } = .next t' →
      t'.err = t.err ∧ t'.res = t.res) ∧
    (s.opa.dec.val + s.opb.dec.val ≠ 0 → exec .add s = .next t →
      exec .add { s with opa := s.opb, opb := s.opa } = .next t' →
      t'.err = t.err ∧ t'.res = t.res)

/-! ## Division and modulo -/

/-- 44_divmod.md R108: with DIV_NORMALIZE true the loop of R103 gives the closed form, the quotient rounded to nearest even at the largest scale of at most 28 at which it fits, stripped unless it is exact at the natural scale. -/
def Obligations.DivisionEqualsItsClosedForm : Prop :=
  ∀ s : State, s.opa.valid = true → s.opb.valid = true → s.opb.dec.mant ≠ 0 →
    s.cfg.divNormalize = true →
    exec .div s = match divClosedForm s.opa.dec s.opb.dec with
      | .ok d => .next { s with res := decResult d, err := 0#3 }
      | .error _ => .next { s with err := 1#3 }

/-- 44_divmod.md R106: under either DIV_NORMALIZE, DIV overflows exactly when the quotient rounded to an integer exceeds MMAX; otherwise it completes, within half a unit of its result's scale.
A zero quotient is positive (R109).
With DIV_NORMALIZE false the scale and the mantissa are those at which the loop of R103 stops (R104, R107): its first scale, from the natural one on in steps of nine digits, at which the quotient is exact, brought up to 0 when it is negative; or, when none comes in time, the largest scale at which the floor quotient fits, rounded to nearest even there, or one digit lower when that carries out of 96 bits. -/
def Obligations.DivisionOverflowsExactlyAboveTheLargestMantissa : Prop :=
  ∀ s : State, s.opa.valid = true → s.opb.valid = true → s.opb.dec.mant ≠ 0 →
    (let A := s.opa.dec
     let B := s.opb.dec
     let V := rne (A.mant * 10 ^ B.scale) (B.mant * 10 ^ A.scale)
     (MMAX < V → exec .div s = .next { s with err := 1#3 }) ∧
     (V ≤ MMAX → ∃ d : Dec, d.fits = true ∧
       exec .div s = .next { s with res := decResult d, err := 0#3 } ∧
       d.sign = (if d.mant = 0 then false else xor A.sign B.sign) ∧
       |(d.mant : ℚ) / 10 ^ d.scale - (A.mant * 10 ^ B.scale : ℚ) / (B.mant * 10 ^ A.scale)| ≤
         1 / (2 * 10 ^ d.scale)) ∧
     (s.cfg.divNormalize = false → V ≤ MMAX →
       let scaleAfter := fun i : Nat => (A.scale : Int) - B.scale + 9 * i
       let exactAfter := fun i : Nat => A.mant * 10 ^ (9 * i) % B.mant = 0
       let quotient := fun u : Nat => A.mant * 10 ^ (B.scale + u) / (B.mant * 10 ^ A.scale)
       let rounded := fun u : Nat => rne (A.mant * 10 ^ (B.scale + u)) (B.mant * 10 ^ A.scale)
       let result := fun u m : Nat =>
         decResult ⟨if m = 0 then false else xor A.sign B.sign, u, m⟩
       (∀ i u : Nat, exactAfter i → (∀ j, j < i → ¬ exactAfter j) →
         u = (scaleAfter i).toNat → u ≤ 28 → quotient u ≤ MMAX →
         exec .div s = .next { s with res := result u (quotient u), err := 0#3 }) ∧
       ∀ u : Nat, u ≤ 28 → quotient u ≤ MMAX → (u = 28 ∨ MMAX < quotient (u + 1)) →
         (∀ i, exactAfter i → (u : Int) < scaleAfter i) →
         (rounded u ≤ MMAX →
           exec .div s = .next { s with res := result u (rounded u), err := 0#3 }) ∧
         (MMAX < rounded u →
           exec .div s = .next { s with res := result (u - 1) (rounded (u - 1)), err := 0#3 })))

/-- 44_divmod.md R107: "A quotient exact at its natural scale (extended = false) is never stripped", under either DIV_NORMALIZE, and it is the exact quotient at that scale.
When the natural scale is negative the exact quotient is brought up to scale 0, and overflows when it does not fit there (R103, R106 (a)). -/
def Obligations.ExactQuotientsKeepTheNaturalScale : Prop :=
  ∀ s : State, s.opa.valid = true → s.opb.valid = true → s.opb.dec.mant ≠ 0 →
    s.opa.dec.mant % s.opb.dec.mant = 0 →
    (let q := s.opa.dec.mant / s.opb.dec.mant
     let sign := if s.opa.dec.mant = 0 then false else xor s.opa.dec.sign s.opb.dec.sign
     let up := s.opb.dec.scale - s.opa.dec.scale
     (s.opb.dec.scale ≤ s.opa.dec.scale →
       exec .div s = .next { s with
         res := decResult ⟨sign, s.opa.dec.scale - s.opb.dec.scale, q⟩, err := 0#3 }) ∧
     (s.opa.dec.scale < s.opb.dec.scale → q * 10 ^ up ≤ MMAX →
       exec .div s = .next { s with res := decResult ⟨sign, 0, q * 10 ^ up⟩, err := 0#3 }) ∧
     (s.opa.dec.scale < s.opb.dec.scale → MMAX < q * 10 ^ up →
       exec .div s = .next { s with err := 1#3 }))

/-- 44_divmod.md R104: from any scale a division can start at, the loop leaves by an exit or an overflow within 57 passes, so the passes are never used up, and more passes change nothing. -/
def Obligations.DivisionLoopEndsWithin57Passes : Prop :=
  ∀ (d : Nat) (st : DivLoop), -28 ≤ st.t → st.t ≤ 28 →
    ∃ outcome, ∀ n, divLoop d (57 + n) st = some outcome

/-- 44_divmod.md R111: a nonzero divisor gives the exact remainder with the dividend's sign at the larger scale, A - B·trunc(A/B), and never an overflow; a zero dividend is returned unchanged, and a zero divisor reports code 2 before it is looked at. -/
def Obligations.RemaindersAreExact : Prop :=
  ∀ s : State, s.opa.valid = true → s.opb.valid = true →
    (s.opb.dec.mant = 0 → exec .rem s = .next { s with err := 2#3 }) ∧
    (s.opb.dec.mant ≠ 0 → ∃ (d : Dec) (q : Int),
      exec .rem s = .next { s with res := decResult d, err := 0#3 } ∧ d.fits = true ∧
        d.sign = s.opa.dec.sign ∧
        d.scale = (if s.opa.dec.mant = 0 then s.opa.dec.scale
          else max s.opa.dec.scale s.opb.dec.scale) ∧
        s.opa.dec.val = q * s.opb.dec.val + d.val ∧ |d.val| < |s.opb.dec.val|)

/-! ## Rounding, comparison, normalization -/

/-- 45_round.md R115, R116, R117: a target at or above the operand's scale leaves it unchanged; below it, the quotient is incremented exactly when the mode's row says so. -/
def Obligations.RoundFollowsTheModeTable : Prop :=
  ∀ (s : State) (mode : RoundMode) (k : Nat), s.opa.valid = true → k ≤ 28 →
    (s.opa.dec.scale ≤ k →
      exec (.round mode k) s = .next { s with
        res := ⟨s.opa.w0, s.opa.w1, s.opa.w2, s.opa.w3, 0#32, 0#32, 0#32, 0#32⟩, err := 0#3 }) ∧
    (k < s.opa.dec.scale →
      (let p := 10 ^ (s.opa.dec.scale - k)
       let q := s.opa.dec.mant / p
       let r := s.opa.dec.mant % p
       ∃ up : Nat, up ≤ 1 ∧
         (up = 1 ↔ match mode with
           | .rne => p < 2 * r ∨ (2 * r = p ∧ q % 2 = 1)
           | .away => p ≤ 2 * r
           | .trunc => False
           | .floor => 0 < r ∧ s.opa.dec.sign = true
           | .ceil => 0 < r ∧ s.opa.dec.sign = false) ∧
         exec (.round mode k) s = .next { s with
           res := decResult ⟨s.opa.dec.sign, k, q + up⟩, err := 0#3 }))

/-- 45_round.md R115, R116, R121 (b): the result is a decimal at scale `min(a, k)` with the operand's sign bit, and its value is the mode's neighbour of the operand's value on that grid: below it for FLOOR, above it for CEIL, toward zero for TRUNC, within half a unit for RNE, a tie going to an even mantissa, and within half a unit for AWAY, a tie going away from zero. -/
def Obligations.RoundedValuesAreTheModesNeighbours : Prop :=
  ∀ (s t : State) (mode : RoundMode) (k : Nat), s.opa.valid = true → k ≤ 28 →
    exec (.round mode k) s = .next t →
    (let x := s.opa.dec.val
     let y := t.res.low.dec.val
     t.err = 0#3 ∧ t.res.low.valid = true ∧ t.res.high = Quad.zero ∧
       t.res.low.dec.scale = min s.opa.dec.scale k ∧ t.res.low.dec.sign = s.opa.dec.sign ∧
       |y - x| < 1 / 10 ^ k ∧
       match mode with
       | .rne => |y - x| ≤ 1 / (2 * 10 ^ k) ∧
           (|y - x| = 1 / (2 * 10 ^ k) → t.res.low.dec.mant % 2 = 0)
       | .away => |y - x| ≤ 1 / (2 * 10 ^ k) ∧ (|y - x| = 1 / (2 * 10 ^ k) → |x| < |y|)
       | .trunc => |y| ≤ |x|
       | .floor => y ≤ x
       | .ceil => x ≤ y)

/-- 45_round.md R121 (a): rounding the result again to the same scale, in any mode, is a no-op, bit for bit. -/
def Obligations.RoundingTwiceIsRoundingOnce : Prop :=
  ∀ (s t u : State) (mode mode' : RoundMode) (k : Nat), s.opa.valid = true → k ≤ 28 →
    exec (.round mode k) s = .next t →
    exec (.round mode' k) { t with opa := t.res.low } = .next u → u.err = 0#3 ∧ u.res = t.res

/-- 46_compare.md R122, R124: CMP gives the order of the two exact values as -1, 0 or 1 in RES[0], so zeros are equal whatever their sign and scale; an invalid operand reports code 3. -/
def Obligations.CompareOrdersTheExactValues : Prop :=
  decode 0x00000019#32 = .ok .cmp ∧
  ∀ s : State,
    (s.opa.valid = true → s.opb.valid = true → ∃ c : Word,
      exec .cmp s = .next { s with
        res := ⟨c, 0#32, 0#32, 0#32, 0#32, 0#32, 0#32, 0#32⟩, err := 0#3 } ∧
      (s.opa.dec.val < s.opb.dec.val → c = 0xFFFFFFFF#32) ∧
      (s.opa.dec.val = s.opb.dec.val → c = 0#32) ∧
      (s.opb.dec.val < s.opa.dec.val → c = 1#32)) ∧
    (s.opa.valid = false ∨ s.opb.valid = false → exec .cmp s = .next { s with err := 3#3 })

/-- 46_compare.md R125: NORM gives the same value with no trailing zero its scale could drop, and (0, 0, 0) for every zero; an invalid operand reports code 3. -/
def Obligations.NormStripsTrailingZeros : Prop :=
  decode 0x0000001A#32 = .ok .norm ∧
  ∀ s : State,
    (s.opa.valid = true →
      ∃ d : Dec, exec .norm s = .next { s with res := decResult d, err := 0#3 } ∧
        d.val = s.opa.dec.val ∧ d.fits = true ∧ d.scale ≤ s.opa.dec.scale ∧
        (s.opa.dec.mant = 0 → d = ⟨false, 0, 0⟩) ∧
        (s.opa.dec.mant ≠ 0 → d.sign = s.opa.dec.sign ∧ (d.scale = 0 ∨ d.mant % 10 ≠ 0))) ∧
    (s.opa.valid = false → exec .norm s = .next { s with err := 3#3 })

/-- 46_compare.md R126: two valid decimals have the same value exactly when NORM gives the same words for both. -/
def Obligations.NormIsCanonical : Prop :=
  ∀ s s' t t' : State, s.opa.valid = true → s'.opa.valid = true →
    exec .norm s = .next t → exec .norm s' = .next t' →
    (t.res = t'.res ↔ s.opa.dec.val = s'.opa.dec.val)

/-! ## Converters -/

/-- 47_convert.md R127, R128, R129, R130: TOF64 rounds the low 64 bits, the sum, the power of ten and the quotient, each once to the nearest binary64, and applies the sign last; TOF32 rounds that binary64 once more.
An invalid operand reports code 3. -/
def Obligations.ToFloatRoundsEachStepToNearest : Prop :=
  decode 0x00000020#32 = .ok .tof64 ∧ decode 0x00000021#32 = .ok .tof32 ∧
  ∀ s : State,
    (s.opa.valid = false → exec .tof64 s = .next { s with err := 3#3 } ∧
      exec .tof32 s = .next { s with err := 3#3 }) ∧
    (s.opa.valid = true → ∃ f1 f3 p f g : Nat,
      binary64.nearestEven ((s.opa.dec.mant % 2 ^ 64 : Nat) : ℚ) f1 ∧
      binary64.nearestEven
        (binary64.absValue f1 + ((s.opa.dec.mant / 2 ^ 64 * 2 ^ 64 : Nat) : ℚ)) f3 ∧
      binary64.nearestEven (10 ^ s.opa.dec.scale) p ∧
      binary64.nearestEven (binary64.absValue f3 / binary64.absValue p) f ∧
      binary32.nearestEven (binary64.absValue f) g ∧
      exec .tof64 s = .next { s with
        res := ⟨BitVec.ofNat 32 f,
          BitVec.ofNat 32 (f / 2 ^ 32) ||| (if s.opa.dec.sign then 0x80000000#32 else 0#32),
          0#32, 0#32, 0#32, 0#32, 0#32, 0#32⟩, err := 0#3 } ∧
      exec .tof32 s = .next { s with
        res := ⟨BitVec.ofNat 32 g ||| (if s.opa.dec.sign then 0x80000000#32 else 0#32),
          0#32, 0#32, 0#32, 0#32, 0#32, 0#32, 0#32⟩, err := 0#3 })

/-- 47_convert.md R137 (c): for one scale and one sign, a larger mantissa never gives a smaller binary64 magnitude. -/
def Obligations.ToDoubleIsMonotonicAtOneScale : Prop :=
  ∀ s s' t t' : State, s.opa.valid = true → s'.opa.valid = true →
    s.opa.dec.scale = s'.opa.dec.scale → s.opa.dec.sign = s'.opa.dec.sign →
    s.opa.dec.mant ≤ s'.opa.dec.mant →
    exec .tof64 s = .next t → exec .tof64 s' = .next t' →
    (t.res.w1 ++ t.res.w0).toNat ≤ (t'.res.w1 ++ t'.res.w0).toNat

/-- 47_convert.md R133: FROMF64 and FROMF32 overflow exactly for NaN, the infinities and |x| ≥ 2^96, and complete otherwise. -/
def Obligations.FromFloatOverflowsExactlyOutOfRange : Prop :=
  ∀ s : State,
    (let x := (s.opa.w1 ++ s.opa.w0).toNat
     ((x / 2 ^ 52 % 2048 = 2047 ∨ 2 ^ 96 ≤ binary64.absValue x) →
       exec .fromf64 s = .next { s with err := 1#3 }) ∧
     (x / 2 ^ 52 % 2048 ≠ 2047 → binary64.absValue x < 2 ^ 96 →
       ∃ d : Dec, d.fits = true ∧
         exec .fromf64 s = .next { s with res := decResult d, err := 0#3 })) ∧
    (let x := s.opa.w0.toNat
     ((x / 2 ^ 23 % 256 = 255 ∨ 2 ^ 96 ≤ binary32.absValue x) →
       exec .fromf32 s = .next { s with err := 1#3 }) ∧
     (x / 2 ^ 23 % 256 ≠ 255 → binary32.absValue x < 2 ^ 96 →
       ∃ d : Dec, d.fits = true ∧
         exec .fromf32 s = .next { s with res := decResult d, err := 0#3 }))

/-- 47_convert.md R131, R132: a nonzero value v in range, with 10^e ≤ v < 10^(e+1), is rounded to the nearest integer m at scale p = min(N - 1 - e, 28), and the result is m / 10^p with no trailing zero its scale could drop, or positive zero at scale 0 when m = 0.
N is 15 for FROMF64 and 7 for FROMF32 (00_scope.md R6); a zero gives positive zero, and a NaN, an infinity or a magnitude of at least 2^96 overflows. -/
def Obligations.FromFloatKeepsTheDigitBudget : Prop :=
  ∀ (s : State) (i : Instr) (F : FloatFormat) (N x : Nat),
    (i = .fromf64 ∧ F = binary64 ∧ N = 15 ∧ x = (s.opa.w1 ++ s.opa.w0).toNat ∨
      i = .fromf32 ∧ F = binary32 ∧ N = 7 ∧ x = s.opa.w0.toNat) →
    (F.isSpecial x = true ∨ 2 ^ 96 ≤ F.absValue x → exec i s = .next { s with err := 1#3 }) ∧
    (F.isSpecial x = false → F.absValue x = 0 →
      exec i s = .next { s with res := decResult ⟨false, 0, 0⟩, err := 0#3 }) ∧
    (F.isSpecial x = false → F.absValue x < 2 ^ 96 → F.absValue x ≠ 0 → ∃ (d : Dec) (m : Nat) (e : Int),
      (10 : ℚ) ^ e ≤ F.absValue x ∧ F.absValue x < (10 : ℚ) ^ (e + 1) ∧
      nearestEvenInt (F.absValue x * (10 : ℚ) ^ min ((N : Int) - 1 - e) 28) m ∧
      exec i s = .next { s with res := decResult d, err := 0#3 } ∧ d.fits = true ∧ d.stripped ∧
      (m = 0 → d = ⟨false, 0, 0⟩) ∧
      (m ≠ 0 → d.sign = F.signBit x ∧
        (d.mant : ℚ) / 10 ^ d.scale = (m : ℚ) / (10 : ℚ) ^ min ((N : Int) - 1 - e) 28))

/-- 47_convert.md R135: FROMCY never fails and gives c / 10^4 with its trailing zeros trimmed, positive zero at scale 0 for c = 0. -/
def Obligations.FromCurrencyTrimsZeros : Prop :=
  decode 0x00000024#32 = .ok .fromcy ∧
  ∀ s : State,
    (let c : Int := (s.opa.w1 ++ s.opa.w0).toInt
     ∃ d : Dec, exec .fromcy s = .next { s with res := decResult d, err := 0#3 } ∧
       d.fits = true ∧ d.stripped ∧ d.scale ≤ 4 ∧ d.val = (c : ℚ) / 10 ^ 4 ∧
       d.sign = decide (c < 0) ∧ (c = 0 → d = ⟨false, 0, 0⟩))

/-- 47_convert.md R136: TOCY rounds to four digits by RNE and completes exactly when the signed result fits 64 bits; otherwise it reports Overflow, and for an invalid operand code 3. -/
def Obligations.ToCurrencyRoundsToFourDigits : Prop :=
  decode 0x00000025#32 = .ok .tocy ∧
  ∀ s : State,
    (s.opa.valid = false → exec .tocy s = .next { s with err := 3#3 }) ∧
    (s.opa.valid = true →
     let v := rne (s.opa.dec.mant * 10 ^ 4) (10 ^ s.opa.dec.scale)
     let c : Int := if s.opa.dec.sign then -(v : Int) else (v : Int)
     (-(2 ^ 63) ≤ c → c ≤ 2 ^ 63 - 1 →
       exec .tocy s = .next { s with
         res := ⟨(BitVec.ofInt 64 c).extractLsb' 0 32, (BitVec.ofInt 64 c).extractLsb' 32 32,
           0#32, 0#32, 0#32, 0#32, 0#32, 0#32⟩, err := 0#3 }) ∧
     (c < -(2 ^ 63) ∨ 2 ^ 63 - 1 < c → exec .tocy s = .next { s with err := 1#3 }))

/-- 47_convert.md R137 (a): FROMCY then TOCY returns the 64-bit currency value, for every value. -/
def Obligations.CurrencyRoundTrip : Prop :=
  ∀ s t u : State, exec .fromcy s = .next t →
    exec .tocy { t with opa := t.res.low } = .next u →
    u.err = 0#3 ∧ u.res.w0 = s.opa.w0 ∧ u.res.w1 = s.opa.w1

/-! ## Primitives -/

/-- 40_primitives.md R70, R71, R72: the three multipliers give the exact product in RES and never fail. -/
def Obligations.MultipliersAreExact : Prop :=
  decode 0x00000030#32 = .ok .mul96x32 ∧ decode 0x00000031#32 = .ok .mul96x64 ∧
    decode 0x00000032#32 = .ok .mul96x96 ∧
  ∀ s : State,
    (let a := (s.opa.w2 ++ s.opa.w1 ++ s.opa.w0).toNat
     (∃ r : Octo, exec .mul96x32 s = .next { s with res := r, err := 0#3 } ∧
       ofLimbs r.words = a * s.opb.w0.toNat) ∧
     (∃ r : Octo, exec .mul96x64 s = .next { s with res := r, err := 0#3 } ∧
       ofLimbs r.words = a * (s.opb.w1 ++ s.opb.w0).toNat) ∧
     ∃ r : Octo, exec .mul96x96 s = .next { s with res := r, err := 0#3 } ∧
       ofLimbs r.words = a * (s.opb.w2 ++ s.opb.w1 ++ s.opb.w0).toNat)

/-- 40_primitives.md R74, R75, R76: the three dividers give the exact quotient and remainder in their words of RES, 0 in the others, and report DivideByZero for a zero divisor. -/
def Obligations.DividersAreExact : Prop :=
  decode 0x00000034#32 = .ok .div96x32 ∧ decode 0x00000035#32 = .ok .div96x64 ∧
    decode 0x00000036#32 = .ok .div128x96 ∧
  ∀ s : State,
    (let a := (s.opa.w2 ++ s.opa.w1 ++ s.opa.w0).toNat
     let a4 := (s.opa.w3 ++ s.opa.w2 ++ s.opa.w1 ++ s.opa.w0).toNat
     let d1 := s.opb.w0.toNat
     let d2 := (s.opb.w1 ++ s.opb.w0).toNat
     let d3 := (s.opb.w2 ++ s.opb.w1 ++ s.opb.w0).toNat
     (d1 = 0 → exec .div96x32 s = .next { s with err := 2#3 }) ∧
     (d1 ≠ 0 → ∃ r : Octo, exec .div96x32 s = .next { s with res := r, err := 0#3 } ∧
       (r.w2 ++ r.w1 ++ r.w0).toNat = a / d1 ∧ r.w3.toNat = a % d1 ∧ r.high = Quad.zero) ∧
     (d2 = 0 → exec .div96x64 s = .next { s with err := 2#3 }) ∧
     (d2 ≠ 0 → ∃ r : Octo, exec .div96x64 s = .next { s with res := r, err := 0#3 } ∧
       (r.w2 ++ r.w1 ++ r.w0).toNat = a / d2 ∧ (r.w4 ++ r.w3).toNat = a % d2 ∧
       r.w5 = 0#32 ∧ r.w6 = 0#32 ∧ r.w7 = 0#32) ∧
     (d3 = 0 → exec .div128x96 s = .next { s with err := 2#3 }) ∧
     (d3 ≠ 0 → ∃ r : Octo, exec .div128x96 s = .next { s with res := r, err := 0#3 } ∧
       (r.w3 ++ r.w2 ++ r.w1 ++ r.w0).toNat = a4 / d3 ∧
       (r.w6 ++ r.w5 ++ r.w4).toNat = a4 % d3 ∧ r.w7 = 0#32))

/-- 40_primitives.md R68, R78, R79: the counters give the number of zero bits above the highest set bit, 32 and 96 for zero, and never fail. -/
def Obligations.LeadingZeroCountersCount : Prop :=
  decode 0x00000038#32 = .ok .lzc32 ∧ decode 0x00000039#32 = .ok .lzc96 ∧
  ∀ s : State,
    (∃ n : Nat, exec .lzc32 s = .next { s with
        res := ⟨BitVec.ofNat 32 n, 0#32, 0#32, 0#32, 0#32, 0#32, 0#32, 0#32⟩, err := 0#3 } ∧
      n ≤ 32 ∧ s.opa.w0.toNat < 2 ^ (32 - n) ∧ (n < 32 → 2 ^ (31 - n) ≤ s.opa.w0.toNat)) ∧
    ∃ n : Nat, exec .lzc96 s = .next { s with
        res := ⟨BitVec.ofNat 32 n, 0#32, 0#32, 0#32, 0#32, 0#32, 0#32, 0#32⟩, err := 0#3 } ∧
      n ≤ 96 ∧ (s.opa.w2 ++ s.opa.w1 ++ s.opa.w0).toNat < 2 ^ (96 - n) ∧
      (n < 96 → 2 ^ (95 - n) ≤ (s.opa.w2 ++ s.opa.w1 ++ s.opa.w0).toNat)

/-- 40_primitives.md R80, R81: POW10MUL gives the exact product with 10^K for every K it admits, below 2^190, and never fails; a word with K above 28 is ILLEGAL. -/
def Obligations.PowerOfTenProductsAreExact : Prop :=
  (∀ k : Nat, k < 64 → decode (0x0000003A#32 ||| BitVec.ofNat 32 k <<< 16) =
    if k ≤ 28 then .ok (.pow10mul k) else .error .kOutOfRange) ∧
  ∀ (s : State) (k : Nat), k ≤ 28 →
    ∃ r : Octo, exec (.pow10mul k) s = .next { s with res := r, err := 0#3 } ∧
      ofLimbs r.words = (s.opa.w2 ++ s.opa.w1 ++ s.opa.w0).toNat * 10 ^ k ∧
      ofLimbs r.words < 2 ^ 190

/-- 40_primitives.md R63, R82: SCALERES reduces the 192-bit value by the least k from `max(0, K - 28)` on at which it fits, with sign 0, and overflows when no k up to K does; a word with K above 56 is ILLEGAL. -/
def Obligations.ScaleresReducesByTheLeastThatFits : Prop :=
  (∀ e : Nat, e < 64 → decode (0x0000003B#32 ||| BitVec.ofNat 32 e <<< 16) =
    if e ≤ 56 then .ok (.scaleres e) else .error .kOutOfRange) ∧
  ∀ (s : State) (e k : Nat), e ≤ 56 →
    (let X := (s.opb.w1 ++ s.opb.w0 ++ s.opa.w3 ++ s.opa.w2 ++ s.opa.w1 ++ s.opa.w0).toNat
     (e - 28 ≤ k → k ≤ e → rne X (10 ^ k) ≤ MMAX →
       (∀ j, e - 28 ≤ j → j < k → MMAX < rne X (10 ^ j)) →
       exec (.scaleres e) s = .next { s with
         res := decResult ⟨false, e - k, rne X (10 ^ k)⟩, err := 0#3 }) ∧
     (MMAX < rne X (10 ^ e) → exec (.scaleres e) s = .next { s with err := 1#3 }))

/-! ## Shared functions -/

/-- 40_primitives.md R61, R65: RNE is the nearest integer, a tie to the even one; and dividing in any number of steps, the sticky bit the OR of the earlier remainders being nonzero and the last divisor even, gives the same integer. -/
def Obligations.RoundingIsToNearestEvenInAnySteps : Prop :=
  (∀ n d : Nat, 0 < d → nearestEvenInt ((n : ℚ) / d) (rne n d)) ∧
    ∀ (X d : Nat) (earlier : List Nat), (∀ e ∈ earlier, 0 < e) → 0 < d → d % 2 = 0 →
      (let steps := earlier.foldl
         (fun (p : Nat × Bool) e => (p.1 / e, p.2 || decide (p.1 % e ≠ 0))) (X, false)
       let q := steps.1 / d
       let r := steps.1 % d
       rne X (earlier.prod * d) =
         if d / 2 < r ∨ (r = d / 2 ∧ (steps.2 = true ∨ q % 2 = 1)) then q + 1 else q)

/-- 40_primitives.md R62: Strip never changes the value m/10^e, removes exactly min(z, e) of the z trailing zero digits of a nonzero m, and turns (0, e) into (0, 0). -/
def Obligations.StripRemovesTrailingZerosAlone : Prop :=
  ∀ m e : Nat,
    (m = 0 → strip m e = (0, 0)) ∧
      ∀ z, m % 10 ^ z = 0 → m % 10 ^ (z + 1) ≠ 0 →
        strip m e = (m / 10 ^ min z e, e - min z e)

/-- 40_primitives.md R67: SearchScale gives the largest step of at most nine digits, within scale 28, by which the quotient still fits; q · 10^k ≤ MMAX exactly when q is at most the threshold MMAX div 10^k. -/
def Obligations.SearchScaleIsTheLargestSafeStep : Prop :=
  ∀ (q : Nat) (t : Int), q ≤ MMAX → -28 ≤ t → t ≤ 28 →
    (searchScale q t : Int) ≤ min 9 (28 - t) ∧ q ≤ MMAX / 10 ^ searchScale q t ∧
      ∀ j : Nat, searchScale q t < j → (j : Int) ≤ min 9 (28 - t) → MMAX / 10 ^ j < q

/-- 40_primitives.md R66: D0's bit-position estimate never exceeds the least reduction k of an X above MMAX, and correcting it once more is always enough. -/
def Obligations.EstimateIsAtMostOneShort : Prop :=
  ∀ X k : Nat, MMAX < X → X < 2 ^ 192 → rne X (10 ^ k) ≤ MMAX →
    (∀ j, j < k → MMAX < rne X (10 ^ j)) →
    estimatedReduction X ≤ k ∧ k ≤ estimatedReduction X + 1

/-! ## The host's notation -/

/-- 30_encoding.md R60: the five pseudo-instructions at the start of a host program do what their expansions say.
LDA and LDB leave the quadruple of the triple in OPA or OPB; MOVRA and MOVRB copy RES[0..3] there, by four reads; CHK reads STATUS and branches when it is not 0. -/
def Obligations.PseudoInstructionsExpandAsListed : Prop :=
  ∀ (d : Dec) (t label : Nat) (rest : List HostInstr) (h : HostRun),
    h.pc = 0 → h.block.cfg.launch = .inContract → h.block.pending = [] →
    (let s := h.block
     hostSteps (lda d ++ rest) 4 h =
        .next { h with pc := 4, block := { s with opa := pack d } } ∧
      hostSteps (ldb d ++ rest) 4 h =
        .next { h with pc := 4, block := { s with opb := pack d } } ∧
      (∃ h', hostSteps (movra t ++ rest) 8 h = .next h' ∧ h'.pc = 8 ∧ h'.reg t = s.res.w3 ∧
        h'.block = { s with
          opa := s.res.low, reads := [s.res.w3, s.res.w2, s.res.w1, s.res.w0] ++ s.reads }) ∧
      (∃ h', hostSteps (movrb t ++ rest) 8 h = .next h' ∧ h'.pc = 8 ∧ h'.reg t = s.res.w3 ∧
        h'.block = { s with
          opb := s.res.low, reads := [s.res.w3, s.res.w2, s.res.w1, s.res.w0] ++ s.reads }) ∧
      ∃ h', hostSteps (chk t label ++ rest) 2 h = .next h' ∧ h'.reg t = s.err.zeroExtend 32 ∧
        h'.pc = (if s.err = 0#3 then 2 else label) ∧
        h'.block = { s with reads := s.err.zeroExtend 32 :: s.reads })
end

