-- ==== Sys2Proof/Laws/Arith.lean ====
section
/-! SUPPORT. The shared arithmetic functions (40_primitives.md section 1): one specification lemma per function. -/

namespace Sys2Proof.Machine

open Sys2Proof

/-! Rounding to nearest even. -/

/-- RNE is the floor quotient or the one above it (40_primitives.md R61). -/
theorem rne_cases (n d : Nat) :
    (rne n d = n / d ∧ (2 * (n % d) < d ∨ (2 * (n % d) = d ∧ n / d % 2 = 0))) ∨
      (rne n d = n / d + 1 ∧ (d < 2 * (n % d) ∨ (2 * (n % d) = d ∧ n / d % 2 = 1))) := by
  unfold rne
  split <;> omega

theorem rne_ge (n d : Nat) : n / d ≤ rne n d := by rcases rne_cases n d with h | h <;> omega

theorem rne_le (n d : Nat) : rne n d ≤ n / d + 1 := by rcases rne_cases n d with h | h <;> omega

/-- An exact quotient is not changed. -/
theorem rne_of_dvd {n d : Nat} (hd : 0 < d) (h : n % d = 0) : rne n d = n / d := by
  rcases rne_cases n d with h' | h' <;> omega

/-- A larger numerator never rounds to less. -/
theorem rne_mono {n n' : Nat} (d : Nat) (h : n ≤ n') : rne n d ≤ rne n' d := by
  have hq : n / d ≤ n' / d := Nat.div_le_div_right h
  rcases Nat.eq_or_lt_of_le hq with he | hlt
  · have h1 := Nat.div_add_mod n d
    have h2 := Nat.div_add_mod n' d
    rw [he] at h1
    rcases rne_cases n d with ⟨e1, c1⟩ | ⟨e1, c1⟩ <;>
      rcases rne_cases n' d with ⟨e2, c2⟩ | ⟨e2, c2⟩ <;> omega
  · have h1 := rne_le n d
    have h2 := rne_ge n' d
    omega

/-- A larger divisor never rounds to more: "RNE(X, 10^k) does not increase as k grows" (40_primitives.md R63). -/
theorem rne_antitone (n : Nat) {d d' : Nat} (hd : 0 < d) (h : d ≤ d') : rne n d' ≤ rne n d := by
  have hq : n / d' ≤ n / d := Nat.div_le_div_left h hd
  rcases Nat.eq_or_lt_of_le hq with he | hlt
  · have h1 := Nat.div_add_mod n d
    have h2 := Nat.div_add_mod n d'
    have h3 : d * (n / d) ≤ d' * (n / d) := Nat.mul_le_mul_right _ h
    rw [he] at h2
    rcases rne_cases n d with ⟨e1, c1⟩ | ⟨e1, c1⟩ <;>
      rcases rne_cases n d' with ⟨e2, c2⟩ | ⟨e2, c2⟩ <;> omega
  · have h1 := rne_le n d'
    have h2 := rne_ge n d
    omega

/-- RNE depends on the quotient alone (40_primitives.md R61). -/
theorem rne_mul_right (n d : Nat) {c : Nat} (hc : 0 < c) : rne (n * c) (d * c) = rne n d := by
  have h1 : n * c / (d * c) = n / d := Nat.mul_div_mul_right n d hc
  have h2 : n * c % (d * c) = n % d * c := Nat.mul_mod_mul_right c n d
  have key : ∀ a b : Nat, (a * c > b * c ↔ a > b) ∧ (a * c = b * c ↔ a = b) := fun a b =>
    ⟨Nat.mul_lt_mul_right hc, Nat.mul_left_inj (by omega)⟩
  unfold rne
  rw [h1, h2, ← Nat.mul_assoc]
  simp only [(key _ _).1, (key _ _).2]

@[simp] theorem rne_one (n : Nat) : rne n 1 = n := by simp [rne, Nat.mod_one]

/-! Stripping. -/

@[simp] theorem strip_zero (m : Nat) : strip m 0 = (m, 0) := rfl

theorem strip_succ (m e : Nat) :
    strip m (e + 1) = if m % 10 = 0 then strip (m / 10) e else (m, e + 1) := rfl

/-- Everything Strip does (40_primitives.md R62): some zeros are removed, the scale falls by as many, and none is left that could be. -/
theorem strip_spec (m e : Nat) :
    (strip m e).2 ≤ e ∧ m = (strip m e).1 * 10 ^ (e - (strip m e).2) ∧
      ((strip m e).2 = 0 ∨ (strip m e).1 % 10 ≠ 0) := by
  induction e generalizing m with
  | zero => simp
  | succ e ih =>
    rw [strip_succ]
    split
    · next h =>
      obtain ⟨h1, h2, h3⟩ := ih (m / 10)
      refine ⟨by omega, ?_, h3⟩
      have hm : m = 10 * (m / 10) := by omega
      rw [Nat.succ_sub h1, Nat.pow_succ, ← Nat.mul_assoc, ← h2]
      omega
    · next h => exact ⟨le_refl _, by simp, .inr h⟩

theorem strip_le (m e : Nat) : (strip m e).1 ≤ m := by
  obtain ⟨-, h, -⟩ := strip_spec m e
  calc (strip m e).1 ≤ (strip m e).1 * 10 ^ (e - (strip m e).2) :=
        Nat.le_mul_of_pos_right _ (by positivity)
    _ = m := h.symm

/-- A zero mantissa strips to (0, 0) (40_primitives.md R62). -/
theorem strip_of_zero (e : Nat) : strip 0 e = (0, 0) := by
  induction e with
  | zero => rfl
  | succ e ih => simp [strip_succ, ih]

/-! Scale reduction. -/

/-- The search finds the least reduction of its range (40_primitives.md R63). -/
theorem leastReduction_some {X k fuel r : Nat} (h : leastReduction X k fuel = some r) :
    k ≤ r ∧ r < k + fuel ∧ rne X (10 ^ r) ≤ MMAX ∧ ∀ j, k ≤ j → j < r → MMAX < rne X (10 ^ j) := by
  induction fuel generalizing k with
  | zero => simp [leastReduction] at h
  | succ n ih =>
    rw [leastReduction] at h
    split at h
    · next hle =>
      obtain rfl : k = r := by simpa using h
      exact ⟨le_refl _, by omega, hle, fun j h1 h2 => by omega⟩
    · next hgt =>
      obtain ⟨h1, h2, h3, h4⟩ := ih h
      refine ⟨by omega, by omega, h3, fun j hj hr => ?_⟩
      rcases Nat.eq_or_lt_of_le hj with rfl | hlt
      · omega
      · exact h4 j hlt hr

/-- The search fails when no reduction of its range fits (40_primitives.md R63). -/
theorem leastReduction_none {X k fuel : Nat} :
    leastReduction X k fuel = none ↔ ∀ j, k ≤ j → j < k + fuel → MMAX < rne X (10 ^ j) := by
  induction fuel generalizing k with
  | zero => simp only [leastReduction, true_iff]; intro j h1 h2; omega
  | succ n ih =>
    rw [leastReduction]
    split
    · next hle =>
      refine ⟨by simp, fun h => ?_⟩
      have := h k (le_refl _) (by omega)
      omega
    · next hgt =>
      rw [ih]
      constructor
      · intro h j h1 h2
        rcases Nat.eq_or_lt_of_le h1 with rfl | hlt
        · omega
        · exact h j hlt (by omega)
      · intro h j h1 h2
        exact h j (by omega) (by omega)

/-- Everything ScaleResult answers (40_primitives.md R63): the least reduction from `e - 28` on, or Overflow when none up to e fits. -/
theorem scaleResult_cases (X e : Nat) :
    (∃ k, e - 28 ≤ k ∧ k ≤ e ∧ rne X (10 ^ k) ≤ MMAX ∧
        (∀ j, e - 28 ≤ j → j < k → MMAX < rne X (10 ^ j)) ∧
        scaleResult X e = .ok (rne X (10 ^ k), e - k)) ∨
      ((∀ j, e - 28 ≤ j → j ≤ e → MMAX < rne X (10 ^ j)) ∧
        scaleResult X e = .error .overflow) := by
  unfold scaleResult scaleMax
  cases h : leastReduction X (e - 28) (e + 1 - (e - 28)) with
  | none => exact .inr ⟨fun j h1 h2 => leastReduction_none.mp h j h1 (by omega), rfl⟩
  | some k =>
    obtain ⟨h1, h2, h3, h4⟩ := leastReduction_some h
    exact .inl ⟨k, h1, by omega, h3, h4, rfl⟩

/-- A reduced decimal can be packed (40_primitives.md R63, 10_state.md R24). -/
theorem scaleResult_fits {X e m e' : Nat} (h : scaleResult X e = .ok (m, e')) :
    m ≤ MMAX ∧ e' ≤ 28 ∧ e' ≤ e := by
  rcases scaleResult_cases X e with ⟨k, h1, h2, h3, -, h5⟩ | ⟨-, h5⟩
  · rw [h] at h5
    obtain ⟨rfl, rfl⟩ : m = rne X (10 ^ k) ∧ e' = e - k := by simpa using h5
    exact ⟨h3, by omega, by omega⟩
  · rw [h] at h5
    simp at h5

/-- ScaleResult at a known least reduction (40_primitives.md R63). -/
theorem scaleResult_ok {X e k : Nat} (h1 : e - 28 ≤ k) (h2 : k ≤ e)
    (h3 : rne X (10 ^ k) ≤ MMAX) (h4 : ∀ j, e - 28 ≤ j → j < k → MMAX < rne X (10 ^ j)) :
    scaleResult X e = .ok (rne X (10 ^ k), e - k) := by
  rcases scaleResult_cases X e with ⟨k', g1, g2, g3, g4, g5⟩ | ⟨g1, -⟩
  · obtain hlt | rfl | hgt := lt_trichotomy k k'
    · have := g4 k h1 hlt
      omega
    · exact g5
    · have := h4 k' g1 hgt
      omega
  · have := g1 k h1 h2
    omega

/-- ScaleResult overflows exactly when the value rounded to an integer exceeds MMAX (40_primitives.md R63). -/
theorem scaleResult_overflow_iff (X e : Nat) :
    scaleResult X e = .error .overflow ↔ MMAX < rne X (10 ^ e) := by
  rcases scaleResult_cases X e with ⟨k, h1, h2, h3, -, h5⟩ | ⟨h1, h2⟩
  · have hle : rne X (10 ^ e) ≤ rne X (10 ^ k) :=
      rne_antitone X (by positivity) (Nat.pow_le_pow_right (by omega) h2)
    simp only [h5, reduceCtorEq, false_iff]
    omega
  · simp only [h2, true_iff]
    exact h1 e (by omega) (le_refl _)

/-! Scale search. -/

/-- The largest step within a bound (40_primitives.md R67). -/
theorem largestStep_spec (q bound : Nat) (hq : q ≤ MMAX) :
    largestStep q bound ≤ bound ∧ q * 10 ^ largestStep q bound ≤ MMAX ∧
      ∀ j, largestStep q bound < j → j ≤ bound → MMAX < q * 10 ^ j := by
  induction bound with
  | zero => exact ⟨le_refl _, by simpa [largestStep] using hq, fun j h1 h2 => by omega⟩
  | succ k ih =>
    rw [largestStep]
    split
    · next h => exact ⟨le_refl _, h, fun j h1 h2 => by omega⟩
    · next h =>
      obtain ⟨h1, h2, h3⟩ := ih
      refine ⟨by omega, h2, fun j hj hb => ?_⟩
      rcases Nat.eq_or_lt_of_le hb with rfl | hlt
      · omega
      · exact h3 j hj (by omega)

/-! Leading zeros. -/

/-- The bit length of a value (40_primitives.md R68). -/
theorem bitLength_spec {v : Nat} (h : v ≠ 0) : 2 ^ (bitLength v - 1) ≤ v ∧ v < 2 ^ bitLength v := by
  simp only [bitLength, h, if_false, Nat.add_sub_cancel]
  exact ⟨Nat.log2_self_le h, Nat.lt_log2_self⟩

end Sys2Proof.Machine
end

