-- ==== Sys2Proof/Laws/Division.lean ====
section
/-! SUPPORT. The passes of the division loop (44_divmod.md R103, R104): what a pass that goes on does, and that it raises the scale. -/

namespace Sys2Proof.Machine

open Sys2Proof

/-- The step is within its bound whatever the quotient is. -/
theorem largestStep_le (q bound : Nat) : largestStep q bound ≤ bound := by
  induction bound with
  | zero => exact le_refl _
  | succ k ih =>
    rw [largestStep]
    split <;> omega

/-- Everything a pass that goes on does (44_divmod.md R103): it brings an exact quotient toward scale 0, or it adds the next digits of an inexact one. -/
theorem divPass_again {d : Nat} {st st' : DivLoop} (h : divPass d st = .again st') :
    (st.r = 0 ∧ st.t < 0 ∧ st.q * 10 ^ min pow10Step (-st.t).toNat ≤ MMAX ∧
        st' = { st with
          q := st.q * 10 ^ min pow10Step (-st.t).toNat
          t := st.t + (min pow10Step (-st.t).toNat : Nat) }) ∨
      (st.r ≠ 0 ∧ searchScale st.q st.t ≠ 0 ∧
        st.q * 10 ^ searchScale st.q st.t + st.r * 10 ^ searchScale st.q st.t / d ≤ MMAX ∧
        st' =
          { q := st.q * 10 ^ searchScale st.q st.t + st.r * 10 ^ searchScale st.q st.t / d
            r := st.r * 10 ^ searchScale st.q st.t % d
            t := st.t + (searchScale st.q st.t : Int)
            extended := true }) := by
  unfold divPass at h
  split at h
  · next hr =>
    unfold divExactPass at h
    split at h
    · next ht =>
      split at h
      · simp at h
      · next hq => exact .inl ⟨hr, ht, by omega, by simpa using h.symm⟩
    · simp at h
  · next hr =>
    simp only at h
    split at h
    · simp at h
    split at h
    · unfold divRoundPass at h
      simp only at h
      repeat' split at h
      all_goals simp at h
    next hk =>
    unfold divExtendPass at h
    simp only at h
    split at h
    · split at h <;> simp at h
    · next hq => exact .inr ⟨hr, hk, by omega, by simpa using h.symm⟩

/-- A pass that goes on raises the scale, to 28 at most: "Each scale step raises t by at least 1" (44_divmod.md R104). -/
theorem divPass_again_raises {d : Nat} {st st' : DivLoop} (h : divPass d st = .again st') :
    st.t < st'.t ∧ st'.t ≤ 28 := by
  obtain ⟨-, ht, -, rfl⟩ | ⟨-, hk, -, rfl⟩ := divPass_again h
  · simp only [pow10Step]
    omega
  · have hs : (searchScale st.q st.t : Int) ≤ 28 - st.t := by
      unfold searchScale at hk ⊢
      split at hk
      · simp at hk
      · next ht =>
        have := largestStep_le st.q (min pow10Step (28 - st.t).toNat)
        rw [if_neg ht]
        omega
    simp only
    omega

end Sys2Proof.Machine
end

