-- ==== Sys2Proof/Laws/State.lean ====
section
/-! SUPPORT. One lemma per field per update of State, so that no later proof unfolds a record update. -/

namespace Sys2Proof.Machine

open Sys2Proof

/-! withOpa -/

@[simp] theorem State.withOpa_opa (s : State) (i : Fin 4) (w : Word) :
    (s.withOpa i w).opa = s.opa.set i w := rfl
@[simp] theorem State.withOpa_opb (s : State) (i : Fin 4) (w : Word) :
    (s.withOpa i w).opb = s.opb := rfl
@[simp] theorem State.withOpa_res (s : State) (i : Fin 4) (w : Word) :
    (s.withOpa i w).res = s.res := rfl
@[simp] theorem State.withOpa_cmd (s : State) (i : Fin 4) (w : Word) :
    (s.withOpa i w).cmd = s.cmd := rfl
@[simp] theorem State.withOpa_err (s : State) (i : Fin 4) (w : Word) :
    (s.withOpa i w).err = s.err := rfl
@[simp] theorem State.withOpa_pending (s : State) (i : Fin 4) (w : Word) :
    (s.withOpa i w).pending = s.pending := rfl
@[simp] theorem State.withOpa_reads (s : State) (i : Fin 4) (w : Word) :
    (s.withOpa i w).reads = s.reads := rfl
@[simp] theorem State.withOpa_cfg (s : State) (i : Fin 4) (w : Word) :
    (s.withOpa i w).cfg = s.cfg := rfl

/-! withOpb -/

@[simp] theorem State.withOpb_opa (s : State) (i : Fin 4) (w : Word) :
    (s.withOpb i w).opa = s.opa := rfl
@[simp] theorem State.withOpb_opb (s : State) (i : Fin 4) (w : Word) :
    (s.withOpb i w).opb = s.opb.set i w := rfl
@[simp] theorem State.withOpb_res (s : State) (i : Fin 4) (w : Word) :
    (s.withOpb i w).res = s.res := rfl
@[simp] theorem State.withOpb_cmd (s : State) (i : Fin 4) (w : Word) :
    (s.withOpb i w).cmd = s.cmd := rfl
@[simp] theorem State.withOpb_err (s : State) (i : Fin 4) (w : Word) :
    (s.withOpb i w).err = s.err := rfl
@[simp] theorem State.withOpb_pending (s : State) (i : Fin 4) (w : Word) :
    (s.withOpb i w).pending = s.pending := rfl
@[simp] theorem State.withOpb_reads (s : State) (i : Fin 4) (w : Word) :
    (s.withOpb i w).reads = s.reads := rfl
@[simp] theorem State.withOpb_cfg (s : State) (i : Fin 4) (w : Word) :
    (s.withOpb i w).cfg = s.cfg := rfl

/-! withRes -/

@[simp] theorem State.withRes_opa (s : State) (r : Octo) :
    (s.withRes r).opa = s.opa := rfl
@[simp] theorem State.withRes_opb (s : State) (r : Octo) :
    (s.withRes r).opb = s.opb := rfl
@[simp] theorem State.withRes_res (s : State) (r : Octo) :
    (s.withRes r).res = r := rfl
@[simp] theorem State.withRes_cmd (s : State) (r : Octo) :
    (s.withRes r).cmd = s.cmd := rfl
@[simp] theorem State.withRes_err (s : State) (r : Octo) :
    (s.withRes r).err = s.err := rfl
@[simp] theorem State.withRes_pending (s : State) (r : Octo) :
    (s.withRes r).pending = s.pending := rfl
@[simp] theorem State.withRes_reads (s : State) (r : Octo) :
    (s.withRes r).reads = s.reads := rfl
@[simp] theorem State.withRes_cfg (s : State) (r : Octo) :
    (s.withRes r).cfg = s.cfg := rfl

/-! withCmd -/

@[simp] theorem State.withCmd_opa (s : State) (w : Word) :
    (s.withCmd w).opa = s.opa := rfl
@[simp] theorem State.withCmd_opb (s : State) (w : Word) :
    (s.withCmd w).opb = s.opb := rfl
@[simp] theorem State.withCmd_res (s : State) (w : Word) :
    (s.withCmd w).res = s.res := rfl
@[simp] theorem State.withCmd_cmd (s : State) (w : Word) :
    (s.withCmd w).cmd = w := rfl
@[simp] theorem State.withCmd_err (s : State) (w : Word) :
    (s.withCmd w).err = s.err := rfl
@[simp] theorem State.withCmd_pending (s : State) (w : Word) :
    (s.withCmd w).pending = s.pending := rfl
@[simp] theorem State.withCmd_reads (s : State) (w : Word) :
    (s.withCmd w).reads = s.reads := rfl
@[simp] theorem State.withCmd_cfg (s : State) (w : Word) :
    (s.withCmd w).cfg = s.cfg := rfl

/-! withErr -/

@[simp] theorem State.withErr_opa (s : State) (e : BitVec 3) :
    (s.withErr e).opa = s.opa := rfl
@[simp] theorem State.withErr_opb (s : State) (e : BitVec 3) :
    (s.withErr e).opb = s.opb := rfl
@[simp] theorem State.withErr_res (s : State) (e : BitVec 3) :
    (s.withErr e).res = s.res := rfl
@[simp] theorem State.withErr_cmd (s : State) (e : BitVec 3) :
    (s.withErr e).cmd = s.cmd := rfl
@[simp] theorem State.withErr_err (s : State) (e : BitVec 3) :
    (s.withErr e).err = e := rfl
@[simp] theorem State.withErr_pending (s : State) (e : BitVec 3) :
    (s.withErr e).pending = s.pending := rfl
@[simp] theorem State.withErr_reads (s : State) (e : BitVec 3) :
    (s.withErr e).reads = s.reads := rfl
@[simp] theorem State.withErr_cfg (s : State) (e : BitVec 3) :
    (s.withErr e).cfg = s.cfg := rfl

/-! withPending -/

@[simp] theorem State.withPending_opa (s : State) (es : List HostEvent) :
    (s.withPending es).opa = s.opa := rfl
@[simp] theorem State.withPending_opb (s : State) (es : List HostEvent) :
    (s.withPending es).opb = s.opb := rfl
@[simp] theorem State.withPending_res (s : State) (es : List HostEvent) :
    (s.withPending es).res = s.res := rfl
@[simp] theorem State.withPending_cmd (s : State) (es : List HostEvent) :
    (s.withPending es).cmd = s.cmd := rfl
@[simp] theorem State.withPending_err (s : State) (es : List HostEvent) :
    (s.withPending es).err = s.err := rfl
@[simp] theorem State.withPending_pending (s : State) (es : List HostEvent) :
    (s.withPending es).pending = es := rfl
@[simp] theorem State.withPending_reads (s : State) (es : List HostEvent) :
    (s.withPending es).reads = s.reads := rfl
@[simp] theorem State.withPending_cfg (s : State) (es : List HostEvent) :
    (s.withPending es).cfg = s.cfg := rfl

/-! withRead -/

@[simp] theorem State.withRead_opa (s : State) (w : Word) :
    (s.withRead w).opa = s.opa := rfl
@[simp] theorem State.withRead_opb (s : State) (w : Word) :
    (s.withRead w).opb = s.opb := rfl
@[simp] theorem State.withRead_res (s : State) (w : Word) :
    (s.withRead w).res = s.res := rfl
@[simp] theorem State.withRead_cmd (s : State) (w : Word) :
    (s.withRead w).cmd = s.cmd := rfl
@[simp] theorem State.withRead_err (s : State) (w : Word) :
    (s.withRead w).err = s.err := rfl
@[simp] theorem State.withRead_pending (s : State) (w : Word) :
    (s.withRead w).pending = s.pending := rfl
@[simp] theorem State.withRead_reads (s : State) (w : Word) :
    (s.withRead w).reads = w :: s.reads := rfl
@[simp] theorem State.withRead_cfg (s : State) (w : Word) :
    (s.withRead w).cfg = s.cfg := rfl

/-! raiseError -/

@[simp] theorem State.raiseError_opa (s : State) (e : ErrKind) :
    (s.raiseError e).opa = s.opa := rfl
@[simp] theorem State.raiseError_opb (s : State) (e : ErrKind) :
    (s.raiseError e).opb = s.opb := rfl
@[simp] theorem State.raiseError_res (s : State) (e : ErrKind) :
    (s.raiseError e).res = s.res := rfl
@[simp] theorem State.raiseError_cmd (s : State) (e : ErrKind) :
    (s.raiseError e).cmd = s.cmd := rfl
@[simp] theorem State.raiseError_err (s : State) (e : ErrKind) :
    (s.raiseError e).err = e.code := rfl
@[simp] theorem State.raiseError_pending (s : State) (e : ErrKind) :
    (s.raiseError e).pending = s.pending := rfl
@[simp] theorem State.raiseError_reads (s : State) (e : ErrKind) :
    (s.raiseError e).reads = s.reads := rfl
@[simp] theorem State.raiseError_cfg (s : State) (e : ErrKind) :
    (s.raiseError e).cfg = s.cfg := rfl

/-! succeed -/

@[simp] theorem State.succeed_opa (s : State) (r : Octo) :
    (s.succeed r).opa = s.opa := rfl
@[simp] theorem State.succeed_opb (s : State) (r : Octo) :
    (s.succeed r).opb = s.opb := rfl
@[simp] theorem State.succeed_res (s : State) (r : Octo) :
    (s.succeed r).res = r := rfl
@[simp] theorem State.succeed_cmd (s : State) (r : Octo) :
    (s.succeed r).cmd = s.cmd := rfl
@[simp] theorem State.succeed_err (s : State) (r : Octo) :
    (s.succeed r).err = 0#3 := rfl
@[simp] theorem State.succeed_pending (s : State) (r : Octo) :
    (s.succeed r).pending = s.pending := rfl
@[simp] theorem State.succeed_reads (s : State) (r : Octo) :
    (s.succeed r).reads = s.reads := rfl
@[simp] theorem State.succeed_cfg (s : State) (r : Octo) :
    (s.succeed r).cfg = s.cfg := rfl

/-! blockReset -/

@[simp] theorem State.blockReset_opa (s : State) :
    (s.blockReset).opa = Quad.zero := rfl
@[simp] theorem State.blockReset_opb (s : State) :
    (s.blockReset).opb = Quad.zero := rfl
@[simp] theorem State.blockReset_res (s : State) :
    (s.blockReset).res = Octo.zero := rfl
@[simp] theorem State.blockReset_cmd (s : State) :
    (s.blockReset).cmd = 0#32 := rfl
@[simp] theorem State.blockReset_err (s : State) :
    (s.blockReset).err = 0#3 := rfl
@[simp] theorem State.blockReset_pending (s : State) :
    (s.blockReset).pending = s.pending := rfl
@[simp] theorem State.blockReset_reads (s : State) :
    (s.blockReset).reads = s.reads := rfl
@[simp] theorem State.blockReset_cfg (s : State) :
    (s.blockReset).cfg = s.cfg := rfl

/-! The updates of a whole command, as record updates. -/

theorem State.raiseError_eq (s : State) (e : ErrKind) : s.raiseError e = { s with err := e.code } := rfl

theorem State.succeed_eq (s : State) (r : Octo) : s.succeed r = { s with res := r, err := 0#3 } := rfl

end Sys2Proof.Machine
end

