-- ==== Sys2Proof/Laws/Operands.lean ====
section
/-! SUPPORT. Limbs and wide integers, Pack and the decimal layout. -/

namespace Sys2Proof.Machine

open Sys2Proof

/-! Limbs. -/

@[simp] theorem ofLimbs_nil : ofLimbs [] = 0 := rfl

@[simp] theorem ofLimbs_cons (w : Word) (ws : List Word) :
    ofLimbs (w :: ws) = w.toNat + 2 ^ 32 * ofLimbs ws := rfl

@[simp] theorem limbs_zero (v : Nat) : limbs 0 v = [] := rfl

@[simp] theorem limbs_succ (n v : Nat) :
    limbs (n + 1) v = BitVec.ofNat 32 v :: limbs n (v / 2 ^ 32) := rfl

theorem limbs_length (n v : Nat) : (limbs n v).length = n := by
  induction n generalizing v with
  | zero => rfl
  | succ n ih => simp [ih]

theorem ofLimbs_append (xs ys : List Word) :
    ofLimbs (xs ++ ys) = ofLimbs xs + 2 ^ (32 * xs.length) * ofLimbs ys := by
  induction xs with
  | nil => simp
  | cons w ws ih =>
    simp only [List.cons_append, ofLimbs_cons, ih, List.length_cons]
    ring

/-- Writing a value into n words keeps it modulo 2^(32n) (00_scope.md R9). -/
theorem ofLimbs_limbs_mod (n v : Nat) : ofLimbs (limbs n v) = v % 2 ^ (32 * n) := by
  induction n generalizing v with
  | zero => simp [Nat.mod_one]
  | succ n ih =>
    rw [limbs_succ, ofLimbs_cons, ih, BitVec.toNat_ofNat, Nat.mul_succ, Nat.add_comm (32 * n),
      Nat.pow_add, Nat.mod_mul]

/-- A value that fits n words is kept (00_scope.md R9). -/
theorem ofLimbs_limbs {n v : Nat} (h : v < 2 ^ (32 * n)) : ofLimbs (limbs n v) = v := by
  rw [ofLimbs_limbs_mod, Nat.mod_eq_of_lt h]

/-- Words hold less than 2^(32n) (00_scope.md R8). -/
theorem ofLimbs_lt (ws : List Word) : ofLimbs ws < 2 ^ (32 * ws.length) := by
  induction ws with
  | nil => simp
  | cons w ws ih =>
    have hw := w.isLt
    rw [ofLimbs_cons, List.length_cons, Nat.mul_succ, Nat.pow_add, Nat.mul_comm (2 ^ (32 * _))]
    omega

theorem Quad.u32_lt (q : Quad) : q.u32 < 2 ^ 32 := q.w0.isLt

theorem Quad.u64_lt (q : Quad) : q.u64 < 2 ^ 64 := ofLimbs_lt [q.w0, q.w1]

theorem Quad.u96_lt (q : Quad) : q.u96 < 2 ^ 96 := ofLimbs_lt [q.w0, q.w1, q.w2]

theorem Quad.u128_lt (q : Quad) : q.u128 < 2 ^ 128 := ofLimbs_lt q.words

theorem u192_lt (a b : Quad) : u192 a b < 2 ^ 192 := ofLimbs_lt [a.w0, a.w1, a.w2, a.w3, b.w0, b.w1]

theorem Quad.u96_le_MMAX (q : Quad) : q.u96 ≤ MMAX := by
  have h := q.u96_lt
  unfold MMAX
  omega

/-- The words of eight limbs, read back (30_encoding.md R56). -/
theorem resWords_limbs_words {n v : Nat} (hn : n ≤ 8) (hv : v < 2 ^ (32 * n)) :
    ofLimbs (resWords (limbs n v)).words = v := by
  have key : ofLimbs (resWords (limbs n v)).words = ofLimbs (limbs n v) := by
    interval_cases n <;> simp [resWords, Octo.words]
  rw [key, ofLimbs_limbs hv]

/-! Pack and the decimal view. -/

/-- A triple that Pack admits: a scale of at most 28 and a mantissa of 96 bits (10_state.md R24). -/
theorem Dec.fits_iff (d : Dec) : d.fits = true ↔ d.scale ≤ 28 ∧ d.mant < 2 ^ 96 := by
  rw [Dec.fits, Bool.and_eq_true, decide_eq_true_iff, decide_eq_true_iff]
  unfold scaleMax MMAX
  omega

/-- The mantissa words of Pack hold the mantissa (10_state.md R24). -/
theorem pack_u96 {d : Dec} (h : d.fits = true) : (pack d).u96 = d.mant := by
  have hm := ((Dec.fits_iff d).mp h).2
  have : (pack d).u96 = ofLimbs (limbs 3 d.mant) := by
    simp [pack, Quad.u96, Nat.div_div_eq_div_mul]
  rw [this, ofLimbs_limbs hm]

/-- The flags word, one scale at a time: its reserved bits, its scale field and its sign (10_state.md R21, R24). -/
theorem flagsWord_fields (s : Bool) {e : Nat} (he : e ≤ 28) :
    (flagsWord s e).extractLsb' 24 7 = 0#7 ∧ (flagsWord s e).extractLsb' 0 16 = 0#16 ∧
      ((flagsWord s e).extractLsb' 16 8).toNat = e ∧ (flagsWord s e).getLsbD 31 = s := by
  cases s <;> interval_cases e <;> decide

/-- The reserved bits 30:24 and 15:0 as one mask (10_state.md R21). -/
theorem reservedZero_iff_mask (q : Quad) : q.reservedZero = true ↔ q.w3 &&& 0x7F00FFFF#32 = 0#32 := by
  simp only [Quad.reservedZero, Bool.and_eq_true, beq_iff_eq]
  constructor
  · rintro ⟨h1, h2⟩
    have e1 : ∀ j, j < 7 → q.w3.getLsbD (24 + j) = false := fun j hj => by
      simpa [hj] using congrArg (fun x => x.getLsbD j) h1
    have e2 : ∀ j, j < 16 → q.w3.getLsbD j = false := fun j hj => by
      simpa [hj] using congrArg (fun x => x.getLsbD j) h2
    ext i hi
    have a1 := e1 (i - 24)
    have a2 := e2 i
    interval_cases i <;> simp_all
  · intro h
    have e : ∀ j, (q.w3.getLsbD j && (0x7F00FFFF#32).getLsbD j) = false := fun j => by
      simpa only [BitVec.getLsbD_and, BitVec.getLsbD_zero] using congrArg (fun x => x.getLsbD j) h
    clear h
    constructor
    · ext i hi
      have a := e (24 + i)
      interval_cases i <;> simp_all
    · ext i hi
      have a := e i
      interval_cases i <;> simp_all

/-- A quadruple is valid when no reserved bit is set and its scale is at most 28 (10_state.md R22). -/
theorem valid_iff_mask (q : Quad) :
    q.valid = true ↔ q.w3 &&& 0x7F00FFFF#32 = 0#32 ∧ (q.w3.extractLsb' 16 8).toNat ≤ 28 := by
  rw [← reservedZero_iff_mask, Quad.valid, Bool.and_eq_true, decide_eq_true_iff]
  rfl

/-- Pack writes a valid quadruple (10_state.md R24). -/
theorem pack_valid {d : Dec} (h : d.fits = true) : (pack d).valid = true := by
  have he := ((Dec.fits_iff d).mp h).1
  obtain ⟨h1, h2, h3, -⟩ := flagsWord_fields d.sign he
  simp [Quad.valid, Quad.reservedZero, Quad.scaleField, pack, h1, h2, h3, scaleMax, he]

/-- Reading a packed decimal gives it back (10_state.md R21, R24). -/
theorem dec_pack {d : Dec} (h : d.fits = true) : (pack d).dec = d := by
  have he := ((Dec.fits_iff d).mp h).1
  obtain ⟨-, -, h3, h4⟩ := flagsWord_fields d.sign he
  have hm := pack_u96 h
  cases d
  simp_all [Quad.dec, Quad.scaleField, pack]

/-- The decimal of a valid quadruple meets Pack's requirements (10_state.md R22, R24). -/
theorem dec_fits {q : Quad} (h : q.valid = true) : q.dec.fits = true := by
  have := q.u96_le_MMAX
  simp_all [Quad.valid, Dec.fits, Quad.dec]

end Sys2Proof.Machine
end

