-- ==== Sys2Proof/Laws/Ops.lean ====
section
/-! SUPPORT. What the end of a command can do, once: every later proof about a command cites these lemmas. -/

namespace Sys2Proof.Machine

open Sys2Proof

/-- An error never reports OK (10_state.md R19). -/
@[simp] theorem ErrKind.code_ne_zero (e : ErrKind) : e.code ≠ 0#3 := by cases e <;> decide

/-- The codes of the error kinds are distinct (10_state.md R19). -/
theorem ErrKind.code_injective {e e' : ErrKind} (h : e.code = e'.code) : e = e' := by
  cases e <;> cases e' <;> first | rfl | exact absurd h (by decide)

@[simp] theorem complete_ok (r : Octo) (s : State) : complete (.ok r) s = .next (s.succeed r) := rfl

@[simp] theorem complete_error (e : ErrKind) (s : State) :
    complete (.error e) s = .next (s.raiseError e) := rfl

/-- Everything the end of a command can do (30_encoding.md R46): a success, or an error. -/
theorem complete_cases {o : Except ErrKind Octo} {s t : State} (h : complete o s = .next t) :
    (∃ r, o = .ok r ∧ t = s.succeed r) ∨ ∃ e, o = .error e ∧ t = s.raiseError e := by
  cases o with
  | ok r => exact .inl ⟨r, rfl, by simpa using h.symm⟩
  | error e => exact .inr ⟨e, rfl, by simpa using h.symm⟩

/-- A command's end is always a next state (60_exceptions.md R153). -/
theorem complete_next (o : Except ErrKind Octo) (s : State) : ∃ t, complete o s = .next t := by
  cases o <;> exact ⟨_, rfl⟩

@[simp] theorem readDec_valid {q : Quad} (h : q.valid = true) : readDec q = .ok q.dec := by
  simp [readDec, h]

@[simp] theorem readDec_invalid {q : Quad} (h : q.valid = false) :
    readDec q = .error .invalidRepresentation := by simp [readDec, h]

@[simp] theorem decOutcome_ok (d : Dec) : decOutcome (.ok d) = .ok (decResult d) := rfl

@[simp] theorem decOutcome_error (e : ErrKind) : decOutcome (.error e) = .error e := rfl

/-- A command on one valid decimal operand (30_encoding.md R52). -/
theorem unaryDec_valid (f : Dec → Except ErrKind Octo) {s : State} (h : s.opa.valid = true) :
    unaryDec f s = complete (f s.opa.dec) s := by simp [unaryDec, h]

/-- A command on an invalid operand (60_exceptions.md R141). -/
theorem unaryDec_invalid (f : Dec → Except ErrKind Octo) {s : State} (h : s.opa.valid = false) :
    unaryDec f s = .next (s.raiseError .invalidRepresentation) := by simp [unaryDec, h]

/-- A command on two valid decimal operands (30_encoding.md R52). -/
theorem binaryDec_valid (f : Dec → Dec → Except ErrKind Octo) {s : State}
    (ha : s.opa.valid = true) (hb : s.opb.valid = true) :
    binaryDec f s = complete (f s.opa.dec s.opb.dec) s := by simp [binaryDec, ha, hb]

/-- An invalid OPA is reported first (60_exceptions.md R143). -/
theorem binaryDec_invalid_opa (f : Dec → Dec → Except ErrKind Octo) {s : State}
    (ha : s.opa.valid = false) :
    binaryDec f s = .next (s.raiseError .invalidRepresentation) := by simp [binaryDec, ha]

/-- An invalid OPB is reported next (60_exceptions.md R143). -/
theorem binaryDec_invalid_opb (f : Dec → Dec → Except ErrKind Octo) {s : State}
    (ha : s.opa.valid = true) (hb : s.opb.valid = false) :
    binaryDec f s = .next (s.raiseError .invalidRepresentation) := by simp [binaryDec, ha, hb]

/-- What a decimal outcome writes: the packed triple, 0 above it (00_scope.md R11, 30_encoding.md R56). -/
theorem decResult_eq (d : Dec) :
    decResult d =
      ⟨(pack d).w0, (pack d).w1, (pack d).w2, (pack d).w3, 0#32, 0#32, 0#32, 0#32⟩ := rfl

end Sys2Proof.Machine
end

