-- ==== Sys2Proof/Laws/Exec.lean ====
section
/-! SUPPORT. What exec can do, once: each command is the end of an outcome that is a function of its inputs (30_encoding.md R46, `Perform`). -/

namespace Sys2Proof.Machine

open Sys2Proof

/-- The decimal operand of a command, then its function. -/
def onDec (opa : Quad) (f : Dec → Except ErrKind Octo) : Except ErrKind Octo :=
  match readDec opa with | .error e => .error e | .ok a => f a

/-- The two decimal operands of a command, then its function. -/
def onDecs (opa opb : Quad) (f : Dec → Dec → Except ErrKind Octo) : Except ErrKind Octo :=
  match readDec opa with
  | .error e => .error e
  | .ok a => match readDec opb with | .error e => .error e | .ok b => f a b

/-- `Perform(op, MODE, K, OPA, OPB, DIV_NORMALIZE)` (30_encoding.md R46): the outcome of a command. -/
def perform (i : Instr) (opa opb : Quad) (normalize : Bool) : Except ErrKind Octo :=
  match i with
  | .ldw => onDec opa fun _ => .ok (resWords opa.words)
  | .mkparts => decOutcome (decOfParts opa opb)
  | .fromi32 => .ok (decResult (decOfInt opa.s32))
  | .fromu32 => .ok (decResult (decOfNat opa.u32))
  | .fromi64 => .ok (decResult (decOfInt opa.s64))
  | .fromu64 => .ok (decResult (decOfNat opa.u64))
  | .add => onDecs opa opb fun A B => decOutcome (addCore A B)
  | .sub => onDecs opa opb fun A B => decOutcome (addCore A B.negated)
  | .mul => onDecs opa opb fun A B => decOutcome (mulCore A B)
  | .div => onDecs opa opb fun A B => decOutcome (divCore normalize A B)
  | .rem => onDecs opa opb fun A B => decOutcome (remCore A B)
  | .round mode k => onDec opa fun A => .ok (decResult (roundCore A mode k))
  | .cmp => onDecs opa opb fun A B => .ok (resWords [orderingWord (cmpCore A B)])
  | .norm => onDec opa fun A => .ok (decResult (normCore A))
  | .tof64 => onDec opa fun A => .ok (resWords (limbs 2 (toDouble A)))
  | .tof32 => onDec opa fun A => .ok (resWords (limbs 1 (toSingle A)))
  | .fromf64 => decOutcome (fromFloat binary64 f64Digits opa.u64)
  | .fromf32 => decOutcome (fromFloat binary32 f32Digits opa.u32)
  | .fromcy => .ok (decResult (decOfCurrency opa.s64))
  | .tocy =>
    onDec opa fun A => match toCurrency A with | .error err => .error err | .ok c => .ok (currencyWords c)
  | .mul96x32 => .ok (resWords (limbs 4 (opa.u96 * opb.u32)))
  | .mul96x64 => .ok (resWords (limbs 5 (opa.u96 * opb.u64)))
  | .mul96x96 => .ok (resWords (limbs 6 (opa.u96 * opb.u96)))
  | .div96x32 => divide 3 1 opa.u96 opb.u32
  | .div96x64 => divide 3 2 opa.u96 opb.u64
  | .div128x96 => divide 4 3 opa.u128 opb.u96
  | .lzc32 => .ok (resWords [BitVec.ofNat 32 (lzc 32 opa.u32)])
  | .lzc96 => .ok (resWords [BitVec.ofNat 32 (lzc 96 opa.u96)])
  | .pow10mul k => .ok (resWords (limbs 6 (scaleUp opa.u96 k)))
  | .scaleres k => decOutcome (scaleresDec (u192 opa opb) k)

/-- Every command is the end of its outcome: the one lemma about exec that frames, completion and determinism cite. -/
theorem exec_eq_complete (i : Instr) (s : State) :
    exec i s = complete (perform i s.opa s.opb s.cfg.divNormalize) s := by
  cases i <;> rfl

/-- Everything exec can do (30_encoding.md R46): a success that writes RES and ERR, or an error that writes ERR alone. -/
theorem exec_cases {i : Instr} {s t : State} (h : exec i s = .next t) :
    (∃ r, perform i s.opa s.opb s.cfg.divNormalize = .ok r ∧ t = s.succeed r) ∨
      ∃ e, perform i s.opa s.opb s.cfg.divNormalize = .error e ∧ t = s.raiseError e :=
  complete_cases (exec_eq_complete i s ▸ h)

end Sys2Proof.Machine
end

