-- ==== Sys2Proof/Laws/PerInstr.lean ====
section
/-! SUPPORT. A statement about every command, one lemma per constructor: the assembled word leaves the reserved fields 0 (30_encoding.md R45, R58). -/

namespace Sys2Proof.Laws.ReservedFieldsZero

open Sys2Proof

/-- The word of a well-formed command has RSV0 and RSV1 at 0 (30_encoding.md R45). -/
def Statement (i : Instr) : Prop :=
  i.wf = true → rsv0Field (encode i) = 0#5 ∧ rsv1Field (encode i) = 0#10

theorem ldw : Statement .ldw := fun _ => by decide

theorem mkparts : Statement .mkparts := fun _ => by decide

theorem fromi32 : Statement .fromi32 := fun _ => by decide

theorem fromu32 : Statement .fromu32 := fun _ => by decide

theorem fromi64 : Statement .fromi64 := fun _ => by decide

theorem fromu64 : Statement .fromu64 := fun _ => by decide

theorem add : Statement .add := fun _ => by decide

theorem sub : Statement .sub := fun _ => by decide

theorem mul : Statement .mul := fun _ => by decide

theorem div : Statement .div := fun _ => by decide

theorem rem : Statement .rem := fun _ => by decide

theorem round (mode : RoundMode) (k : Nat) : Statement (.round mode k) := by
  intro h
  have hk : k ≤ 28 := of_decide_eq_true h
  cases mode <;> interval_cases k <;> decide

theorem cmp : Statement .cmp := fun _ => by decide

theorem norm : Statement .norm := fun _ => by decide

theorem tof64 : Statement .tof64 := fun _ => by decide

theorem tof32 : Statement .tof32 := fun _ => by decide

theorem fromf64 : Statement .fromf64 := fun _ => by decide

theorem fromf32 : Statement .fromf32 := fun _ => by decide

theorem fromcy : Statement .fromcy := fun _ => by decide

theorem tocy : Statement .tocy := fun _ => by decide

theorem mul96x32 : Statement .mul96x32 := fun _ => by decide

theorem mul96x64 : Statement .mul96x64 := fun _ => by decide

theorem mul96x96 : Statement .mul96x96 := fun _ => by decide

theorem div96x32 : Statement .div96x32 := fun _ => by decide

theorem div96x64 : Statement .div96x64 := fun _ => by decide

theorem div128x96 : Statement .div128x96 := fun _ => by decide

theorem lzc32 : Statement .lzc32 := fun _ => by decide

theorem lzc96 : Statement .lzc96 := fun _ => by decide

theorem pow10mul (k : Nat) : Statement (.pow10mul k) := by
  intro h
  have hk : k ≤ 28 := of_decide_eq_true h
  interval_cases k <;> decide

theorem scaleres (k : Nat) : Statement (.scaleres k) := by
  intro h
  have hk : k ≤ 56 := of_decide_eq_true h
  interval_cases k <;> decide

end Sys2Proof.Laws.ReservedFieldsZero
end

