-- ==== Sys2Proof/Laws/Window.lean ====
section
/-! SUPPORT. The register window and the step: where each register stands, what an access can do, and everything one step can do. -/

namespace Sys2Proof.Machine

open Sys2Proof

/-- Each register stands at its own offset (20_memory.md R31). -/
theorem regAt_offset (r : Reg) : regAt r.offset = some r := by
  cases r with
  | opa i => revert i; decide
  | opb i => revert i; decide
  | res i => revert i; decide
  | cmd => rfl
  | status => rfl

/-- An access the block defines is performed at its offset (20_memory.md R32). -/
theorem access_word {s : State} {off : Nat} (h : off < 0x80) (ha : off % 4 = 0)
    (perform : Nat → Host.Outcome State Fault Refusal) :
    access s (s.cfg.base + off) .word perform = perform off := by
  simp [access, inWindow, windowBytes, h, ha]

/-- Everything an access can do: it is performed, or it stops the host (20_memory.md R32). -/
theorem access_next {s t : State} {addr : Nat} {width : AccessWidth}
    {perform : Nat → Host.Outcome State Fault Refusal}
    (h : access s addr width perform = .next t) :
    s.cfg.base ≤ addr ∧ addr < s.cfg.base + 0x80 ∧ width = .word ∧
      (addr - s.cfg.base) % 4 = 0 ∧ perform (addr - s.cfg.base) = .next t := by
  unfold access at h
  split at h
  · simp at h
  · next hw =>
    split at h
    · simp at h
    · next hwd =>
      split at h
      · simp at h
      · next hal =>
        simp [inWindow, windowBytes] at hw
        exact ⟨hw.1, hw.2, by simpa using hwd, by simpa using hal, h⟩

/-- A write to CMD performs the word (30_encoding.md R46). -/
theorem windowWrite_cmd (s : State) (w : Word) : windowWrite s 0x40 w = execute w s := rfl

/-- A legal word is performed with CMD holding it (30_encoding.md R46). -/
theorem execute_ok {w : Word} {i : Instr} (h : decode w = .ok i) (s : State) :
    execute w s = exec i (s.withCmd w) := by simp [execute, h]

/-- An illegal word writes ERR alone (30_encoding.md R50). -/
theorem execute_error {w : Word} {e : DecodeError} (h : decode w = .error e) (s : State) :
    execute w s = .next (illegalWord (s.withCmd w)) := by simp [execute, h]

/-- Performing a word is always a next state (60_exceptions.md R153). -/
theorem execute_next (w : Word) (s : State) : ∃ t, execute w s = .next t := by
  unfold execute
  split
  · exact ⟨_, rfl⟩
  · rw [exec_eq_complete]
    exact complete_next _ _

/-- The block under a launch that keeps the contract (20_memory.md R39, R41). -/
theorem step_inContract {s : State} (h : s.cfg.launch = .inContract) : step s = performNext s := by
  simp [step, stepOf, h]

/-- The oldest event is performed (20_memory.md R39). -/
theorem step_event {s : State} {e : HostEvent} {rest : List HostEvent}
    (hl : s.cfg.launch = .inContract) (hp : s.pending = e :: rest) :
    step s = performEvent e (s.withPending rest) := by
  simp [step_inContract hl, performNext, hp]

/-- Everything a step can do: the block holds its registers, or it performs the oldest event. -/
theorem step_cases {s t : State} (h : step s = .next t) :
    s.cfg.launch = .inContract ∧
      ((s.pending = [] ∧ t = s) ∨
        ∃ e rest, s.pending = e :: rest ∧ performEvent e (s.withPending rest) = .next t) := by
  unfold step stepOf at h
  split at h
  · simp at h
  · simp at h
  · next hl =>
    refine ⟨hl, ?_⟩
    unfold performNext at h
    split at h
    · next hp => exact .inl ⟨hp, by simpa using h.symm⟩
    · next e rest hp => exact .inr ⟨e, rest, hp, h⟩

end Sys2Proof.Machine
end

