-- ==== Sys2Proof/Tests/Slice0.lean ====
section
/-! SUPPORT. Tests of the model: well-formedness, the words of the spec, one step of each command on vectors of 95_test_vectors.md, and a witness for the hypotheses of each obligation. -/

namespace Sys2Proof.Tests

open Sys2Proof Sys2Proof.Machine

/-! ## Well-formedness: a term for each check, which the check refuses (30_encoding.md R49 (c)) -/

theorem test_wf_round_refuses_k_29 : (Instr.round .rne 29).wf = false := by decide

theorem test_wf_pow10mul_refuses_k_29 : (Instr.pow10mul 29).wf = false := by decide

theorem test_wf_scaleres_refuses_k_57 : (Instr.scaleres 57).wf = false := by decide

theorem test_wf_admits_the_greatest_k :
    (Instr.round .ceil 28).wf = true ∧ (Instr.pow10mul 28).wf = true ∧
      (Instr.scaleres 56).wf = true := by decide

/-! ## Decoding: words written out from the encodings of 30_encoding.md R45, R48, R58 -/

theorem test_decode_construct :
    decode 0x00000001#32 = .ok .ldw ∧
      decode 0x00000002#32 = .ok .mkparts ∧
      decode 0x00000003#32 = .ok .fromi32 ∧
      decode 0x00000004#32 = .ok .fromu32 ∧
      decode 0x00000005#32 = .ok .fromi64 ∧
      decode 0x00000006#32 = .ok .fromu64 := by decide

theorem test_decode_arithmetic :
    decode 0x00000010#32 = .ok .add ∧
      decode 0x00000011#32 = .ok .sub ∧
      decode 0x00000012#32 = .ok .mul ∧
      decode 0x00000013#32 = .ok .div ∧
      decode 0x00000014#32 = .ok .rem := by decide

theorem test_decode_round :
    decode 0x00020018#32 = .ok (.round .rne 2) ∧
      decode 0x00000118#32 = .ok (.round .away 0) ∧
      decode 0x00000218#32 = .ok (.round .trunc 0) ∧
      decode 0x001C0318#32 = .ok (.round .floor 28) ∧
      decode 0x00020418#32 = .ok (.round .ceil 2) := by decide

theorem test_decode_compare :
    decode 0x00000019#32 = .ok .cmp ∧
      decode 0x0000001A#32 = .ok .norm := by decide

theorem test_decode_convert :
    decode 0x00000020#32 = .ok .tof64 ∧
      decode 0x00000021#32 = .ok .tof32 ∧
      decode 0x00000022#32 = .ok .fromf64 ∧
      decode 0x00000023#32 = .ok .fromf32 ∧
      decode 0x00000024#32 = .ok .fromcy ∧
      decode 0x00000025#32 = .ok .tocy := by decide

theorem test_decode_primitives :
    decode 0x00000030#32 = .ok .mul96x32 ∧
      decode 0x00000031#32 = .ok .mul96x64 ∧
      decode 0x00000032#32 = .ok .mul96x96 ∧
      decode 0x00000034#32 = .ok .div96x32 ∧
      decode 0x00000035#32 = .ok .div96x64 ∧
      decode 0x00000036#32 = .ok .div128x96 ∧
      decode 0x00000038#32 = .ok .lzc32 ∧
      decode 0x00000039#32 = .ok .lzc96 ∧
      decode 0x0005003A#32 = .ok (.pow10mul 5) ∧
      decode 0x0038003B#32 = .ok (.scaleres 56) := by decide

/-- R49 (a), (b), (c) and R51: the illegal words of 95_test_vectors.md section 2.9, each for its own reason. -/
theorem test_decode_refuses :
    decode 0x00000000#32 = .error .reservedOpcode ∧ decode 0x00000810#32 = .error .reservedField ∧
      decode 0x00400010#32 = .error .reservedField ∧ decode 0x00000110#32 = .error .modeUnused ∧
      decode 0x00010010#32 = .error .kUnused ∧ decode 0x00000518#32 = .error .modeOutOfRange ∧
      decode 0x001D0018#32 = .error .kOutOfRange ∧ decode 0x001D003A#32 = .error .kOutOfRange ∧
      decode 0x0039003B#32 = .error .kOutOfRange := by decide

/-- The bytes of a command word, in little-endian order, and a string that is not one word (R44). -/
theorem test_decode_bytes :
    decodeBytes [0x18#8, 0x03#8, 0x02#8, 0x00#8] = .ok (.round .floor 2) ∧
      decodeBytes [0x18#8, 0x03#8, 0x02#8] = .error .notOneWord ∧
      decodeTableWord 32 0x00020318 = some (.round .floor 2) ∧ decodeTableWord 32 0x110 = none := by
  decide

/-! ## One step of each command, on vectors of 95_test_vectors.md -/

/-- RES as an earlier command left it: a success replaces all of it, an error none of it. -/
def stale : Octo := ⟨9#32, 9#32, 9#32, 9#32, 9#32, 9#32, 9#32, 9#32⟩

/-- The block with two operands in place. -/
def block (a b : Quad) : State := { State.reset with opa := a, opb := b, res := stale }

/-- RES and ERR after the step that performs a command word. -/
def resultOf (w : Nat) (s : State) : Option (Octo × BitVec 3) :=
  match step (s.withFetchWord 32 w) with
  | .next t => some (t.res, t.err)
  | .fault _ => none
  | .refused _ => none

/-- A quadruple of register words. -/
def quad (a b c d : Nat) : Quad :=
  ⟨BitVec.ofNat 32 a, BitVec.ofNat 32 b, BitVec.ofNat 32 c, BitVec.ofNat 32 d⟩

/-- The words of a decimal (10_state.md R21), a negative sign as 1. -/
def dec (sign scale mant : Nat) : Quad :=
  quad mant (mant / 2 ^ 32) (mant / 2 ^ 64) (sign * 2 ^ 31 + scale * 2 ^ 16)

/-- A success with these words in RES. -/
def words (a b c d : Nat) (e f g h : Nat := 0) : Option (Octo × BitVec 3) :=
  some (⟨BitVec.ofNat 32 a, BitVec.ofNat 32 b, BitVec.ofNat 32 c, BitVec.ofNat 32 d,
    BitVec.ofNat 32 e, BitVec.ofNat 32 f, BitVec.ofNat 32 g, BitVec.ofNat 32 h⟩, 0#3)

/-- A success with a decimal in RES. -/
def decimal (sign scale mant : Nat) : Option (Octo × BitVec 3) :=
  words mant (mant / 2 ^ 32) (mant / 2 ^ 64) (sign * 2 ^ 31 + scale * 2 ^ 16)

/-- An error: its code, and RES as it was (60_exceptions.md R145). -/
def error (code : Nat) : Option (Octo × BitVec 3) := some (stale, BitVec.ofNat 3 code)

theorem test_ldw_copies_words :
    resultOf 0x00000001 (block (quad 0x7b 0 0 0x80020000) Quad.zero) =
      words 0x7b 0 0 0x80020000 := by rfl

theorem test_ldw_refuses_reserved_bit :
    resultOf 0x00000001 (block (quad 5 0 0 0x8000) Quad.zero) =
      error 3 := by rfl

theorem test_mkparts_ignores_other_words :
    resultOf 0x00000002 (block (quad 0x7b 0 0 7) (quad 1 2 9 9)) =
      words 0x7b 0 0 0x80020000 := by rfl

theorem test_mkparts_refuses_wide_scale :
    resultOf 0x00000002 (block (quad 1 0 0 0) (quad 0 0x100 0 0)) =
      error 3 := by rfl

theorem test_fromi32_minus_one :
    resultOf 0x00000003 (block (quad 0xffffffff 7 7 7) Quad.zero) =
      words 1 0 0 0x80000000 := by rfl

theorem test_fromi32_least :
    resultOf 0x00000003 (block (quad 0x80000000 0 0 0) Quad.zero) =
      words 0x80000000 0 0 0x80000000 := by rfl

theorem test_fromu32_greatest :
    resultOf 0x00000004 (block (quad 0xffffffff 7 7 7) Quad.zero) =
      words 0xffffffff 0 0 0 := by rfl

theorem test_fromi64_minus_two :
    resultOf 0x00000005 (block (quad 0xfffffffe 0xffffffff 7 7) Quad.zero) =
      words 2 0 0 0x80000000 := by rfl

theorem test_fromi64_least :
    resultOf 0x00000005 (block (quad 0 0x80000000 0 0) Quad.zero) =
      words 0 0x80000000 0 0x80000000 := by rfl

theorem test_fromu64_two_words :
    resultOf 0x00000006 (block (quad 0 1 7 7) Quad.zero) =
      words 0 1 0 0 := by rfl

theorem test_add_rounds_opposite_signs :
    resultOf 0x00000010 (block (dec 0 0 79228162514264337593543950335) (dec 1 28 79228162514264337593543950335)) =
      decimal 0 0 79228162514264337593543950327 := by rfl

theorem test_add_tie_overflows :
    resultOf 0x00000010 (block (dec 0 0 79228162514264337593543950335) (dec 0 1 5)) =
      error 1 := by rfl

theorem test_sub_tie_rounds_to_even :
    resultOf 0x00000011 (block (dec 0 0 79228162514264337593543950335) (dec 0 1 5)) =
      decimal 0 0 79228162514264337593543950334 := by rfl

theorem test_sub_gives_negative :
    resultOf 0x00000011 (block (dec 0 1 15) (dec 0 0 2)) =
      words 5 0 0 0x80010000 := by rfl

theorem test_mul_wide_product :
    resultOf 0x00000012 (block (dec 0 28 79228162514264337593543950335) (dec 0 28 79228162514264337593543950335)) =
      decimal 0 27 62771017353866807638357894230 := by rfl

theorem test_mul_zero_is_positive :
    resultOf 0x00000012 (block (dec 1 0 0) (dec 0 0 1)) =
      decimal 0 0 0 := by rfl

theorem test_div_final_carry :
    resultOf 0x00000013 (block (dec 0 27 55459713759985036315480765235) (dec 0 0 7)) =
      decimal 0 27 7922816251426433759354395034 := by rfl

/-- 44_divmod.md R107 with DIV_NORMALIZE = false: 1 / 4 keeps its nine added digits. -/
theorem test_div_without_normalization :
    resultOf 0x00000013
        { block (dec 0 0 1) (dec 0 0 4) with cfg := { Config.default with divNormalize := false } } =
      decimal 0 9 250000000 := by rfl

theorem test_rem_wide_dividend :
    resultOf 0x00000014 (block (dec 1 28 79228162514264337593543950335) (dec 0 0 1)) =
      decimal 1 28 9228162514264337593543950335 := by rfl

theorem test_rem_zero_divisor :
    resultOf 0x00000014 (block (dec 0 0 0) (dec 0 0 0)) =
      error 2 := by rfl

theorem test_round_away_from_tie :
    resultOf 0x00020118 (block (dec 0 3 2345) Quad.zero) =
      decimal 0 2 235 := by rfl

theorem test_round_floor_of_negative :
    resultOf 0x00020318 (block (dec 1 3 2345) Quad.zero) =
      decimal 1 2 235 := by rfl

theorem test_cmp_negative_is_less :
    resultOf 0x00000019 (block (dec 1 0 79228162514264337593543950335) (dec 1 28 1)) =
      words 0xffffffff 0 0 0 := by rfl

theorem test_cmp_equal_at_other_scale :
    resultOf 0x00000019 (block (dec 0 1 3) (dec 0 2 30)) =
      words 0 0 0 0 := by rfl

theorem test_norm_strips :
    resultOf 0x0000001A (block (dec 0 4 12300) Quad.zero) =
      words 0x7b 0 0 0x20000 := by rfl

theorem test_norm_negative_zero :
    resultOf 0x0000001A (block (dec 1 7 0) Quad.zero) =
      words 0 0 0 0 := by rfl

theorem test_tof64_third :
    resultOf 0x00000020 (block (dec 0 28 3333333333333333333333333333) Quad.zero) =
      words 0x55555556 0x3fd55555 0 0 := by rfl

theorem test_tof64_applies_sign_last :
    resultOf 0x00000020 (block (dec 1 28 79228162514264337593543950335) Quad.zero) =
      words 0xbe50601a 0xc01fb0f6 0 0 := by rfl

theorem test_tof32_smallest_unit :
    resultOf 0x00000021 (block (dec 0 28 1) Quad.zero) =
      words 0x10fd87b6 0 0 0 := by rfl

theorem test_tof32_largest :
    resultOf 0x00000021 (block (dec 1 0 79228162514264337593543950335) Quad.zero) =
      words 0xef800000 0 0 0 := by rfl

theorem test_fromf64_third :
    resultOf 0x00000022 (block (quad 0x55555555 0x3fd55555 0 0) Quad.zero) =
      decimal 0 15 333333333333333 := by rfl

theorem test_fromf64_negative_scale :
    resultOf 0x00000022 (block (quad 0xffffffff 0x45efffff 0 0) Quad.zero) =
      decimal 0 0 79228162514264300000000000000 := by rfl

theorem test_fromf32_seven_digits :
    resultOf 0x00000023 (block (quad 0x6e013f39 0 0 0) Quad.zero) =
      decimal 0 0 9999999000000000000000000000 := by rfl

theorem test_fromf32_too_large :
    resultOf 0x00000023 (block (quad 0x7f7fffff 0 0 0) Quad.zero) =
      error 1 := by rfl

theorem test_fromcy_trims :
    resultOf 0x00000024 (block (quad 0xffff3cb0 0xffffffff 0 0) Quad.zero) =
      decimal 1 0 5 := by rfl

theorem test_fromcy_least :
    resultOf 0x00000024 (block (quad 0 0x80000000 0 0) Quad.zero) =
      decimal 1 4 9223372036854775808 := by rfl

theorem test_tocy_negative :
    resultOf 0x00000025 (block (dec 1 2 123) Quad.zero) =
      words 0xffffcff4 0xffffffff 0 0 := by rfl

theorem test_tocy_tie_overflows :
    resultOf 0x00000025 (block (dec 0 5 92233720368547758075) Quad.zero) =
      error 1 := by rfl

theorem test_mul96x32_all_ones :
    resultOf 0x00000030 (block (quad 0xffffffff 0xffffffff 0xffffffff 7) (quad 0xffffffff 7 7 7)) =
      words 1 0xffffffff 0xffffffff 0xfffffffe := by rfl

theorem test_mul96x64_all_ones :
    resultOf 0x00000031 (block (quad 0xffffffff 0xffffffff 0xffffffff 7) (quad 0xffffffff 0xffffffff 7 7)) =
      words 1 0 0xffffffff 0xfffffffe 0xffffffff := by rfl

theorem test_mul96x96_all_ones :
    resultOf 0x00000032 (block (quad 0xffffffff 0xffffffff 0xffffffff 7) (quad 0xffffffff 0xffffffff 0xffffffff 7)) =
      words 1 0 0 0xfffffffe 0xffffffff 0xffffffff := by rfl

theorem test_div96x32_by_ten :
    resultOf 0x00000034 (block (quad 0xffffffff 0xffffffff 0xffffffff 7) (quad 0xa 7 7 7)) =
      words 0x99999999 0x99999999 0x19999999 5 := by rfl

theorem test_div96x32_by_zero :
    resultOf 0x00000034 (block (quad 0xffffffff 0xffffffff 0xffffffff 0) (quad 0 7 7 7)) =
      error 2 := by rfl

theorem test_div96x64_wide_divisor :
    resultOf 0x00000035 (block (quad 0xffffffff 0xffffffff 0xffffffff 7) (quad 0x89e80000 0x8ac72304 0 0)) =
      words 0xd83c94fb 1 0 0xa987ffff 0x3b2df872 := by rfl

theorem test_div128x96_wide_divisor :
    resultOf 0x00000036 (block (quad 0x3039 0 0 0x80000000) (dec 0 0 10000000000000000000000000000)) =
      words 0xf61ed7ca 3 0 0 0x60003039 0x250cbaf9 0x18423af := by rfl

theorem test_lzc32_of_two_16 :
    resultOf 0x00000038 (block (quad 0x10000 7 7 7) Quad.zero) =
      words 0xf 0 0 0 := by rfl

theorem test_lzc32_of_zero :
    resultOf 0x00000038 (block (quad 0 7 7 7) Quad.zero) =
      words 0x20 0 0 0 := by rfl

theorem test_lzc96_of_ten_28 :
    resultOf 0x00000039 (block (dec 0 0 10000000000000000000000000000) Quad.zero) =
      words 2 0 0 0 := by rfl

theorem test_lzc96_of_zero :
    resultOf 0x00000039 (block (quad 0 0 0 7) Quad.zero) =
      words 0x60 0 0 0 := by rfl

theorem test_pow10mul_28 :
    resultOf 0x001C003A (block (quad 0xffffffff 0xffffffff 0xffffffff 7) Quad.zero) =
      words 0xf0000000 0xc1dafd9e 0xdfb031a1 0xfffffff 0x3e250261 0x204fce5e := by rfl

theorem test_scaleres_wide_product :
    resultOf 0x0038003B (block (quad 1 0 0 0xfffffffe) (quad 0xffffffff 0xffffffff 7 7)) =
      decimal 0 27 62771017353866807638357894230 := by rfl

theorem test_scaleres_overflows :
    resultOf 0x0000003B (block (quad 0 0 0 1) (quad 0 0 7 7)) =
      error 1 := by rfl

theorem test_illegal_word_comes_first :
    resultOf 0x00000113 (block (quad 0 0 0 1) Quad.zero) =
      error 4 := by rfl

theorem test_opa_is_checked_before_the_divisor :
    resultOf 0x00000013 (block (quad 0 0 0 1) (dec 0 0 0)) =
      error 3 := by rfl

/-! ## The window (20_memory.md R31 to R37) -/

/-- What a step answers, with the values the host has read. -/
def readsOf (o : Host.Outcome State Fault Refusal) : Option (List Word) :=
  match o with
  | .next t => some t.reads
  | .fault _ => none
  | .refused _ => none

/-- A block with one event pending, at BASE 0x1000. -/
def waiting (e : HostEvent) : State :=
  { block (quad 1 2 3 4) (quad 5 6 7 8) with
    cmd := 0x10#32, err := 1#3, pending := [e], cfg := { Config.default with base := 0x1000 } }

theorem test_read_opb_2 : readsOf (step (waiting (.read 0x1018 .word))) = some [7#32] := by decide

theorem test_read_status : readsOf (step (waiting (.read 0x1044 .word))) = some [1#32] := by decide

theorem test_read_hole : readsOf (step (waiting (.read 0x1048 .word))) = some [0#32] := by decide

theorem test_misaligned_read_is_stuck :
    step (waiting (.read 0x1042 .word)) = .fault .accessMisaligned := by rfl

theorem test_byte_write_is_stuck :
    step (waiting (.write 0x1040 .byte 0x10#32)) = .fault .accessWidth := by rfl

theorem test_access_past_the_window_is_refused :
    step (waiting (.read 0x1080 .word)) = .refused .outsideWindow := by rfl

/-- Evaluation over the byte image of -1.23 (20_memory.md R36). -/
theorem test_byte_image :
    (quad 0x7B 0 0 0x80020000).byteImage =
      [0x7B#8, 0#8, 0#8, 0#8, 0#8, 0#8, 0#8, 0#8, 0#8, 0#8, 0#8, 0#8, 0#8, 0#8, 0x02#8, 0x80#8] := by
  decide

/-! ## The host notation (30_encoding.md R59, R60) -/

/-- `LDA (0, 1, 1)` of program P1 is four writes. -/
theorem test_lda_expands :
    lda ⟨false, 1, 1⟩ =
      [.wr (.opa 0) (.imm 1#32), .wr (.opa 1) (.imm 0#32), .wr (.opa 2) (.imm 0#32),
       .wr (.opa 3) (.imm 0x00010000#32)] := by decide

/-- The host's place and register 0 after one instruction of a program. -/
def hostOf (o : Host.Outcome HostRun Fault Refusal) : Option (Nat × Word) :=
  match o with
  | .next h => some (h.pc, h.reg 0)
  | .fault _ => none
  | .refused _ => none

/-- `DIV ; RD t, STATUS` of program P7, at the read: STATUS was left at 2 by the reset operands. -/
theorem test_host_read :
    hostOf (hostStep [.command .div, .rd 0 .status]
      { pc := 1, regs := [], block := { State.reset with err := 2#3 } }) = some (2, 2#32) := by decide

/-- `BNE t, 0, 7` branches on a register that differs. -/
theorem test_host_branch :
    hostOf (hostStep [.bne 0 0#32 7] { pc := 0, regs := [(0, 2#32)], block := State.reset }) =
      some (7, 2#32) := by decide

/-! ## Witnesses: for each obligation with hypotheses, operands and states that meet them -/

/-- The state after a command. -/
def after (i : Instr) (s : State) : State :=
  match perform i s.opa s.opb s.cfg.divNormalize with
  | .ok r => s.succeed r
  | .error e => s.raiseError e

theorem exec_after (i : Instr) (s : State) : exec i s = .next (after i s) := by
  rw [exec_eq_complete]
  unfold after
  cases perform i s.opa s.opb s.cfg.divNormalize <;> rfl

/-- The greatest mantissa and scale, negative, and an operand of scale 0. -/
def extremes : State := block (dec 1 28 79228162514264337593543950335) (dec 0 0 10)

theorem extremes_valid : extremes.opa.valid = true ∧ extremes.opb.valid = true := by decide

theorem witness_DecodeOfEncodeGivesTheCommand :
    ∀ i ∈ [Instr.ldw, .round .rne 0, .round .ceil 28, .pow10mul 28, .scaleres 56], i.wf = true := by
  decide

theorem witness_DecodedWordIsTheEncodingOfItsCommand :
    decode 0x001C0418#32 = .ok (.round .ceil 28) ∧ decode 0x0038003B#32 = .ok (.scaleres 56) := by
  decide

theorem witness_DecodeFollowsTheFieldsAndTheTable :
    ∃ row ∈ opcodeRows, row.selects 0x001C003A#32 = true := by decide

theorem witness_StepRunsTheDecodedCommand :
    decode 0x10#32 = .ok .add ∧
      (waiting (.write 0x1040 .word 0x10#32)).cfg.launch = .inContract ∧
      (waiting (.write 0x1040 .word 0x10#32)).pending =
        .write ((waiting (.write 0x1040 .word 0x10#32)).cfg.base + 0x40) .word 0x10#32 :: [] := by
  decide

/-- A command word issued at BASE + 0x40. -/
theorem witness_IllegalWordsReportFourAndChangeNoResult (w : Word) :
    (waiting (.write 0x1040 .word w)).cfg.launch = .inContract ∧
      (waiting (.write 0x1040 .word w)).pending =
        .write ((waiting (.write 0x1040 .word w)).cfg.base + 0x40) .word w :: [] := ⟨rfl, rfl⟩

/-- A word of each kind, at the ends of each range of R51. -/
theorem witness_IllegalWords_of_each_kind :
    ∀ w ∈ [0x00#32, 0x07#32, 0x0F#32, 0x15#32, 0x17#32, 0x1B#32, 0x1F#32, 0x26#32, 0x2F#32, 0x33#32,
        0x37#32, 0x3C#32, 0xFF#32, 0x0810#32, 0x8010#32, 0x00400010#32, 0x80000010#32, 0x0110#32,
        0x0710#32, 0x00010010#32, 0x0518#32, 0x0718#32, 0x001D0018#32, 0x003F0018#32, 0x001D003A#32,
        0x0039003B#32],
      (let opc := (w.extractLsb' 0 8).toNat
       let mode := (w.extractLsb' 8 3).toNat
       let k := (w.extractLsb' 16 6).toNat
       (opc = 0x00 ∨ (0x07 ≤ opc ∧ opc ≤ 0x0F) ∨ (0x15 ≤ opc ∧ opc ≤ 0x17) ∨
          (0x1B ≤ opc ∧ opc ≤ 0x1F) ∨ (0x26 ≤ opc ∧ opc ≤ 0x2F) ∨ opc = 0x33 ∨ opc = 0x37 ∨
          0x3C ≤ opc) ∨
        w.extractLsb' 11 5 ≠ 0#5 ∨ w.extractLsb' 22 10 ≠ 0#10 ∨
        (mode ≠ 0 ∧ opc ≠ 0x18) ∨ (k ≠ 0 ∧ opc ≠ 0x18 ∧ opc ≠ 0x3A ∧ opc ≠ 0x3B) ∨
        (opc = 0x18 ∧ 4 < mode) ∨ (opc = 0x18 ∧ 28 < k) ∨ (opc = 0x3A ∧ 28 < k) ∨
        (opc = 0x3B ∧ 56 < k)) := by
  simp only [List.forall_mem_cons, List.not_mem_nil, false_implies, implies_true, and_true]
  refine ⟨?_, ?_, ?_, ?_, ?_, ?_, ?_, ?_, ?_, ?_, ?_, ?_, ?_, ?_, ?_, ?_, ?_, ?_, ?_, ?_, ?_, ?_, ?_,
    ?_, ?_, ?_⟩ <;> decide

theorem witness_HostReadsReturnTheRegisterAtTheOffset :
    ∀ off ∈ [0x00, 0x0C, 0x10, 0x1C, 0x20, 0x3C, 0x40, 0x44, 0x48, 0x7C],
      off < 0x80 ∧ off % 4 = 0 ∧ (waiting (.read (0x1000 + off) .word)).cfg.launch = .inContract ∧
        (waiting (.read (0x1000 + off) .word)).pending =
          .read ((waiting (.read (0x1000 + off) .word)).cfg.base + off) .word :: [] := by
  decide

/-- The ends of the operand registers, then RES, STATUS and the hole. -/
theorem witness_HostWritesChangeOneOperandRegisterOrNothing :
    (∀ off ∈ [0x00, 0x0C, 0x10, 0x1C, 0x20, 0x3C, 0x44, 0x48, 0x7C],
      off < 0x80 ∧ off % 4 = 0 ∧
        (waiting (.write (0x1000 + off) .word 7#32)).cfg.launch = .inContract ∧
        (waiting (.write (0x1000 + off) .word 7#32)).pending =
          .write ((waiting (.write (0x1000 + off) .word 7#32)).cfg.base + off) .word 7#32 :: []) ∧
      (∀ off ∈ [0x00, 0x1C], off < 0x20) ∧ ∀ off ∈ [0x20, 0x3C, 0x44, 0x7C], 0x20 ≤ off ∧ off ≠ 0x40 := by
  decide

theorem witness_OtherAccessesAreStuck :
    (∀ width ∈ [AccessWidth.byte, .half, .double],
      width ≠ .word ∧ 0x44 < 0x80 ∧
        (waiting (.read 0x1044 width)).pending =
          .read ((waiting (.read 0x1044 width)).cfg.base + 0x44) width :: []) ∧
      ∀ off ∈ [0x01, 0x42, 0x7F], off < 0x80 ∧ off % 4 ≠ 0 ∧
        (waiting (.write (0x1000 + off) .word 7#32)).pending =
          .write ((waiting (.write (0x1000 + off) .word 7#32)).cfg.base + off) .word 7#32 :: [] := by
  decide

theorem witness_LaunchesOutsideTheContractAreRefused :
    (∀ launch ∈ [Launch.unsynchronisedHosts, .unorderedAccesses],
      { State.reset with cfg := { Config.default with launch } }.cfg.launch = launch) ∧
      step State.reset = .next State.reset := ⟨by decide, rfl⟩

theorem witness_ResetEventClearsEveryRegister :
    (waiting .reset).cfg.launch = .inContract ∧ (waiting .reset).pending = .reset :: [] := ⟨rfl, rfl⟩

/-- A step that changes OPA, one that changes OPB, one that changes CMD, RES and ERR, and a read. -/
theorem witness_RegistersChangeOnlyByTheirOwnEvents :
    (∃ t, step (waiting (.write 0x100C .word 7#32)) = .next t ∧
        t.opa ≠ (waiting (.write 0x100C .word 7#32)).opa) ∧
      (∃ t, step (waiting (.write 0x1010 .word 7#32)) = .next t ∧
        t.opb ≠ (waiting (.write 0x1010 .word 7#32)).opb) ∧
      (∃ t, step (waiting (.write 0x1040 .word 0x04#32)) = .next t ∧
        t.cmd ≠ (waiting (.write 0x1040 .word 0x04#32)).cmd ∧
        t.res ≠ (waiting (.write 0x1040 .word 0x04#32)).res ∧
        t.err ≠ (waiting (.write 0x1040 .word 0x04#32)).err) ∧
      ∃ t, step (waiting (.read 0x1040 .word)) = .next t ∧
        t.reads ≠ (waiting (.read 0x1040 .word)).reads :=
  ⟨⟨_, rfl, by decide⟩, ⟨_, rfl, by decide⟩, ⟨_, rfl, by decide⟩, ⟨_, rfl, by decide⟩⟩

/-- A well-formed run with an access ahead and the greatest error code. -/
theorem witness_SafeRunsNeverStopAndStaySafe :
    { waiting (.write 0x1040 .word 0x10#32) with err := 4#3 }.Safe :=
  ⟨rfl, by decide, by unfold State.errLegal; decide⟩

theorem witness_CommandsChangeResultAndStatusAlone :
    (∃ t, exec .ldw extremes = .next t ∧ t.err = 0#3) ∧
      ∃ t, exec .div State.reset = .next t ∧ t.err ≠ 0#3 :=
  ⟨⟨_, exec_after _ _, by decide⟩, ⟨_, exec_after _ _, by decide⟩⟩

/-- Two blocks with the same operands that differ in everything else. -/
theorem witness_OutcomeDependsOnTheOperandsAlone :
    ∃ s' t t' : State, extremes.opa = s'.opa ∧ extremes.opb = s'.opb ∧
      extremes.cfg.divNormalize = s'.cfg.divNormalize ∧ exec .ldw extremes = .next t ∧
      exec .ldw s' = .next t' ∧ t.err = 0#3 ∧ extremes.res ≠ s'.res :=
  ⟨{ extremes with res := Octo.zero, cmd := 3#32, err := 2#3 }, _, _, rfl, rfl, rfl,
    exec_after _ _, exec_after _ _, by decide, by decide⟩

theorem witness_UnreadOperandsDoNotMatter :
    (∃ t t', exec .ldw extremes = .next t ∧ readsOpaAlone .ldw = true ∧
        exec .ldw { extremes with opb := Quad.zero } = .next t') ∧
      ∃ t t', exec .add extremes = .next t ∧ Instr.add ≠ .div ∧
        exec .add { extremes with cfg := { extremes.cfg with divNormalize := false } } = .next t' :=
  ⟨⟨_, _, exec_after _ _, rfl, exec_after _ _⟩, ⟨_, _, exec_after _ _, by decide, exec_after _ _⟩⟩

theorem witness_CommandsReportOnlyTheirOwnErrors :
    ∃ t, exec .div State.reset = .next t ∧ t.err = 2#3 := ⟨_, exec_after _ _, by decide⟩

theorem witness_DecimalResultsAreValid :
    ∃ t, (Instr.scaleres 56).wf = true ∧ givesDecimal (.scaleres 56) = true ∧
      exec (.scaleres 56) extremes = .next t ∧ t.err = 0#3 :=
  ⟨_, by decide, rfl, exec_after _ _, by decide⟩

/-- A quadruple with this flags word. -/
def flagged (w : Word) : Quad := ⟨0#32, 0#32, 0#32, w⟩

/-- A reserved bit at each end of both reserved fields, and the first and the last scale above 28, in OPA and in OPB. -/
theorem witness_InvalidOperandsReportThree :
    readsDecimalOpa .ldw = true ∧ readsDecimalOpb .add = true ∧
      (block (flagged 0x00000001#32) Quad.zero).opa.w3 &&& 0x7F00FFFF#32 ≠ 0#32 ∧
      (block (flagged 0x00008000#32) Quad.zero).opa.w3 &&& 0x7F00FFFF#32 ≠ 0#32 ∧
      (block Quad.zero (flagged 0x01000000#32)).opb.w3 &&& 0x7F00FFFF#32 ≠ 0#32 ∧
      (block Quad.zero (flagged 0x40000000#32)).opb.w3 &&& 0x7F00FFFF#32 ≠ 0#32 ∧
      28 < ((block (flagged 0x001D0000#32) Quad.zero).opa.w3.extractLsb' 16 8).toNat ∧
      28 < ((block Quad.zero (flagged 0x00FF0000#32)).opb.w3.extractLsb' 16 8).toNat := by
  refine ⟨rfl, rfl, ?_, ?_, ?_, ?_, ?_, ?_⟩ <;> decide

theorem witness_ZeroDivisorsReportTwo :
    (block (dec 0 0 7) (dec 1 28 0)).opa.valid = true ∧
      (block (dec 0 0 7) (dec 1 28 0)).opb.valid = true ∧
      (block (dec 0 0 7) (dec 1 28 0)).opb.w0 = 0#32 ∧
      (block (dec 0 0 7) (dec 1 28 0)).opb.w1 = 0#32 ∧
      (block (dec 0 0 7) (dec 1 28 0)).opb.w2 = 0#32 := by decide

theorem witness_PackAndDecimalViewAreInverse :
    extremes.opa.valid = true ∧
      (⟨true, 28, 79228162514264337593543950335⟩ : Dec).scale ≤ 28 ∧
      (⟨true, 28, 79228162514264337593543950335⟩ : Dec).mant ≤ 79228162514264337593543950335 := by
  decide

theorem witness_LdwCopiesValidWords :
    (extremes.opa.w3 &&& 0x7F00FFFF#32 = 0#32 ∧ (extremes.opa.w3.extractLsb' 16 8).toNat ≤ 28) ∧
      (quad 0 0 0 0x01000000).w3 &&& 0x7F00FFFF#32 ≠ 0#32 ∧
      28 < ((quad 0 0 0 0x001D0000).w3.extractLsb' 16 8).toNat := by decide

theorem witness_MkpartsBuildsFromParts :
    (block (quad 1 0 0 0) (quad 1 28 0 0)).opb.w1.toNat ≤ 28 ∧
      28 < (block (quad 1 0 0 0) (quad 1 29 0 0)).opb.w1.toNat ∧
      28 < (block (quad 1 0 0 0) (quad 1 0x100 0 0)).opb.w1.toNat := by decide

theorem witness_AddingZeroReturnsTheOtherOperand :
    (block (dec 0 2 123) (dec 1 28 0)).opa.valid = true ∧
      (block (dec 0 2 123) (dec 1 28 0)).opb.valid = true ∧
      (block (dec 0 2 123) (dec 1 28 0)).opb.dec.mant = 0 ∧
      (block (dec 1 28 0) (dec 0 2 123)).opa.dec.mant = 0 ∧
      (block (dec 1 28 0) (dec 0 2 123)).opb.dec.mant ≠ 0 := by decide

/-- A bound on the last reduction that is too small bounds each one before it (40_primitives.md R63). -/
theorem above_of_last {X k : Nat} (h : MMAX < rne X (10 ^ k)) (j : Nat) (hj : j < k + 1) :
    MMAX < rne X (10 ^ j) :=
  lt_of_lt_of_le h
    (rne_antitone X (by positivity) (Nat.pow_le_pow_right (by decide) (Nat.lt_succ_iff.mp hj)))

/-- 10^28 + 10^-28, which drops all 28 digits of the scale. -/
def spread : State := block (dec 0 0 10000000000000000000000000000) (dec 0 28 1)

theorem witness_SumsAreExactAndRoundedOnce :
    spread.opa.valid = true ∧ spread.opb.valid = true ∧ spread.opa.dec.mant ≠ 0 ∧
      spread.opb.dec.mant ≠ 0 ∧
      (let A := spread.opa.dec
       let B := spread.opb.dec
       let e := max A.scale B.scale
       let x : Int := (if A.sign then -1 else 1) * (A.mant * 10 ^ (e - A.scale) : Nat) +
         (if B.sign then -1 else 1) * (B.mant * 10 ^ (e - B.scale) : Nat)
       28 ≤ e ∧ rne x.natAbs (10 ^ 28) ≤ MMAX ∧ ∀ j, j < 28 → MMAX < rne x.natAbs (10 ^ j)) := by
  refine ⟨by decide, by decide, by decide, by decide, by decide, by decide, fun j hj => ?_⟩
  have h : MMAX < rne (10000000000000000000000000000 * 10 ^ 28 + 1) (10 ^ 27) := by decide
  exact above_of_last h j hj

/-- An exact cancellation by SUB, with no reduction. -/
theorem witness_SumsAreExactAndRoundedOnce_cancellation :
    (block (dec 1 28 5) (dec 1 28 5)).opa.valid = true ∧
      (block (dec 1 28 5) (dec 1 28 5)).opb.valid = true ∧
      (block (dec 1 28 5) (dec 1 28 5)).opa.dec.mant ≠ 0 ∧
      (let A := (block (dec 1 28 5) (dec 1 28 5)).opa.dec
       let B : Dec :=
         { (block (dec 1 28 5) (dec 1 28 5)).opb.dec with
           sign := !(block (dec 1 28 5) (dec 1 28 5)).opb.dec.sign }
       let e := max A.scale B.scale
       let x : Int := (if A.sign then -1 else 1) * (A.mant * 10 ^ (e - A.scale) : Nat) +
         (if B.sign then -1 else 1) * (B.mant * 10 ^ (e - B.scale) : Nat)
       B.mant ≠ 0 ∧ x = 0 ∧ 0 ≤ e ∧ rne x.natAbs (10 ^ 0) ≤ MMAX) := by decide

/-- The largest decimal + 0.5, a tie that rounds to 2^96: the operands are valid and ADD overflows. -/
theorem witness_SumsOverflowExactlyAboveTheLargestMantissa :
    (block (dec 0 0 79228162514264337593543950335) (dec 0 1 5)).opa.valid = true ∧
      (block (dec 0 0 79228162514264337593543950335) (dec 0 1 5)).opb.valid = true ∧
      MMAX < rne (79228162514264337593543950335 * 10 + 5) (10 ^ 1) ∧
      after .add (block (dec 0 0 79228162514264337593543950335) (dec 0 1 5)) =
        { block (dec 0 0 79228162514264337593543950335) (dec 0 1 5) with err := 1#3 } :=
  ⟨by decide, by decide, by decide, by rfl⟩

/-- The largest product at the largest sum of scales: e = 56 and k = 29. -/
def largestProduct : State :=
  block (dec 0 28 79228162514264337593543950335) (dec 0 28 79228162514264337593543950335)

theorem witness_ProductsAreExactAndRoundedOnce :
    largestProduct.opa.valid = true ∧ largestProduct.opb.valid = true ∧
      (let A := largestProduct.opa.dec
       let B := largestProduct.opb.dec
       let X := A.mant * B.mant
       let e := A.scale + B.scale
       e - 28 ≤ 29 ∧ 29 ≤ e ∧ rne X (10 ^ 29) ≤ MMAX ∧
         ∀ j, e - 28 ≤ j → j < 29 → MMAX < rne X (10 ^ j)) := by
  refine ⟨by decide, by decide, by decide, by decide, by decide, fun j _ h => ?_⟩
  exact above_of_last (k := 28) (by decide) j h

/-- The largest decimal times 2, which overflows. -/
theorem witness_ProductsAreExactAndRoundedOnce_overflow :
    (dec 0 0 79228162514264337593543950335).valid = true ∧ (dec 1 0 2).valid = true ∧
      MMAX < rne ((dec 0 0 79228162514264337593543950335).dec.mant * (dec 1 0 2).dec.mant)
        (10 ^ ((dec 0 0 79228162514264337593543950335).dec.scale + (dec 1 0 2).dec.scale)) := by
  decide

theorem witness_AddAndMulCommute :
    ∃ t t' u u', extremes.opa.valid = true ∧ extremes.opb.valid = true ∧
      exec .mul extremes = .next t ∧
      exec .mul { extremes with opa := extremes.opb, opb := extremes.opa } = .next t' ∧
      exec .add extremes = .next u ∧
      exec .add { extremes with opa := extremes.opb, opb := extremes.opa } = .next u' ∧
      extremes.opa.dec.val + extremes.opb.dec.val ≠ 0 := by
  refine ⟨_, _, _, _, extremes_valid.1, extremes_valid.2, exec_after _ _, exec_after _ _,
    exec_after _ _, exec_after _ _, ?_⟩
  rw [show extremes.opa.dec = ⟨true, 28, 79228162514264337593543950335⟩ by decide,
    show extremes.opb.dec = ⟨false, 0, 10⟩ by decide]
  norm_num [Dec.val]

theorem witness_DivisionEqualsItsClosedForm :
    extremes.opa.valid = true ∧ extremes.opb.valid = true ∧ extremes.opb.dec.mant ≠ 0 ∧
      extremes.cfg.divNormalize = true := by decide

/-- The largest decimal divided by 0.1, which overflows, and by 10, which does not. -/
theorem witness_DivisionOverflowsExactlyAboveTheLargestMantissa :
    (let A := (block (dec 0 0 79228162514264337593543950335) (dec 0 1 1)).opa
     let B := (block (dec 0 0 79228162514264337593543950335) (dec 0 1 1)).opb
     A.valid = true ∧ B.valid = true ∧ B.dec.mant ≠ 0 ∧
       MMAX < rne (A.dec.mant * 10 ^ B.dec.scale) (B.dec.mant * 10 ^ A.dec.scale)) ∧
      (extremes.opa.valid = true ∧ extremes.opb.valid = true ∧ extremes.opb.dec.mant ≠ 0 ∧
        rne (extremes.opa.dec.mant * 10 ^ extremes.opb.dec.scale)
          (extremes.opb.dec.mant * 10 ^ extremes.opa.dec.scale) ≤ MMAX) := by decide

/-- A block with DIV_NORMALIZE false. -/
def literal (a b : Quad) : State :=
  { block a b with cfg := { Config.default with divNormalize := false } }

/-- 1 / 4, exact after one step of nine digits and not before. -/
theorem witness_DivisionOverflowsExactly_exact_after_a_step :
    (literal (dec 0 0 1) (dec 0 0 4)).cfg.divNormalize = false ∧
      (literal (dec 0 0 1) (dec 0 0 4)).opa.dec = ⟨false, 0, 1⟩ ∧
      (literal (dec 0 0 1) (dec 0 0 4)).opb.dec = ⟨false, 0, 4⟩ ∧
      rne (1 * 10 ^ 0) (4 * 10 ^ 0) ≤ MMAX ∧ 1 * 10 ^ (9 * 1) % 4 = 0 ∧
      (∀ j, j < 1 → ¬ 1 * 10 ^ (9 * j) % 4 = 0) ∧ 9 = ((0 : Int) - 0 + 9 * (1 : Nat)).toNat ∧
      1 * 10 ^ (0 + 9) / (4 * 10 ^ 0) ≤ MMAX := by decide

/-- 1 / 3, exact at no step, whose largest scale is 28. -/
theorem witness_DivisionOverflowsExactly_rounded_at_28 :
    (literal (dec 0 0 1) (dec 0 0 3)).opa.dec = ⟨false, 0, 1⟩ ∧
      (literal (dec 0 0 1) (dec 0 0 3)).opb.dec = ⟨false, 0, 3⟩ ∧
      1 * 10 ^ (0 + 28) / (3 * 10 ^ 0) ≤ MMAX ∧ rne (1 * 10 ^ (0 + 28)) (3 * 10 ^ 0) ≤ MMAX ∧
      ∀ i, 1 * 10 ^ (9 * i) % 3 = 0 → ((28 : Nat) : Int) < (0 : Int) - 0 + 9 * (i : Nat) := by
  refine ⟨by decide, by decide, by decide, by decide, fun i h => ?_⟩
  simp [Nat.pow_mod] at h

/-- The final-carry case of 44_divmod.md R110, where the quotient rounded at scale 28 is 2^96. -/
theorem witness_DivisionOverflowsExactly_carry :
    (literal (dec 0 27 55459713759985036315480765235) (dec 0 0 7)).opa.dec =
        ⟨false, 27, 55459713759985036315480765235⟩ ∧
      (literal (dec 0 27 55459713759985036315480765235) (dec 0 0 7)).opb.dec = ⟨false, 0, 7⟩ ∧
      55459713759985036315480765235 * 10 ^ (0 + 28) / (7 * 10 ^ 27) ≤ MMAX ∧
      MMAX < rne (55459713759985036315480765235 * 10 ^ (0 + 28)) (7 * 10 ^ 27) ∧
      ∀ i, 55459713759985036315480765235 * 10 ^ (9 * i) % 7 = 0 →
        ((28 : Nat) : Int) < (27 : Int) - 0 + 9 * (i : Nat) := by
  refine ⟨by decide, by decide, by decide, by decide, fun i h => ?_⟩
  have h7 : Nat.Prime 7 := by decide
  rcases h7.dvd_mul.mp (Nat.dvd_of_mod_eq_zero h) with h | h
  · exact absurd h (by decide)
  · exact absurd (h7.dvd_of_dvd_pow h) (by decide)

/-- Natural scales 2, -2 and -1, the last too small for the largest decimal. -/
theorem witness_ExactQuotientsKeepTheNaturalScale :
    ((dec 0 2 400).valid = true ∧ (dec 0 0 2).valid = true ∧ (dec 0 0 2).dec.mant ≠ 0 ∧
        (dec 0 0 2).dec.scale ≤ (dec 0 2 400).dec.scale ∧
        (dec 0 2 400).dec.mant % (dec 0 0 2).dec.mant = 0) ∧
      ((dec 0 0 100).dec.mant % (dec 0 2 1).dec.mant = 0 ∧
        (dec 0 0 100).dec.scale < (dec 0 2 1).dec.scale ∧
        (dec 0 0 100).dec.mant / (dec 0 2 1).dec.mant * 10 ^ (2 - 0) ≤ MMAX) ∧
      ((dec 0 1 1).valid = true ∧
        (dec 0 0 79228162514264337593543950335).dec.scale < (dec 0 1 1).dec.scale ∧
        MMAX < (dec 0 0 79228162514264337593543950335).dec.mant / (dec 0 1 1).dec.mant *
          10 ^ (1 - 0)) := by decide

theorem witness_DivisionLoopEndsWithin57Passes :
    -28 ≤ (⟨0, 1, -28, false⟩ : DivLoop).t ∧ (⟨0, 1, 28, false⟩ : DivLoop).t ≤ 28 := by decide

/-- A nonzero divisor, and a negative zero as the divisor. -/
theorem witness_RemaindersAreExact :
    extremes.opa.valid = true ∧ extremes.opb.valid = true ∧ extremes.opb.dec.mant ≠ 0 ∧
      (block (dec 0 0 0) (dec 1 28 0)).opb.valid = true ∧
      (block (dec 0 0 0) (dec 1 28 0)).opb.dec.mant = 0 := by decide

/-- Scale 28 rounded to 28, where nothing changes, and to 0, the widest drop. -/
theorem witness_RoundFollowsTheModeTable :
    extremes.opa.valid = true ∧ extremes.opa.dec.scale ≤ 28 ∧ 0 < extremes.opa.dec.scale := by decide

theorem witness_RoundedValuesAreTheModesNeighbours :
    ∃ t, extremes.opa.valid = true ∧ 0 ≤ 28 ∧ exec (.round .away 0) extremes = .next t :=
  ⟨_, extremes_valid.1, by decide, exec_after _ _⟩

/-- A tie, -2.5 at scale 0, where AWAY is exactly half a unit off. -/
theorem witness_RoundedValuesAreTheModesNeighbours_at_a_tie :
    (dec 1 1 25).valid = true ∧
      (after (.round .away 0) (block (dec 1 1 25) Quad.zero)).res.low.dec = ⟨true, 0, 3⟩ ∧
      |(⟨true, 0, 3⟩ : Dec).val - (⟨true, 1, 25⟩ : Dec).val| = 1 / (2 * 10 ^ 0) := by
  refine ⟨by decide, by rfl, ?_⟩
  norm_num [Dec.val, abs_of_neg]

/-- The same tie under RNE, which goes to the even 2. -/
theorem witness_RoundedValuesAreTheModesNeighbours_at_an_even_tie :
    (after (.round .rne 0) (block (dec 1 1 25) Quad.zero)).res.low.dec = ⟨true, 0, 2⟩ ∧
      |(⟨true, 0, 2⟩ : Dec).val - (⟨true, 1, 25⟩ : Dec).val| = 1 / (2 * 10 ^ 0) := by
  refine ⟨by rfl, ?_⟩
  norm_num [Dec.val, abs_of_pos]

theorem witness_RoundingTwiceIsRoundingOnce :
    ∃ t u, extremes.opa.valid = true ∧ 27 ≤ 28 ∧ exec (.round .floor 27) extremes = .next t ∧
      exec (.round .ceil 27) { t with opa := t.res.low } = .next u :=
  ⟨_, _, extremes_valid.1, by decide, exec_after _ _, exec_after _ _⟩

/-- Each of the three orders, the equality between zeros of both signs. -/
theorem witness_CompareOrdersTheExactValues :
    (dec 1 28 1).valid = true ∧ (dec 0 0 0).valid = true ∧ (dec 1 28 0).valid = true ∧
      (⟨true, 28, 1⟩ : Dec).val < (⟨false, 0, 0⟩ : Dec).val ∧
      (⟨false, 0, 0⟩ : Dec).val = (⟨true, 28, 0⟩ : Dec).val ∧
      (⟨true, 28, 1⟩ : Dec).val > (⟨true, 0, 1⟩ : Dec).val := by
  refine ⟨by decide, by decide, by decide, ?_, ?_, ?_⟩ <;> norm_num [Dec.val]

theorem witness_NormStripsTrailingZeros :
    extremes.opa.valid = true ∧ extremes.opa.dec.mant ≠ 0 ∧ (dec 1 7 0).valid = true ∧
      (dec 1 7 0).dec.mant = 0 := by decide

/-- 1.00 and 1, two encodings of one value. -/
theorem witness_NormIsCanonical :
    ∃ t t', (dec 0 2 100).valid = true ∧ (dec 0 0 1).valid = true ∧
      exec .norm (block (dec 0 2 100) Quad.zero) = .next t ∧
      exec .norm (block (dec 0 0 1) Quad.zero) = .next t' ∧
      (⟨false, 2, 100⟩ : Dec).val = (⟨false, 0, 1⟩ : Dec).val :=
  ⟨_, _, by decide, by decide, exec_after _ _, exec_after _ _, by norm_num [Dec.val]⟩

theorem witness_ToFloatRoundsEachStepToNearest : extremes.opa.valid = true := extremes_valid.1

/-- An operand that is not valid, in OPA and in OPB: for the last clause of CMP, NORM, TOF64, TOF32 and TOCY. -/
theorem witness_invalid_operands :
    (block (quad 0 0 0 1) Quad.zero).opa.valid = false ∧
      (block Quad.zero (quad 0 0 0 0x001D0000)).opb.valid = false := by decide

theorem witness_ToDoubleIsMonotonicAtOneScale :
    ∃ t t', (dec 1 28 1).valid = true ∧ extremes.opa.valid = true ∧
      (dec 1 28 1).dec.scale = extremes.opa.dec.scale ∧
      (dec 1 28 1).dec.sign = extremes.opa.dec.sign ∧
      (dec 1 28 1).dec.mant ≤ extremes.opa.dec.mant ∧
      exec .tof64 (block (dec 1 28 1) Quad.zero) = .next t ∧ exec .tof64 extremes = .next t' :=
  ⟨_, _, by decide, by decide, by decide, by decide, by decide, exec_after _ _, exec_after _ _⟩

/-- An infinity, 2^96, and the binary64 just below 2^96. -/
theorem witness_FromFloatOverflowsExactlyOutOfRange_binary64 :
    0x7FF0000000000000 / 2 ^ 52 % 2048 = 2047 ∧ 0x45EFFFFFFFFFFFFF / 2 ^ 52 % 2048 ≠ 2047 ∧
      2 ^ 96 ≤ binary64.absValue 0x45F0000000000000 ∧
      binary64.absValue 0x45EFFFFFFFFFFFFF < 2 ^ 96 := by
  refine ⟨by decide, by decide, ?_, ?_⟩
  · rw [FloatFormat.absValue, show binary64.magnitude 0x45F0000000000000 = (2 ^ 96, 1) by rfl]
    norm_num
  · rw [FloatFormat.absValue,
      show binary64.magnitude 0x45EFFFFFFFFFFFFF = ((2 ^ 53 - 1) * 2 ^ 43, 1) by rfl]
    norm_num

/-- An infinity, 2^96, and the binary32 just below 2^96. -/
theorem witness_FromFloatOverflowsExactlyOutOfRange_binary32 :
    0xFF800000 / 2 ^ 23 % 256 = 255 ∧ 0x6F7FFFFF / 2 ^ 23 % 256 ≠ 255 ∧
      2 ^ 96 ≤ binary32.absValue 0x6F800000 ∧ binary32.absValue 0x6F7FFFFF < 2 ^ 96 := by
  refine ⟨by decide, by decide, ?_, ?_⟩
  · rw [FloatFormat.absValue, show binary32.magnitude 0x6F800000 = (2 ^ 96, 1) by rfl]
    norm_num
  · rw [FloatFormat.absValue,
      show binary32.magnitude 0x6F7FFFFF = ((2 ^ 24 - 1) * 2 ^ 72, 1) by rfl]
    norm_num

/-- -2.5 as a binary64, and the negative zero of binary32; then the infinity of binary64. -/
theorem witness_FromFloatKeepsTheDigitBudget :
    binary64.isSpecial 0x7FF0000000000000 = true ∧
    binary64.isSpecial 0xC004000000000000 = false ∧ binary64.absValue 0xC004000000000000 < 2 ^ 96 ∧
      binary64.absValue 0xC004000000000000 ≠ 0 ∧ binary32.isSpecial 0x80000000 = false ∧
      binary32.absValue 0x80000000 < 2 ^ 96 ∧ binary32.absValue 0x80000000 = 0 := by
  have h : binary64.magnitude 0xC004000000000000 = (5 * 2 ^ 50, 2 ^ 51) := by rfl
  have h0 : binary32.magnitude 0x80000000 = (0, 2 ^ 149) := by rfl
  refine ⟨by decide, by decide, ?_, ?_, by decide, ?_, ?_⟩ <;>
    simp only [FloatFormat.absValue, h, h0] <;> norm_num

/-- The currency value of a decimal, as the obligation names it. -/
def currencyOf (q : Quad) : Int :=
  let v := rne (q.dec.mant * 10 ^ 4) (10 ^ q.dec.scale)
  if q.dec.sign then -(v : Int) else (v : Int)

/-- The ends of the signed 64-bit range, and the first value beyond each. -/
theorem witness_ToCurrencyRoundsToFourDigits :
    (dec 1 4 9223372036854775808).valid = true ∧ (dec 0 4 9223372036854775807).valid = true ∧
      (dec 1 4 9223372036854775809).valid = true ∧ (dec 0 4 9223372036854775808).valid = true ∧
      currencyOf (dec 1 4 9223372036854775808) = -(2 ^ 63) ∧
      currencyOf (dec 0 4 9223372036854775807) = 2 ^ 63 - 1 ∧
      currencyOf (dec 1 4 9223372036854775809) < -(2 ^ 63) ∧
      2 ^ 63 - 1 < currencyOf (dec 0 4 9223372036854775808) := by decide

/-- The least currency value. -/
theorem witness_CurrencyRoundTrip :
    ∃ t u, exec .fromcy (block (quad 0 0x80000000 0 0) Quad.zero) = .next t ∧
      exec .tocy { t with opa := t.res.low } = .next u :=
  ⟨_, _, exec_after _ _, exec_after _ _⟩

theorem witness_DividersAreExact :
    (block Quad.zero Quad.zero).opb.w0.toNat = 0 ∧
      ((block Quad.zero Quad.zero).opb.w1 ++ (block Quad.zero Quad.zero).opb.w0).toNat = 0 ∧
      ((block Quad.zero Quad.zero).opb.w2 ++ (block Quad.zero Quad.zero).opb.w1 ++
        (block Quad.zero Quad.zero).opb.w0).toNat = 0 ∧
      (block Quad.zero (quad 1 0 0 0)).opb.w0.toNat ≠ 0 ∧
      ((block Quad.zero (quad 0 1 0 0)).opb.w1 ++ (block Quad.zero (quad 0 1 0 0)).opb.w0).toNat ≠ 0 ∧
      ((block Quad.zero (quad 0 0 1 0)).opb.w2 ++ (block Quad.zero (quad 0 0 1 0)).opb.w1 ++
        (block Quad.zero (quad 0 0 1 0)).opb.w0).toNat ≠ 0 := by decide

theorem witness_PowerOfTenProductsAreExact : 28 < 64 ∧ 29 < 64 ∧ 63 < 64 ∧ 28 ≤ 28 := by decide

/-- The largest input: (2^96 - 1)^2 at K = 56; 10^30 at K = 30; and 2^96 at K = 0, which overflows. -/
theorem witness_ScaleresReducesByTheLeastThatFits :
    (56 ≤ 56 ∧ 56 - 28 ≤ 29 ∧
        rne (79228162514264337593543950335 * 79228162514264337593543950335) (10 ^ 29) ≤ MMAX ∧
        ∀ j, 56 - 28 ≤ j → j < 29 →
          MMAX < rne (79228162514264337593543950335 * 79228162514264337593543950335) (10 ^ j)) ∧
      (30 - 28 ≤ 2 ∧ rne (10 ^ 30) (10 ^ 2) ≤ MMAX) ∧ MMAX < rne (2 ^ 96) (10 ^ 0) := by
  refine ⟨⟨by decide, by decide, by decide, fun j h1 h2 => ?_⟩, by decide, by decide⟩
  interval_cases j
  decide

/-- No earlier divisor, and three of them. -/
theorem witness_RoundingIsToNearestEvenInAnySteps :
    (∀ e ∈ ([] : List Nat), 0 < e) ∧ (∀ e ∈ [1000000000, 1000000000, 1], 0 < e) ∧ 0 < 10 ∧
      10 % 2 = 0 := by decide

theorem witness_StripRemovesTrailingZerosAlone :
    12300 % 10 ^ 2 = 0 ∧ 12300 % 10 ^ (2 + 1) ≠ 0 ∧ 7 % 10 ^ 0 = 0 ∧ 7 % 10 ^ (0 + 1) ≠ 0 := by decide

/-- The least quotient at the least scale, and the largest at the largest; a step above the answer. -/
theorem witness_SearchScaleIsTheLargestSafeStep :
    0 ≤ MMAX ∧ (-28 : Int) ≤ -28 ∧ (28 : Int) ≤ 28 ∧ MMAX ≤ MMAX ∧ searchScale 79228162514 (-28) = 9 ∧
      searchScale MMAX 0 < 1 ∧ ((1 : Nat) : Int) ≤ min 9 (28 - 0) := by decide

/-- The least value to reduce, with k = 1, and the largest, with k = 29. -/
theorem witness_EstimateIsAtMostOneShort :
    (MMAX < 2 ^ 96 ∧ rne (2 ^ 96) (10 ^ 1) ≤ MMAX ∧ ∀ j, j < 1 → MMAX < rne (2 ^ 96) (10 ^ j)) ∧
      MMAX < 2 ^ 192 - 1 ∧ rne (2 ^ 192 - 1) (10 ^ 29) ≤ MMAX ∧
      ∀ j, j < 29 → MMAX < rne (2 ^ 192 - 1) (10 ^ j) := by
  refine ⟨⟨by decide, by decide, above_of_last (k := 0) (by decide)⟩, by decide, by decide, ?_⟩
  have h : MMAX < rne (2 ^ 192 - 1) (10 ^ 28) := by decide
  exact above_of_last h

theorem witness_PseudoInstructionsExpandAsListed :
    ({ pc := 0, regs := [], block := extremes } : HostRun).pc = 0 ∧
      extremes.cfg.launch = .inContract ∧ extremes.pending = [] ∧ extremes.err = 0#3 ∧
      { extremes with err := 1#3 }.err ≠ 0#3 := by decide

end Sys2Proof.Tests
end

section
/-! PROOFS. The statements of 10_state.md: the state after reset, the decimal layout, which event writes which register, the operands a command reads, and the validity of decimal results. -/

namespace Sys2Proof.Machine

open Sys2Proof

/-! ## Reset -/

/-- Every register holds 0 right after reset (10_state.md R30). -/
theorem readReg_reset (r : Reg) : readReg State.reset r = 0#32 := by
  cases r with
  | opa i => fin_cases i <;> rfl
  | opb i => fin_cases i <;> rfl
  | res i => fin_cases i <;> rfl
  | cmd => rfl
  | status => rfl

/-- Every offset of the window reads as 0 right after reset (10_state.md R30, 20_memory.md R34). -/
theorem windowRead_reset (off : Nat) : windowRead State.reset off = 0#32 := by
  unfold windowRead
  split
  · exact readReg_reset _
  · rfl

theorem State.reset_safe : State.reset.Safe :=
  ⟨rfl, by simp [State.reset], by simp [State.errLegal, State.reset]⟩

/-- Settles O12: each register reads 0, and the zero quadruple is the positive zero. -/
theorem resetStateIsZeroAndSafe : Obligations.ResetStateIsZeroAndSafe :=
  ⟨fun off _ => windowRead_reset off, by decide, by decide, by decide, by decide, State.reset_safe⟩

/-! ## Pack and the decimal view -/

/-- Pack's requirements, with the mantissa bounded by MMAX (10_state.md R24). -/
theorem Dec.fits_iff_le {d : Dec} : d.fits = true ↔ d.scale ≤ 28 ∧ d.mant ≤ MMAX := by
  rw [Dec.fits, Bool.and_eq_true, decide_eq_true_iff, decide_eq_true_iff]

/-- A word above others: the concatenation as a sum (00_scope.md R8). -/
theorem toNat_append_word {n : Nat} (x : BitVec n) (w : Word) :
    (x ++ w).toNat = w.toNat + 2 ^ 32 * x.toNat := by
  rw [BitVec.toNat_append, ← Nat.shiftLeft_add_eq_or_of_lt w.isLt, Nat.shiftLeft_eq]
  ring

/-- The mantissa is the concatenation of its three words (10_state.md R21). -/
theorem Quad.u96_eq_append (q : Quad) : q.u96 = (q.w2 ++ q.w1 ++ q.w0).toNat := by
  simp [Quad.u96, toNat_append_word]

/-- The limbs of a quadruple's mantissa are its three mantissa words (10_state.md R21). -/
theorem Quad.words_of_u96 (q : Quad) :
    BitVec.ofNat 32 q.u96 = q.w0 ∧ BitVec.ofNat 32 (q.u96 / 2 ^ 32) = q.w1 ∧
      BitVec.ofNat 32 (q.u96 / 2 ^ 64) = q.w2 := by
  have h0 := q.w0.isLt
  have h1 := q.w1.isLt
  have h2 := q.w2.isLt
  simp only [Quad.u96, ofLimbs_cons, ofLimbs_nil, BitVec.toNat_eq, BitVec.toNat_ofNat]
  omega

/-- A flags word is known by its four fields (10_state.md R21). -/
theorem flags_ext {v w : Word} (hsign : v.getLsbD 31 = w.getLsbD 31)
    (hhi : v.extractLsb' 24 7 = w.extractLsb' 24 7)
    (hscale : (v.extractLsb' 16 8).toNat = (w.extractLsb' 16 8).toNat)
    (hlo : v.extractLsb' 0 16 = w.extractLsb' 0 16) : v = w := by
  have hv := v.isLt
  have hw := w.isLt
  rw [BitVec.toNat_eq] at hhi hlo ⊢
  simp only [BitVec.getLsbD, Nat.testBit_eq_decide_div_mod_eq, decide_eq_decide] at hsign
  simp only [BitVec.extractLsb'_toNat, Nat.shiftRight_eq_div_pow] at hhi hscale hlo
  omega

/-- With a valid flags word, Pack's flags word is the same one (10_state.md R21, R22, R24). -/
theorem Quad.flagsWord_of_valid {q : Quad} (h : q.valid = true) :
    flagsWord (q.w3.getLsbD 31) q.scaleField = q.w3 := by
  obtain ⟨⟨hhi, hlo⟩, hscale⟩ :
      (q.w3.extractLsb' 24 7 = 0#7 ∧ q.w3.extractLsb' 0 16 = 0#16) ∧ q.scaleField ≤ 28 := by
    simpa [Quad.valid, Quad.reservedZero] using h
  obtain ⟨fhi, flo, fscale, fsign⟩ := flagsWord_fields (q.w3.getLsbD 31) hscale
  exact flags_ext fsign (fhi.trans hhi.symm) fscale (flo.trans hlo.symm)

/-- Packing the triple of a valid quadruple gives the quadruple back (10_state.md R21, R24). -/
theorem pack_dec {q : Quad} (h : q.valid = true) : pack q.dec = q := by
  obtain ⟨h0, h1, h2⟩ := q.words_of_u96
  simp only [pack, Quad.dec, h0, h1, h2, Quad.flagsWord_of_valid h]

/-- Settles O23: Pack and `dec` undo each other in both directions. -/
theorem packAndDecimalViewAreInverse : Obligations.PackAndDecimalViewAreInverse := by
  refine ⟨fun q => pack_dec, fun d hs hm => ?_, Quad.u96_eq_append⟩
  have hd : d.fits = true := Dec.fits_iff_le.mpr ⟨hs, hm⟩
  exact ⟨pack_valid hd, dec_pack hd⟩

/-! ## Which event writes which register -/

/-- A command leaves every field but RES and ERR (30_encoding.md R46, 60_exceptions.md R145). -/
theorem exec_frame {i : Instr} {s t : State} (h : exec i s = .next t) :
    ∃ r e, t = { s with res := r, err := e } := by
  obtain ⟨r, -, rfl⟩ | ⟨e, -, rfl⟩ := exec_cases h
  · exact ⟨r, 0#3, State.succeed_eq s r⟩
  · exact ⟨s.res, e.code, State.raiseError_eq s e⟩

/-- A write to CMD leaves every field but CMD, RES and ERR, whether the word is legal or not (30_encoding.md R46, R50). -/
theorem execute_frame {w : Word} {s t : State} (h : execute w s = .next t) :
    ∃ r e, t = { s with cmd := w, res := r, err := e } := by
  cases hd : decode w with
  | ok i =>
    rw [execute_ok hd] at h
    exact exec_frame h
  | error d =>
    rw [execute_error hd] at h
    cases h
    exact ⟨s.res, _, rfl⟩

/-- An aligned offset that holds a register is that register's own: the converse of `regAt_offset` (20_memory.md R31). -/
theorem offset_of_regAt {off : Nat} {r : Reg} (ha : off % 4 = 0) (h : regAt off = some r) :
    r.offset = off := by
  unfold regAt at h
  split_ifs at h <;> cases h <;> simp only [Reg.offset, Fin.val_ofNat] <;> omega

/-- Everything an aligned host write can do (20_memory.md R37): it writes one operand register, it performs a command, or it is ignored. -/
theorem windowWrite_cases {s t : State} {off : Nat} {v : Word} (ha : off % 4 = 0)
    (h : windowWrite s off v = .next t) :
    (off < 0x10 ∧ ∃ i, t = s.withOpa i v) ∨
      (0x10 ≤ off ∧ off < 0x20 ∧ ∃ i, t = s.withOpb i v) ∨
      (off = 0x40 ∧ execute v s = .next t) ∨ t = s := by
  unfold windowWrite at h
  split at h
  · next i hr =>
    have := offset_of_regAt ha hr
    cases h
    exact .inl ⟨by simp only [Reg.offset] at this; omega, i, rfl⟩
  · next i hr =>
    have := offset_of_regAt ha hr
    cases h
    simp only [Reg.offset] at this
    exact .inr (.inl ⟨by omega, by omega, i, rfl⟩)
  · cases h
    exact .inr (.inr (.inr rfl))
  · next hr => exact .inr (.inr (.inl ⟨(offset_of_regAt ha hr).symm, h⟩))
  · cases h
    exact .inr (.inr (.inr rfl))
  · cases h
    exact .inr (.inr (.inr rfl))

/-- Everything one event can do (20_memory.md R32, R37): a reset, a word read, or an aligned word write inside the window. -/
theorem performEvent_cases {e : HostEvent} {s t : State} (h : performEvent e s = .next t) :
    (e = .reset ∧ t = s.blockReset) ∨
      (∃ addr w, e = .read addr .word ∧ t = s.withRead w) ∨
      ∃ off v, e = .write (s.cfg.base + off) .word v ∧ off < 0x80 ∧ off % 4 = 0 ∧
        windowWrite s off v = .next t := by
  cases e with
  | reset =>
    cases h
    exact .inl ⟨rfl, rfl⟩
  | read addr width =>
    rw [performEvent] at h
    obtain ⟨-, -, rfl, -, hr⟩ := access_next h
    cases hr
    exact .inr (.inl ⟨addr, _, rfl, rfl⟩)
  | write addr width v =>
    rw [performEvent] at h
    obtain ⟨hlo, hhi, rfl, ha, hw⟩ := access_next h
    refine .inr (.inr ⟨addr - s.cfg.base, v, ?_, by omega, ha, hw⟩)
    rw [Nat.add_sub_of_le hlo]

/-- Settles O13: each kind of event, with the fields that it leaves. -/
theorem registersChangeOnlyByTheirOwnEvents : Obligations.RegistersChangeOnlyByTheirOwnEvents := by
  intro s t h
  obtain ⟨-, ⟨hp, rfl⟩ | ⟨e, rest, hp, he⟩⟩ := step_cases h
  · simp [hp]
  obtain ⟨rfl, rfl⟩ | ⟨addr, w, rfl, rfl⟩ | ⟨off, v, rfl, -, ha, hw⟩ := performEvent_cases he
  · exact ⟨fun _ => ⟨0, 0#32, rest, by decide, .inr hp⟩,
      fun _ => ⟨0x10, 0#32, rest, by decide, by decide, .inr hp⟩, fun _ => ⟨0#32, rest, .inr hp⟩,
      by simp, by simp, by simp [hp]⟩
  · exact ⟨by simp, by simp, by simp, fun _ => ⟨addr, rest, hp⟩, by simp, by simp [hp]⟩
  obtain ⟨hoff, i, rfl⟩ | ⟨hlo, hhi, i, rfl⟩ | ⟨rfl, hx⟩ | rfl := windowWrite_cases ha hw
  · exact ⟨fun _ => ⟨off, v, rest, hoff, .inl hp⟩, by simp, by simp, by simp, by simp, by simp [hp]⟩
  · exact ⟨by simp, fun _ => ⟨off, v, rest, hlo, hhi, .inl hp⟩, by simp, by simp, by simp,
      by simp [hp]⟩
  · obtain ⟨r, e, rfl⟩ := execute_frame hx
    exact ⟨by simp, by simp, fun _ => ⟨v, rest, .inl hp⟩, by simp, by simp, by simp [hp]⟩
  · simp [hp]

/-! ## Operands a command does not read -/

/-- OPB does not enter the outcome of a command that reads OPA alone (30_encoding.md R53, R54). -/
theorem perform_opb {i : Instr} (hi : readsOpaAlone i = true) (opa opb opb' : Quad)
    (normalize : Bool) : perform i opa opb normalize = perform i opa opb' normalize := by
  cases i with
  | mkparts | add | sub | mul | div | rem | cmp | mul96x32 | mul96x64 | mul96x96 | div96x32
  | div96x64 | div128x96 | scaleres => cases hi
  | _ => rfl

/-- DIV_NORMALIZE enters the outcome of DIV alone (00_scope.md R7). -/
theorem perform_normalize {i : Instr} (hi : i ≠ .div) (opa opb : Quad) (b b' : Bool) :
    perform i opa opb b = perform i opa opb b' := by
  cases i with
  | div => exact absurd rfl hi
  | _ => rfl

/-- A command with one outcome in two states that hold the same RES agrees in ERR and RES (60_exceptions.md R145). -/
theorem exec_agrees {i : Instr} {s s' t t' : State} (h : exec i s = .next t)
    (h' : exec i s' = .next t') (hres : s'.res = s.res)
    (hp : perform i s'.opa s'.opb s'.cfg.divNormalize = perform i s.opa s.opb s.cfg.divNormalize) :
    t'.err = t.err ∧ t'.res = t.res := by
  rw [exec_eq_complete] at h h'
  rw [hp] at h'
  obtain ⟨r, ho, rfl⟩ | ⟨e, ho, rfl⟩ := complete_cases h <;> rw [ho] at h' <;> cases h'
  · exact ⟨rfl, rfl⟩
  · exact ⟨rfl, hres⟩

/-- Settles O18: each outcome is `perform` of the operands, and the one that is not read does not enter it. -/
theorem unreadOperandsDoNotMatter : Obligations.UnreadOperandsDoNotMatter :=
  fun _ _ _ _ _ _ h =>
    ⟨fun hi h' => exec_agrees h h' rfl (perform_opb hi ..),
      fun hi h' => exec_agrees h h' rfl (perform_normalize hi ..)⟩

/-! ## Decimal results -/

/-! ### Sums, products and reductions -/

/-- Every scale reduction that succeeds gives a triple that Pack admits, whatever its sign (40_primitives.md R63, 10_state.md R24). -/
theorem fits_of_scaleResult {X e m e' : Nat} (h : scaleResult X e = .ok (m, e')) (sign : Bool) :
    (⟨sign, e', m⟩ : Dec).fits = true := by
  obtain ⟨hm, he, -⟩ := scaleResult_fits h
  exact Dec.fits_iff_le.mpr ⟨he, hm⟩

@[simp] theorem Dec.negated_fits (d : Dec) : d.negated.fits = d.fits := rfl

theorem addCore_fits {A B d : Dec} (hA : A.fits = true) (hB : B.fits = true)
    (h : addCore A B = .ok d) : d.fits = true := by
  unfold addCore at h
  split at h
  · cases h
    exact hA
  split at h
  · cases h
    exact hB
  simp only at h
  split at h
  · cases h
  · next hs =>
    cases h
    exact fits_of_scaleResult hs _

theorem mulCore_fits {A B d : Dec} (h : mulCore A B = .ok d) : d.fits = true := by
  unfold mulCore at h
  split at h
  · cases h
  · next hs =>
    cases h
    exact fits_of_scaleResult hs _

theorem scaleresDec_fits {X e : Nat} {d : Dec} (h : scaleresDec X e = .ok d) : d.fits = true := by
  unfold scaleresDec at h
  split at h
  · cases h
  · next hs =>
    cases h
    exact fits_of_scaleResult hs _

/-! ### Division and remainder -/

/-- The bounds that every pass of the division loop keeps (44_divmod.md R103, R104): the quotient fits the mantissa, the remainder is below the divisor, and the scale is at most 28. -/
structure DivLoop.Bounded (d : Nat) (st : DivLoop) : Prop where
  q_le : st.q ≤ MMAX
  r_lt : st.r < d
  t_le : st.t ≤ 28

/-- Everything SearchScale promises (40_primitives.md R67): the step keeps the quotient within the mantissa and the scale within 28. -/
theorem searchScale_bounds {q : Nat} {t : Int} (hq : q ≤ MMAX) (ht : t ≤ 28) :
    searchScale q t ≤ 9 ∧ t + searchScale q t ≤ 28 ∧ q * 10 ^ searchScale q t ≤ MMAX := by
  unfold searchScale
  split
  · exact ⟨by omega, by omega, by simpa using hq⟩
  · obtain ⟨hb, hfit, -⟩ := largestStep_spec q (min pow10Step (28 - t).toNat) hq
    have hb9 : largestStep q (min pow10Step (28 - t).toNat) ≤ 9 := hb.trans (min_le_left _ _)
    have hb28 := hb.trans (min_le_right _ _)
    exact ⟨hb9, by omega, hfit⟩

theorem divStart_bounded {A B : Dec} (hA : A.fits = true) (hB : B.mant ≠ 0) :
    (divStart A B).Bounded B.mant := by
  obtain ⟨he, hm⟩ := Dec.fits_iff_le.mp hA
  exact ⟨(Nat.div_le_self _ _).trans hm, Nat.mod_lt _ (Nat.pos_of_ne_zero hB),
    by simp only [divStart]; omega⟩

/-- A pass that goes on keeps the bounds (44_divmod.md R103). -/
theorem divPass_again_bounded {d : Nat} {st st' : DivLoop} (hst : st.Bounded d)
    (h : divPass d st = .again st') : st'.Bounded d := by
  have ht := (divPass_again_raises h).2
  obtain ⟨-, -, hq, rfl⟩ | ⟨-, -, hq, rfl⟩ := divPass_again h
  · exact ⟨hq, hst.r_lt, ht⟩
  · exact ⟨hq, Nat.mod_lt _ (Nat.zero_lt_of_lt hst.r_lt), ht⟩

/-- The rounding pass leaves with a quotient that fits: a carry to 2^96 drops a digit (44_divmod.md R105 (b)). -/
theorem divRoundPass_exit_le {d : Nat} {st st' : DivLoop} (hq : st.q ≤ MMAX)
    (h : divRoundPass d st = .exit st') : st'.q ≤ MMAX ∧ st'.t ≤ st.t := by
  unfold divRoundPass at h
  simp only at h
  have hup : (if 2 * st.r > d ∨ 2 * st.r = d ∧ st.q % 2 = 1 then st.q + 1 else st.q) ≤ st.q + 1 := by
    split <;> omega
  generalize (if 2 * st.r > d ∨ 2 * st.r = d ∧ st.q % 2 = 1 then st.q + 1 else st.q) = q at h hup
  split at h
  · split at h <;> cases h
    exact ⟨(by decide : carriedQuotient ≤ MMAX), by simp⟩
  · next hcarry =>
    cases h
    unfold MMAX at hq ⊢
    exact ⟨by simp only; omega, le_refl _⟩

/-- The extending pass leaves only when the quotient passed MMAX, by less than 10^k, and then drops a digit (44_divmod.md R105 (a)). -/
theorem divExtendPass_exit_le {d k : Nat} {st st' : DivLoop} (hr : st.r < d) (hk : k ≤ 9)
    (hq : st.q * 10 ^ k ≤ MMAX) (h : divExtendPass d k st = .exit st') :
    st'.q ≤ MMAX ∧ st'.t ≤ st.t + k := by
  have hdigits : st.r * 10 ^ k / d < 10 ^ k :=
    Nat.div_lt_of_lt_mul (Nat.mul_lt_mul_of_pos_right hr (by positivity))
  have hpow : 10 ^ k ≤ 10 ^ 9 := Nat.pow_le_pow_right (by decide) hk
  unfold divExtendPass at h
  simp only at h
  split at h
  · split at h <;> cases h
    unfold MMAX at hq ⊢
    refine ⟨?_, by simp⟩
    simp only
    split <;> omega
  · cases h

/-- A pass that leaves the loop leaves with a quotient and a scale that fit (44_divmod.md R103). -/
theorem divPass_exit_le {d : Nat} {st st' : DivLoop} (hst : st.Bounded d)
    (h : divPass d st = .exit st') : st'.q ≤ MMAX ∧ st'.t ≤ 28 := by
  obtain ⟨hq, hr, ht⟩ := hst
  obtain ⟨hk, hkt, hkq⟩ := searchScale_bounds hq ht
  unfold divPass at h
  split at h
  · unfold divExactPass at h
    split at h
    · split at h <;> cases h
    · cases h
      exact ⟨hq, ht⟩
  simp only at h
  split at h
  · cases h
  split at h
  · obtain ⟨hq', ht'⟩ := divRoundPass_exit_le hq h
    exact ⟨hq', by omega⟩
  · obtain ⟨hq', ht'⟩ := divExtendPass_exit_le hr hk hkq h
    exact ⟨hq', by omega⟩

/-- The loop ends with a quotient and a scale that fit (44_divmod.md R103, R104). -/
theorem divLoop_ok_le {d n : Nat} {st st' : DivLoop} (hst : st.Bounded d)
    (h : divLoop d n st = some (.ok st')) : st'.q ≤ MMAX ∧ st'.t ≤ 28 := by
  induction n generalizing st with
  | zero => cases h
  | succ n ih =>
    rw [divLoop] at h
    split at h
    · next hp => exact ih (divPass_again_bounded hst hp) h
    · next hp =>
      cases h
      exact divPass_exit_le hst hp
    · cases h

/-- Stripping keeps a triple within Pack's bounds (40_primitives.md R62, 10_state.md R24). -/
theorem strip_fits {m e : Nat} (hm : m ≤ MMAX) (he : e ≤ 28) (sign : Bool) :
    (⟨sign, (strip m e).2, (strip m e).1⟩ : Dec).fits = true := by
  obtain ⟨hscale, -, -⟩ := strip_spec m e
  exact Dec.fits_iff_le.mpr ⟨hscale.trans he, (strip_le m e).trans hm⟩

theorem divCore_fits {normalize : Bool} {A B d : Dec} (hA : A.fits = true)
    (h : divCore normalize A B = .ok d) : d.fits = true := by
  unfold divCore at h
  split at h
  · cases h
  next hB =>
  split at h
  · cases h
  · cases h
  next st hloop =>
  obtain ⟨hq, ht⟩ := divLoop_ok_le (divStart_bounded hA hB) hloop
  have ht28 : st.t.toNat ≤ 28 := by omega
  cases h
  split
  · exact strip_fits hq ht28 _
  · exact Dec.fits_iff_le.mpr ⟨ht28, hq⟩

/-- The remainder at the common scale is below both scaled magnitudes, and one of them is not scaled (44_divmod.md R111). -/
theorem remCore_fits {A B d : Dec} (hA : A.fits = true) (hB : B.fits = true)
    (h : remCore A B = .ok d) : d.fits = true := by
  obtain ⟨hAe, hAm⟩ := Dec.fits_iff_le.mp hA
  obtain ⟨hBe, hBm⟩ := Dec.fits_iff_le.mp hB
  unfold remCore at h
  split at h
  · cases h
  next hB0 =>
  split at h
  · cases h
    exact hA
  cases h
  refine Dec.fits_iff_le.mpr ⟨max_le hAe hBe, ?_⟩
  rcases le_total B.scale A.scale with hle | hle
  · have := Nat.mod_le (scaleUp A.mant 0) (scaleUp B.mant (A.scale - B.scale))
    simp only [max_eq_left hle, Nat.sub_self]
    exact this.trans (by simpa [scaleUp] using hAm)
  · have := Nat.mod_lt (scaleUp A.mant (B.scale - A.scale)) (Nat.pos_of_ne_zero hB0)
    simp only [max_eq_right hle, Nat.sub_self]
    simpa [scaleUp] using this.le.trans (by simpa [scaleUp] using hBm)

/-! ### Rounding, normalization and construction -/

theorem roundCore_fits {A : Dec} (hA : A.fits = true) (mode : RoundMode) (t : Nat) :
    (roundCore A mode t).fits = true := by
  unfold roundCore
  split
  · exact hA
  next ht =>
  obtain ⟨he, hm⟩ := (Dec.fits_iff A).mp hA
  have hten : 10 ^ 1 ≤ 10 ^ (A.scale - t) := Nat.pow_le_pow_right (by decide) (by omega)
  have hdiv : A.mant / 10 ^ (A.scale - t) ≤ A.mant / 10 ^ 1 := Nat.div_le_div_left hten (by decide)
  refine (Dec.fits_iff _).mpr ⟨by simp only; omega, ?_⟩
  simp only
  split <;> omega

theorem normCore_fits {A : Dec} (hA : A.fits = true) : (normCore A).fits = true := by
  obtain ⟨he, hm⟩ := Dec.fits_iff_le.mp hA
  exact strip_fits hm he _

theorem decOfParts_fits {opa opb : Quad} {d : Dec} (h : decOfParts opa opb = .ok d) :
    d.fits = true := by
  unfold decOfParts at h
  split at h
  · cases h
  · next hs =>
    cases h
    exact Dec.fits_iff_le.mpr ⟨not_lt.mp hs, opa.u96_le_MMAX⟩

/-- An integer constructed at scale 0 fits when its magnitude does (41_construct.md R86, R88). -/
theorem decOfNat_fits {v : Nat} (h : v ≤ MMAX) : (decOfNat v).fits = true :=
  Dec.fits_iff_le.mpr ⟨Nat.zero_le _, h⟩

theorem decOfInt_fits {v : Int} (h : v.natAbs ≤ MMAX) : (decOfInt v).fits = true :=
  Dec.fits_iff_le.mpr ⟨Nat.zero_le _, h⟩

theorem decOfCurrency_fits {c : Int} (h : c.natAbs ≤ MMAX) : (decOfCurrency c).fits = true := by
  unfold decOfCurrency
  split
  · decide
  · exact strip_fits h (by decide) _

/-- The magnitude of a signed word of at most 64 bits fits the mantissa (41_construct.md R85, R87). -/
theorem natAbs_toInt_le_MMAX {n : Nat} (x : BitVec n) (hn : n ≤ 64) : x.toInt.natAbs ≤ MMAX := by
  have hlo := BitVec.le_two_mul_toInt (x := x)
  have hhi := BitVec.two_mul_toInt_lt (x := x)
  have hpow : (2 : Int) ^ n ≤ 2 ^ 64 := pow_le_pow_right₀ (by decide) hn
  unfold MMAX
  omega

/-! ### Conversion from floating point -/

/-- The power of ten found is the largest in its range that does not exceed the value. -/
theorem lt_of_largestPow10_lt {v bound j : Nat} (h : largestPow10 v bound < j) (hj : j ≤ bound) :
    v < 10 ^ j := by
  induction bound with
  | zero => omega
  | succ k ih =>
    rw [largestPow10] at h
    split at h
    · omega
    · rcases Nat.eq_or_lt_of_le hj with rfl | hlt
      · omega
      · exact ih h (by omega)

/-- A value is below the power of ten above the one found (00_scope.md R9). -/
theorem lt_largestPow10_succ (v : Nat) : v < 10 ^ (largestPow10 v (Nat.log2 v) + 1) := by
  rcases Nat.lt_or_ge (largestPow10 v (Nat.log2 v)) (Nat.log2 v) with h | h
  · exact lt_of_largestPow10_lt (Nat.lt_succ_self _) h
  · calc v < 2 ^ (Nat.log2 v + 1) := Nat.lt_log2_self
      _ ≤ 10 ^ (Nat.log2 v + 1) := Nat.pow_le_pow_left (by decide) _
      _ ≤ 10 ^ (largestPow10 v (Nat.log2 v) + 1) := Nat.pow_le_pow_right (by decide) (by omega)

/-- Every power of ten below the one found is too small. -/
theorem mul_lt_of_lt_leastPow10 {n d j fuel i : Nat} (hj : j ≤ i) (hi : i < leastPow10 n d j fuel) :
    n * 10 ^ i < d := by
  induction fuel generalizing j with
  | zero =>
    rw [leastPow10] at hi
    omega
  | succ k ih =>
    rw [leastPow10] at hi
    split at hi
    · omega
    · rcases Nat.eq_or_lt_of_le hj with rfl | hlt
      · omega
      · exact ih hlt hi

/-- The upper half of `lg10`, n/d < 10^(lg10 + 1), at a scale that leaves N digits (00_scope.md R9, 47_convert.md R131). -/
theorem mul_pow_lt_of_lg10 {n d N p : Nat} (hd : 0 < d) (h : (p : Int) + lg10 n d + 1 ≤ N) :
    n * 10 ^ p < d * 10 ^ N := by
  unfold lg10 at h
  split at h
  · have hv := lt_largestPow10_succ (n / d)
    generalize largestPow10 (n / d) (Nat.log2 (n / d)) = k at h hv
    rw [Nat.div_lt_iff_lt_mul hd] at hv
    calc n * 10 ^ p < 10 ^ (k + 1) * d * 10 ^ p := Nat.mul_lt_mul_of_pos_right hv (by positivity)
      _ = d * 10 ^ (k + 1 + p) := by rw [pow_add _ (k + 1)]; ring
      _ ≤ d * 10 ^ N := Nat.mul_le_mul_left _ (Nat.pow_le_pow_right (by decide) (by omega))
  · next hlt =>
    have hmin := fun i => mul_lt_of_lt_leastPow10 (n := n) (d := d) (j := 0)
      (fuel := Nat.log2 d + 1) (i := i) (Nat.zero_le _)
    generalize leastPow10 n d 0 (Nat.log2 d + 1) = j at h hmin
    cases j with
    | zero =>
      calc n * 10 ^ p < d * 10 ^ p := Nat.mul_lt_mul_of_pos_right (by omega) (by positivity)
        _ ≤ d * 10 ^ N := Nat.mul_le_mul_left _ (Nat.pow_le_pow_right (by decide) (by omega))
    | succ i =>
      calc n * 10 ^ p ≤ n * 10 ^ (i + N) :=
            Nat.mul_le_mul_left _ (Nat.pow_le_pow_right (by decide) (by omega))
        _ = n * 10 ^ i * 10 ^ N := by rw [pow_add]; ring
        _ < d * 10 ^ N := Nat.mul_lt_mul_of_pos_right (hmin i (by omega)) (by positivity)

/-- The digits kept are at most N, so the rounded digits fit the mantissa (47_convert.md R131). -/
theorem roundedAt_digitScale_le {N n d : Nat} (hd : 0 < d) (hN : N ≤ 15)
    (hp : ¬ digitScale N n d < 0) : roundedAt n d (digitScale N n d) ≤ MMAX := by
  obtain ⟨p, hp⟩ := Int.eq_ofNat_of_zero_le (not_lt.mp hp)
  have hlg : (p : Int) + lg10 n d + 1 ≤ N := by
    have : digitScale N n d ≤ (N : Int) - 1 - lg10 n d := min_le_left _ _
    omega
  have hq : n * 10 ^ p / d < 10 ^ N := Nat.div_lt_of_lt_mul (mul_pow_lt_of_lg10 hd hlg)
  have hpow : 10 ^ N ≤ 10 ^ 15 := Nat.pow_le_pow_right (by decide) hN
  have hr := rne_le (n * 10 ^ p) d
  rw [hp, roundedAt]
  simp only [Int.toNat_natCast, show (-(p : Int)).toNat = 0 by omega, pow_zero, Nat.mul_one]
  unfold MMAX
  omega

theorem decOfMagnitude_fits {sign : Bool} {N n d : Nat} {x : Dec} (hd : 0 < d) (hN : N ≤ 15)
    (h : decOfMagnitude sign N n d = .ok x) : x.fits = true := by
  unfold decOfMagnitude at h
  simp only at h
  split at h
  · cases h
    decide
  split at h
  · split at h <;> cases h
    next hle => exact Dec.fits_iff_le.mpr ⟨Nat.zero_le _, not_lt.mp hle⟩
  · next hp =>
    cases h
    have h28 : digitScale N n d ≤ 28 := min_le_right _ _
    exact strip_fits (roundedAt_digitScale_le hd hN hp) (by omega) _

theorem fromFloat_fits {F : FloatFormat} {N x : Nat} {d : Dec} (hN : N ≤ 15)
    (h : fromFloat F N x = .ok d) : d.fits = true := by
  unfold fromFloat at h
  split_ifs at h
  · cases h
    decide
  · exact decOfMagnitude_fits (by simp [FloatFormat.magnitude]) hN h

/-! ### The result words of every decimal command -/

/-- RES holds a valid quadruple in its low half and zeros in its high half (10_state.md R24, 30_encoding.md R56). -/
def Octo.HoldsDecimal (r : Octo) : Prop := r.low.valid = true ∧ r.high = Quad.zero

theorem resWords_holdsDecimal {q : Quad} (h : q.valid = true) : (resWords q.words).HoldsDecimal :=
  ⟨h, rfl⟩

theorem decResult_holdsDecimal {d : Dec} (h : d.fits = true) : (decResult d).HoldsDecimal :=
  resWords_holdsDecimal (pack_valid h)

/-- A decimal outcome writes a decimal when its triple fits (00_scope.md R11). -/
theorem decOutcome_holdsDecimal {o : Except ErrKind Dec} {r : Octo} (h : decOutcome o = .ok r)
    (hfits : ∀ d, o = .ok d → d.fits = true) : r.HoldsDecimal := by
  cases o with
  | error e => cases h
  | ok d =>
    cases h
    exact decResult_holdsDecimal (hfits d rfl)

theorem readDec_ok {q : Quad} {a : Dec} (h : readDec q = .ok a) : q.valid = true ∧ a = q.dec := by
  unfold readDec at h
  split at h <;> cases h
  exact ⟨‹_›, rfl⟩

/-- A command on one decimal operand succeeds on a valid one alone (10_state.md R22, 30_encoding.md R52). -/
theorem onDec_ok {opa : Quad} {f : Dec → Except ErrKind Octo} {r : Octo} (h : onDec opa f = .ok r) :
    opa.valid = true ∧ f opa.dec = .ok r := by
  unfold onDec at h
  split at h
  · cases h
  · next ha =>
    obtain ⟨hv, rfl⟩ := readDec_ok ha
    exact ⟨hv, h⟩

/-- A command on two decimal operands succeeds on valid ones alone (10_state.md R22, 30_encoding.md R52). -/
theorem onDecs_ok {opa opb : Quad} {f : Dec → Dec → Except ErrKind Octo} {r : Octo}
    (h : onDecs opa opb f = .ok r) :
    opa.valid = true ∧ opb.valid = true ∧ f opa.dec opb.dec = .ok r := by
  unfold onDecs at h
  split at h
  · cases h
  next ha =>
  split at h
  · cases h
  next hb =>
  obtain ⟨hva, rfl⟩ := readDec_ok ha
  obtain ⟨hvb, rfl⟩ := readDec_ok hb
  exact ⟨hva, hvb, h⟩

/-- An operation on two decimals writes a decimal when it takes triples that fit to one that fits. -/
theorem onDecs_holdsDecimal {opa opb : Quad} {f : Dec → Dec → Except ErrKind Dec} {r : Octo}
    (h : onDecs opa opb (fun A B => decOutcome (f A B)) = .ok r)
    (hfits : ∀ A B d, A.fits = true → B.fits = true → f A B = .ok d → d.fits = true) :
    r.HoldsDecimal := by
  obtain ⟨ha, hb, ho⟩ := onDecs_ok h
  exact decOutcome_holdsDecimal ho fun d => hfits _ _ d (dec_fits ha) (dec_fits hb)

/-- An operation on one decimal writes a decimal when it takes a triple that fits to one that fits. -/
theorem onDec_holdsDecimal {opa : Quad} {f : Dec → Dec} {r : Octo}
    (h : onDec opa (fun A => .ok (decResult (f A))) = .ok r)
    (hfits : ∀ A, A.fits = true → (f A).fits = true) : r.HoldsDecimal := by
  obtain ⟨ha, ho⟩ := onDec_ok h
  cases ho
  exact decResult_holdsDecimal (hfits _ (dec_fits ha))

/-- Every decimal command that succeeds writes a decimal, with no condition on its K (30_encoding.md R54, R56). -/
theorem perform_holdsDecimal {i : Instr} (hi : givesDecimal i = true) {opa opb : Quad} {b : Bool}
    {r : Octo} (h : perform i opa opb b = .ok r) : r.HoldsDecimal := by
  cases i with
  | cmp | tof64 | tof32 | tocy | mul96x32 | mul96x64 | mul96x96 | div96x32 | div96x64 | div128x96
  | lzc32 | lzc96 | pow10mul => cases hi
  | ldw =>
    obtain ⟨ha, ho⟩ := onDec_ok h
    cases ho
    exact resWords_holdsDecimal ha
  | mkparts => exact decOutcome_holdsDecimal h fun _ => decOfParts_fits
  | fromi32 =>
    cases h
    exact decResult_holdsDecimal (decOfInt_fits (natAbs_toInt_le_MMAX _ (by decide)))
  | fromi64 =>
    cases h
    exact decResult_holdsDecimal (decOfInt_fits (natAbs_toInt_le_MMAX _ (by decide)))
  | fromu32 =>
    cases h
    exact decResult_holdsDecimal (decOfNat_fits (opa.u32_lt.le.trans (by decide)))
  | fromu64 =>
    cases h
    exact decResult_holdsDecimal (decOfNat_fits (opa.u64_lt.le.trans (by decide)))
  | add => exact onDecs_holdsDecimal h fun _ _ _ => addCore_fits
  | sub => exact onDecs_holdsDecimal h fun _ B _ hA hB => addCore_fits hA (B.negated_fits.trans hB)
  | mul => exact onDecs_holdsDecimal h fun _ _ _ _ _ => mulCore_fits
  | div => exact onDecs_holdsDecimal h fun _ _ _ hA _ => divCore_fits hA
  | rem => exact onDecs_holdsDecimal h fun _ _ _ => remCore_fits
  | round mode k => exact onDec_holdsDecimal h fun _ hA => roundCore_fits hA mode k
  | norm => exact onDec_holdsDecimal h fun _ => normCore_fits
  | fromf64 => exact decOutcome_holdsDecimal h fun _ => fromFloat_fits (by decide)
  | fromf32 => exact decOutcome_holdsDecimal h fun _ => fromFloat_fits (by decide)
  | fromcy =>
    cases h
    exact decResult_holdsDecimal (decOfCurrency_fits (natAbs_toInt_le_MMAX _ (by decide)))
  | scaleres k => exact decOutcome_holdsDecimal h fun _ => scaleresDec_fits

/-- Settles O20: a success writes the outcome's words, and those hold a decimal. -/
theorem decimalResultsAreValid : Obligations.DecimalResultsAreValid := by
  intro i s t _ hi h herr
  obtain ⟨r, hr, rfl⟩ | ⟨e, -, rfl⟩ := exec_cases h
  · exact perform_holdsDecimal hi hr
  · exact absurd herr e.code_ne_zero

end Sys2Proof.Machine
end

section
/-! PROOFS. The statements of 20_memory.md: what a host read returns, what a host write changes, the accesses and launches that have no step, and the byte image of a quadruple. -/

namespace Sys2Proof.Machine

open Sys2Proof

/-! ## Host reads -/

/-- The words of the window from offset 0x00 to 0x44, one for each register in the order of the offsets (20_memory.md R31). -/
def State.windowWords (s : State) : List Word :=
  s.opa.words ++ s.opb.words ++ s.res.words ++ [s.cmd, s.status]

/-- Each register reads as the word at its offset (20_memory.md R31). -/
theorem readReg_eq_windowWords (s : State) (r : Reg) :
    readReg s r = s.windowWords.getD (r.offset / 4) 0#32 := by
  cases r with
  | opa i => fin_cases i <;> rfl
  | opb i => fin_cases i <;> rfl
  | res i => fin_cases i <;> rfl
  | cmd => rfl
  | status => rfl

/-- The offsets with no register lie above STATUS (20_memory.md R31, R34). -/
theorem le_of_regAt_none {off : Nat} (ha : off % 4 = 0) (h : regAt off = none) : 0x48 ≤ off := by
  unfold regAt at h
  split_ifs at h
  omega

/-- An aligned offset reads as its word, and as 0 beyond the last register (20_memory.md R34, R37). -/
theorem windowRead_eq_windowWords (s : State) {off : Nat} (ha : off % 4 = 0) :
    windowRead s off = s.windowWords.getD (off / 4) 0#32 := by
  unfold windowRead
  split
  · next r hr => rw [readReg_eq_windowWords, offset_of_regAt ha hr]
  · next hr =>
    have hoff := le_of_regAt_none ha hr
    have hlen : s.windowWords.length = 18 := rfl
    exact (List.getD_eq_default _ _ (by omega)).symm

theorem performEvent_read (addr : Nat) (width : AccessWidth) (s : State) :
    performEvent (.read addr width) s =
      access s addr width fun off => .next (s.withRead (windowRead s off)) := rfl

/-- A read the block defines returns the window's word (20_memory.md R37). -/
theorem step_read {s : State} {rest : List HostEvent} {off : Nat}
    (hl : s.cfg.launch = .inContract) (h : off < 0x80) (ha : off % 4 = 0)
    (hp : s.pending = .read (s.cfg.base + off) .word :: rest) :
    step s = .next ((s.withPending rest).withRead (windowRead (s.withPending rest) off)) := by
  rw [step_event hl hp, performEvent_read]
  exact access_word h ha _

/-- Settles O7: the step reads the window, and the window's words stand in the order of their offsets. -/
theorem hostReadsReturnTheRegisterAtTheOffset :
    Obligations.HostReadsReturnTheRegisterAtTheOffset := by
  intro s rest off hl h ha hp
  rw [step_read hl h ha hp, windowRead_eq_windowWords _ ha]
  rfl

/-! ## Host writes -/

theorem performEvent_write (addr : Nat) (width : AccessWidth) (v : Word) (s : State) :
    performEvent (.write addr width v) s =
      access s addr width fun off => windowWrite s off v := rfl

/-- A write the block defines is a write to the window (20_memory.md R37). -/
theorem step_write {s : State} {rest : List HostEvent} {off : Nat} {v : Word}
    (hl : s.cfg.launch = .inContract) (h : off < 0x80) (ha : off % 4 = 0)
    (hp : s.pending = .write (s.cfg.base + off) .word v :: rest) :
    step s = windowWrite (s.withPending rest) off v := by
  rw [step_event hl hp, performEvent_write]
  exact access_word h ha _

theorem windowWrite_opa (s : State) (i : Fin 4) (v : Word) :
    windowWrite s (Reg.opa i).offset v = .next (s.withOpa i v) := by
  rw [windowWrite, regAt_offset]

theorem windowWrite_opb (s : State) (i : Fin 4) (v : Word) :
    windowWrite s (Reg.opb i).offset v = .next (s.withOpb i v) := by
  rw [windowWrite, regAt_offset]

/-- A write above the operand registers, CMD apart, is ignored (20_memory.md R34, R37, 10_state.md R17). -/
theorem windowWrite_ignored (s : State) {off : Nat} (v : Word) (ha : off % 4 = 0)
    (hlo : 0x20 ≤ off) (hcmd : off ≠ 0x40) : windowWrite s off v = .next s := by
  cases hr : regAt off with
  | none => rw [windowWrite, hr]
  | some r =>
    have hoff := offset_of_regAt ha hr
    cases r with
    | opa i => simp only [Reg.offset] at hoff; omega
    | opb i => simp only [Reg.offset] at hoff; omega
    | res i => rw [windowWrite, hr]
    | cmd => exact absurd hoff.symm hcmd
    | status => rw [windowWrite, hr]

/-- An aligned offset below 0x20 is that of an operand register (20_memory.md R31). -/
theorem operand_of_offset {off : Nat} (ha : off % 4 = 0) (h : off < 0x20) :
    (∃ i : Fin 4, off = (Reg.opa i).offset) ∨ ∃ i : Fin 4, off = (Reg.opb i).offset := by
  rcases Nat.lt_or_ge off 0x10 with hlo | hhi
  · exact .inl ⟨⟨off / 4, by omega⟩, by simp only [Reg.offset]; omega⟩
  · exact .inr ⟨⟨off / 4 - 4, by omega⟩, by simp only [Reg.offset]; omega⟩

/-- A write to a register of a quadruple changes that one word (20_memory.md R37). -/
theorem Quad.set_words (q : Quad) (i : Fin 4) (v : Word) : (q.set i v).words = q.words.set i v := by
  fin_cases i <;> rfl

/-- Of the eight operand words, a write to OPA[i] changes the one at its offset (20_memory.md R31, R37). -/
theorem operandWords_set_opa (a b : Quad) (i : Fin 4) (v : Word) :
    (a.set i v).words ++ b.words = (a.words ++ b.words).set ((Reg.opa i).offset / 4) v := by
  rw [Quad.set_words, Reg.offset, Nat.mul_div_cancel_left _ (by decide),
    List.set_append_left _ _ i.isLt]

/-- Of the eight operand words, a write to OPB[i] changes the one at its offset (20_memory.md R31, R37). -/
theorem operandWords_set_opb (a b : Quad) (i : Fin 4) (v : Word) :
    a.words ++ (b.set i v).words = (a.words ++ b.words).set ((Reg.opb i).offset / 4) v := by
  have hidx : (Reg.opb i).offset / 4 = a.words.length + i := by
    simp only [Reg.offset, Quad.words, List.length_cons, List.length_nil]
    omega
  rw [Quad.set_words, hidx, List.set_append_right _ _ (Nat.le_add_right _ _), Nat.add_sub_cancel_left]

/-- Settles O8: below 0x20 the offset is that of one operand register; above, the window ignores the write. -/
theorem hostWritesChangeOneOperandRegisterOrNothing :
    Obligations.HostWritesChangeOneOperandRegisterOrNothing := by
  intro s rest off v hl h ha hp
  rw [step_write hl h ha hp]
  refine ⟨fun hoff => ?_, fun hlo hcmd => windowWrite_ignored _ v ha hlo hcmd⟩
  obtain ⟨i, rfl⟩ | ⟨i, rfl⟩ := operand_of_offset ha hoff
  · exact ⟨s.opa.set i v, s.opb, windowWrite_opa _ i v, operandWords_set_opa s.opa s.opb i v⟩
  · exact ⟨s.opa, s.opb.set i v, windowWrite_opb _ i v, operandWords_set_opb s.opa s.opb i v⟩

/-! ## The byte image -/

/-- The byte image is the bytes of the four words, register 0 first (20_memory.md R36). -/
theorem Quad.byteImage_eq_bytesOfWord (q : Quad) :
    q.byteImage = bytesOfWord q.w0 ++ bytesOfWord q.w1 ++ bytesOfWord q.w2 ++ bytesOfWord q.w3 :=
  rfl

/-- The bytes of a word below a little-endian number: the word is its lowest limb (20_memory.md R36). -/
theorem foldr_bytesOfWord (w : Word) (n : Nat) :
    (bytesOfWord w).foldr (fun b n => b.toNat + 256 * n) n = w.toNat + 2 ^ 32 * n := by
  have hw := w.isLt
  simp only [bytesOfWord, List.foldr_cons, List.foldr_nil, BitVec.extractLsb'_toNat,
    Nat.shiftRight_eq_div_pow]
  omega

/-- Settles O24: the bytes of each word in turn are one limb of the concatenation. -/
theorem byteImageIsLittleEndian : Obligations.ByteImageIsLittleEndian := by
  refine fun q => ⟨rfl, ?_⟩
  simp only [Quad.byteImage_eq_bytesOfWord, List.foldr_append, foldr_bytesOfWord, toNat_append_word]
  omega

/-! ## Accesses and launches without a step -/

theorem inWindow_base_add {c : Config} {off : Nat} (h : off < 0x80) :
    inWindow c (c.base + off) = true := by
  simp [inWindow, windowBytes, h]

/-- An access of another width stops the host (20_memory.md R32). -/
theorem access_width {s : State} {off : Nat} {width : AccessWidth} (h : off < 0x80)
    (hw : width ≠ .word) (perform : Nat → Host.Outcome State Fault Refusal) :
    access s (s.cfg.base + off) width perform = .fault .accessWidth := by
  simp [access, inWindow_base_add h, hw]

/-- A misaligned word access stops the host (20_memory.md R32). -/
theorem access_misaligned {s : State} {off : Nat} (h : off < 0x80) (ha : off % 4 ≠ 0)
    (perform : Nat → Host.Outcome State Fault Refusal) :
    access s (s.cfg.base + off) .word perform = .fault .accessMisaligned := by
  simp [access, inWindow_base_add h, ha]

/-- A read or a write that is the oldest event is an access to the window (20_memory.md R37, R39). -/
theorem step_eq_access {s : State} {rest : List HostEvent} {addr : Nat} {width : AccessWidth}
    {v : Word} (hl : s.cfg.launch = .inContract)
    (hp : s.pending = .read addr width :: rest ∨ s.pending = .write addr width v :: rest) :
    ∃ perform, step s = access (s.withPending rest) addr width perform := by
  rcases hp with hp | hp
  · exact ⟨_, (step_event hl hp).trans (performEvent_read addr width _)⟩
  · exact ⟨_, (step_event hl hp).trans (performEvent_write addr width v _)⟩

/-- Settles O9: a read and a write are both stopped by the test of the access. -/
theorem otherAccessesAreStuck : Obligations.OtherAccessesAreStuck := by
  intro s rest off width v hl h hp
  obtain ⟨perform, hs⟩ := step_eq_access hl hp
  rw [hs]
  refine ⟨fun hw => access_width (s := s.withPending rest) h hw perform, ?_⟩
  rintro rfl ha
  exact access_misaligned (s := s.withPending rest) h ha perform

/-- A launch with unsynchronised hosts has no step (20_memory.md R41). -/
theorem step_unsynchronisedHosts {s : State} (h : s.cfg.launch = .unsynchronisedHosts) :
    step s = .refused .unsynchronisedHosts := by
  simp [step, stepOf, h]

/-- A launch whose accesses may be reordered has no step (20_memory.md R40). -/
theorem step_unorderedAccesses {s : State} (h : s.cfg.launch = .unorderedAccesses) :
    step s = .refused .unorderedAccesses := by
  simp [step, stepOf, h]

/-- Settles O10: both launches are refused, so any step taken is of a launch in the contract. -/
theorem launchesOutsideTheContractAreRefused :
    Obligations.LaunchesOutsideTheContractAreRefused :=
  fun _ => ⟨step_unsynchronisedHosts, step_unorderedAccesses, fun _ h => (step_cases h).1⟩

end Sys2Proof.Machine
end

section
/-! PROOFS. The statements of 30_encoding.md: the command word and its table, the performing of a word, the checks of the operands, and the host's pseudo-instructions. -/

namespace Sys2Proof

/-! ## The fields of a word -/

/-- The fields of a word as digits of its number (30_encoding.md R45). -/
theorem toNat_fields (w : Word) :
    (opcField w).toNat = w.toNat % 2 ^ 8 ∧ (modeField w).toNat = w.toNat / 2 ^ 8 % 2 ^ 3 ∧
      (rsv0Field w).toNat = w.toNat / 2 ^ 11 % 2 ^ 5 ∧ (kField w).toNat = w.toNat / 2 ^ 16 % 2 ^ 6 ∧
      (rsv1Field w).toNat = w.toNat / 2 ^ 22 % 2 ^ 10 := by
  simp [opcField, modeField, rsv0Field, kField, rsv1Field, Nat.shiftRight_eq_div_pow]

/-- A word is known by its five fields (30_encoding.md R45). -/
theorem word_ext_fields {v w : Word} (hopc : opcField v = opcField w)
    (hmode : modeField v = modeField w) (hrsv0 : rsv0Field v = rsv0Field w)
    (hk : kField v = kField w) (hrsv1 : rsv1Field v = rsv1Field w) : v = w := by
  obtain ⟨v1, v2, v3, v4, v5⟩ := toNat_fields v
  obtain ⟨w1, w2, w3, w4, w5⟩ := toNat_fields w
  have hv := v.isLt
  have hw := w.isLt
  rw [BitVec.toNat_eq] at *
  omega

/-- The fields of an assembled word whose parts fit them, as digits of one number (30_encoding.md R58). -/
theorem toNat_assemble {opc mode k : Nat} (ho : opc < 2 ^ 8) (hm : mode < 2 ^ 3) (hk : k < 2 ^ 6) :
    (assemble opc mode k).toNat = opc + mode * 2 ^ 8 + k * 2 ^ 16 := by
  have hlo : opc ||| mode <<< 8 = opc + mode * 2 ^ 8 := by
    rw [Nat.or_comm, ← Nat.shiftLeft_add_eq_or_of_lt ho, Nat.shiftLeft_eq, Nat.add_comm]
  have hall : opc + mode * 2 ^ 8 ||| k <<< 16 = opc + mode * 2 ^ 8 + k * 2 ^ 16 := by
    rw [Nat.or_comm, ← Nat.shiftLeft_add_eq_or_of_lt (by omega), Nat.shiftLeft_eq, Nat.add_comm]
  simp only [assemble, BitVec.toNat_or, BitVec.toNat_shiftLeft, BitVec.toNat_ofNat]
  rw [Nat.mod_eq_of_lt (by omega : opc < 2 ^ 32), Nat.mod_eq_of_lt (by omega : mode < 2 ^ 32),
    Nat.mod_eq_of_lt (by omega : k < 2 ^ 32), Nat.mod_eq_of_lt (by rw [Nat.shiftLeft_eq]; omega),
    Nat.mod_eq_of_lt (by rw [Nat.shiftLeft_eq]; omega), hlo, hall]

/-- An assembled word holds its parts, and 0 in the reserved fields (30_encoding.md R45, R58). -/
theorem fields_assemble {opc mode k : Nat} (ho : opc < 2 ^ 8) (hm : mode < 2 ^ 3)
    (hk : k < 2 ^ 6) :
    (opcField (assemble opc mode k)).toNat = opc ∧ (modeField (assemble opc mode k)).toNat = mode ∧
      (kField (assemble opc mode k)).toNat = k ∧ rsv0Field (assemble opc mode k) = 0 ∧
      rsv1Field (assemble opc mode k) = 0 := by
  obtain ⟨h1, h2, h3, h4, h5⟩ := toNat_fields (assemble opc mode k)
  rw [toNat_assemble ho hm hk] at h1 h2 h3 h4 h5
  simp only [BitVec.toNat_eq, BitVec.ofNat_eq_ofNat, BitVec.toNat_ofNat]
  omega

/-- A word whose reserved fields are 0 is assembled from its other fields (30_encoding.md R58). -/
theorem assemble_fields {w : Word} (h0 : rsv0Field w = 0) (h1 : rsv1Field w = 0) :
    assemble (opcField w).toNat (modeField w).toNat (kField w).toNat = w := by
  obtain ⟨a1, a2, a3, a4, a5⟩ :=
    fields_assemble (opcField w).isLt (modeField w).isLt (kField w).isLt
  exact word_ext_fields (BitVec.eq_of_toNat_eq a1) (BitVec.eq_of_toNat_eq a2) (a4.trans h0.symm)
    (BitVec.eq_of_toNat_eq a3) (a5.trans h1.symm)

/-! ## The fields of a command -/

/-- MODE of a command's word (30_encoding.md R58). -/
def Instr.modeCode : Instr → Nat
  | .round m _ => m.code
  | _ => 0

/-- K of a command's word (30_encoding.md R58). -/
def Instr.kCode : Instr → Nat
  | .round _ k | .pow10mul k | .scaleres k => k
  | _ => 0

/-- The word of every command is assembled from its OPC, MODE and K (30_encoding.md R58). -/
theorem encode_eq_assemble (i : Instr) : encode i = assemble i.opc i.modeCode i.kCode := by
  cases i <;> rfl

theorem RoundMode.code_le (m : RoundMode) : m.code ≤ 4 := by cases m <;> decide

theorem Instr.opc_lt (i : Instr) : i.opc < 2 ^ 8 := by cases i <;> simp [Instr.opc]

theorem Instr.modeCode_lt (i : Instr) : i.modeCode < 2 ^ 3 := by
  cases i with
  | round m k => exact m.code_le.trans_lt (by decide)
  | _ => exact Nat.two_pow_pos 3

/-- K of a well-formed command fits its field (30_encoding.md R49 (c)). -/
theorem Instr.kCode_lt {i : Instr} (h : i.wf = true) : i.kCode < 2 ^ 6 := by
  cases i with
  | round m k => exact (of_decide_eq_true h : k ≤ 28).trans_lt (by decide)
  | pow10mul k => exact (of_decide_eq_true h : k ≤ 28).trans_lt (by decide)
  | scaleres k => exact (of_decide_eq_true h : k ≤ 56).trans_lt (by decide)
  | _ => decide

/-- Conditions (a), (b) and (c) of 30_encoding.md R49: a word's fields are those of a well-formed command. -/
structure Instr.Matches (i : Instr) (w : Word) : Prop where
  rsv0 : rsv0Field w = 0
  rsv1 : rsv1Field w = 0
  opc : (opcField w).toNat = i.opc
  mode : (modeField w).toNat = i.modeCode
  k : (kField w).toNat = i.kCode
  wf : i.wf = true

theorem Instr.matches_iff (i : Instr) (w : Word) :
    i.Matches w ↔ rsv0Field w = 0 ∧ rsv1Field w = 0 ∧ (opcField w).toNat = i.opc ∧
      (modeField w).toNat = i.modeCode ∧ (kField w).toNat = i.kCode ∧ i.wf = true :=
  ⟨fun h => ⟨h.rsv0, h.rsv1, h.opc, h.mode, h.k, h.wf⟩,
    fun ⟨h0, h1, ho, hm, hk, hwf⟩ => ⟨h0, h1, ho, hm, hk, hwf⟩⟩

/-- The assembled word of a well-formed command has the command's fields (30_encoding.md R58). -/
theorem Instr.matches_encode {i : Instr} (h : i.wf = true) : i.Matches (encode i) := by
  obtain ⟨ho, hm, hk, h0, h1⟩ := fields_assemble i.opc_lt i.modeCode_lt (i.kCode_lt h)
  rw [encode_eq_assemble]
  exact ⟨h0, h1, ho, hm, hk, h⟩

/-- A word with the fields of a command is the command's assembled word (30_encoding.md R58). -/
theorem Instr.Matches.encode_eq {i : Instr} {w : Word} (h : i.Matches w) : encode i = w := by
  rw [encode_eq_assemble, ← h.opc, ← h.mode, ← h.k, assemble_fields h.rsv0 h.rsv1]

/-! ## The decoder -/

theorem decodeMode_eq_ok {c : BitVec 3} {m : RoundMode} :
    decodeMode c = .ok m ↔ c.toNat = m.code := by
  revert c
  cases m <;> decide

theorem decodePlain_eq_ok {w : Word} {i j : Instr} :
    decodePlain w i = .ok j ↔ (modeField w).toNat = 0 ∧ (kField w).toNat = 0 ∧ i = j := by
  unfold decodePlain
  split_ifs with hm hk <;> simp_all [BitVec.toNat_eq]

theorem decodeK_map_eq_ok {w : Word} {bound : Nat} {mk : Nat → Instr} {j : Instr} :
    (decodeK w bound).map mk = .ok j ↔ (kField w).toNat ≤ bound ∧ mk (kField w).toNat = j := by
  unfold decodeK
  split_ifs with hk <;> simp [Except.map, hk]

theorem decodeWithK_eq_ok {w : Word} {bound : Nat} {mk : Nat → Instr} {j : Instr} :
    decodeWithK w bound mk = .ok j ↔
      (modeField w).toNat = 0 ∧ (kField w).toNat ≤ bound ∧ mk (kField w).toNat = j := by
  unfold decodeWithK
  split_ifs with hm
  · simp_all [BitVec.toNat_eq]
  · simp_all [BitVec.toNat_eq, decodeK_map_eq_ok]

/-- A given command that K tells from the others of its kind (30_encoding.md R49 (b), (c)). -/
theorem decodeWithK_eq_ok_of_injective {w : Word} {bound k : Nat} {mk : Nat → Instr}
    (hmk : mk.Injective) :
    decodeWithK w bound mk = .ok (mk k) ↔
      (modeField w).toNat = 0 ∧ (kField w).toNat = k ∧ decide (k ≤ bound) = true := by
  rw [decodeWithK_eq_ok, hmk.eq_iff, decide_eq_true_iff]
  exact and_congr_right fun _ => and_comm.trans (and_congr_right fun h => by rw [h])

/-- ROUND needs a MODE of the five and a K of at most 28 (30_encoding.md R49 (b), (c)). -/
theorem decodeRound_eq_ok {w : Word} {j : Instr} :
    decodeRound w = .ok j ↔
      ∃ m, (modeField w).toNat = m.code ∧ (kField w).toNat ≤ 28 ∧ .round m (kField w).toNat = j := by
  simp only [← decodeMode_eq_ok]
  unfold decodeRound
  cases decodeMode (modeField w) with
  | ok m => simp [decodeK_map_eq_ok]
  | error e => simp

/-- A word that decodes has the OPC of its command (30_encoding.md R49). -/
theorem opc_of_decodeOpc {w : Word} {i : Instr} (h : decodeOpc w = .ok i) :
    (opcField w).toNat = i.opc := by
  unfold decodeOpc at h
  split at h
  -- The rows in the decoder's order: 12 is ROUND, 29 and 30 take K alone, 31 is the reserved values.
  case h_12 ho =>
    obtain ⟨m, -, -, rfl⟩ := decodeRound_eq_ok.mp h
    exact ho
  case h_29 ho | h_30 ho =>
    obtain ⟨-, -, rfl⟩ := decodeWithK_eq_ok.mp h
    exact ho
  case h_31 => cases h
  all_goals
    next ho =>
    obtain ⟨-, -, rfl⟩ := decodePlain_eq_ok.mp h
    exact ho

/-- The check of MODE and K that a command's row asks for (30_encoding.md R49 (b), (c)). -/
def Instr.decodeFields (i : Instr) (w : Word) : Except DecodeError Instr :=
  match i with
  | .round _ _ => decodeRound w
  | .pow10mul _ => decodeWithK w scaleMax .pow10mul
  | .scaleres _ => decodeWithK w scaleSumMax .scaleres
  | i => decodePlain w i

/-- With the OPC of a command, a word decodes as the command's row says (30_encoding.md R48). -/
theorem decodeOpc_of_opc {w : Word} {i : Instr} (h : (opcField w).toNat = i.opc) :
    decodeOpc w = i.decodeFields w := by
  unfold decodeOpc
  rw [h]
  cases i <;> rfl

/-- The check succeeds on the MODE and K of a well-formed command alone (30_encoding.md R49 (b), (c)). -/
theorem decodeFields_eq_ok {w : Word} {i : Instr} :
    i.decodeFields w = .ok i ↔
      (modeField w).toNat = i.modeCode ∧ (kField w).toNat = i.kCode ∧ i.wf = true := by
  cases i with
  | round m k =>
    simp only [Instr.decodeFields, decodeRound_eq_ok, Instr.modeCode, Instr.kCode, Instr.wf,
      decide_eq_true_iff, Instr.round.injEq]
    constructor
    · rintro ⟨_, hm, hk, rfl, rfl⟩
      exact ⟨hm, rfl, hk⟩
    · rintro ⟨hm, rfl, hk⟩
      exact ⟨m, hm, hk, rfl, rfl⟩
  | pow10mul k => exact decodeWithK_eq_ok_of_injective fun _ _ => Instr.pow10mul.inj
  | scaleres k => exact decodeWithK_eq_ok_of_injective fun _ _ => Instr.scaleres.inj
  | _ => simp [Instr.decodeFields, decodePlain_eq_ok, Instr.modeCode, Instr.kCode, Instr.wf]

/-- A word selects a command exactly when it has the command's fields (30_encoding.md R49). -/
theorem decode_eq_ok {w : Word} {i : Instr} : decode w = .ok i ↔ i.Matches w := by
  unfold decode
  split_ifs with hr
  · exact ⟨nofun, fun h => absurd hr (by simp [h.rsv0, h.rsv1])⟩
  · obtain ⟨h0, h1⟩ : rsv0Field w = 0 ∧ rsv1Field w = 0 := by simpa using hr
    constructor
    · intro h
      have ho := opc_of_decodeOpc h
      rw [decodeOpc_of_opc ho] at h
      obtain ⟨hm, hk, hwf⟩ := decodeFields_eq_ok.mp h
      exact ⟨h0, h1, ho, hm, hk, hwf⟩
    · intro h
      rw [decodeOpc_of_opc h.opc]
      exact decodeFields_eq_ok.mpr ⟨h.mode, h.k, h.wf⟩

/-- Settles O1: the assembled word has the fields of its command. -/
theorem decodeOfEncodeGivesTheCommand : Obligations.DecodeOfEncodeGivesTheCommand :=
  fun _ h => decode_eq_ok.mpr (Instr.matches_encode h)

/-- Settles O2: a word that decodes has the fields of its command, and is assembled from them. -/
theorem decodedWordIsTheEncodingOfItsCommand :
    Obligations.DecodedWordIsTheEncodingOfItsCommand :=
  fun _ _ h => ⟨(decode_eq_ok.mp h).wf, (decode_eq_ok.mp h).encode_eq⟩

/-! ## The opcode table -/

/-- A row's mask covers whole fields, OPC and the reserved ones among them, and a field it does not fix is 0 in the match (30_encoding.md R49). -/
def OpcodeRow.Regular (row : OpcodeRow) : Prop :=
  (opcField row.mask = BitVec.allOnes 8 ∧ rsv0Field row.mask = BitVec.allOnes 5 ∧
      rsv1Field row.mask = BitVec.allOnes 10) ∧
    (modeField row.mask = BitVec.allOnes 3 ∧ row.modeMax = 0 ∨ modeField row.mask = 0) ∧
    (kField row.mask = BitVec.allOnes 6 ∧ row.kMax = 0 ∨ kField row.mask = 0) ∧
    rsv0Field row.value = 0 ∧ rsv1Field row.value = 0 ∧ modeField row.value = 0 ∧
    kField row.value = 0

theorem regular_of_mem : ∀ row ∈ opcodeRows, row.Regular := by
  unfold OpcodeRow.Regular
  decide

/-- The fields of a masked word are the masked fields. -/
theorem fields_and (v w : Word) :
    opcField (v &&& w) = opcField v &&& opcField w ∧
      modeField (v &&& w) = modeField v &&& modeField w ∧
      rsv0Field (v &&& w) = rsv0Field v &&& rsv0Field w ∧
      kField (v &&& w) = kField v &&& kField w ∧
      rsv1Field (v &&& w) = rsv1Field v &&& rsv1Field w := by
  simp only [opcField, modeField, rsv0Field, kField, rsv1Field, BitVec.extractLsb'_and, and_self]

/-- A row selects by the fields: its OPC, zeros in the reserved fields, and MODE and K in its ranges (30_encoding.md R49). -/
theorem OpcodeRow.Regular.selects_iff {row : OpcodeRow} (h : row.Regular) (w : Word) :
    row.selects w = true ↔
      opcField w = opcField row.value ∧ rsv0Field w = 0 ∧ rsv1Field w = 0 ∧
        (modeField w).toNat ≤ row.modeMax ∧ (kField w).toNat ≤ row.kMax := by
  obtain ⟨⟨mopc, mrsv0, mrsv1⟩, mmode, mk, vrsv0, vrsv1, vmode, vk⟩ := h
  obtain ⟨aopc, amode, arsv0, ak, arsv1⟩ := fields_and w row.mask
  rw [mopc, BitVec.and_allOnes] at aopc
  rw [mrsv0, BitVec.and_allOnes] at arsv0
  rw [mrsv1, BitVec.and_allOnes] at arsv1
  simp only [OpcodeRow.selects, Bool.and_eq_true, beq_iff_eq, decide_eq_true_iff]
  constructor
  · rintro ⟨⟨hv, hm⟩, hk⟩
    rw [hv] at aopc arsv0 arsv1
    exact ⟨aopc.symm, arsv0.symm.trans vrsv0, arsv1.symm.trans vrsv1, hm, hk⟩
  · rintro ⟨ho, h0, h1, hm, hk⟩
    have hmode : modeField w = 0 ∨ modeField row.mask = 0 :=
      mmode.imp_left fun hmax => BitVec.eq_of_toNat_eq (by simpa [hmax.2] using hm)
    have hkf : kField w = 0 ∨ kField row.mask = 0 :=
      mk.imp_left fun hmax => BitVec.eq_of_toNat_eq (by simpa [hmax.2] using hk)
    refine ⟨⟨word_ext_fields (aopc.trans ho) ?_ ((arsv0.trans h0).trans vrsv0.symm) ?_
      ((arsv1.trans h1).trans vrsv1.symm), hm⟩, hk⟩
    · rw [amode, vmode]
      rcases hmode with hz | hz <;> simp [hz]
    · rw [ak, vk]
      rcases hkf with hz | hz <;> simp [hz]

/-- Each row has an OPC of its own (30_encoding.md R48). -/
theorem row_eq_of_opc {r r' : OpcodeRow} (h : r ∈ opcodeRows) (h' : r' ∈ opcodeRows)
    (ho : opcField r.value = opcField r'.value) : r = r' :=
  List.inj_on_of_nodup_map (f := fun row : OpcodeRow => opcField row.value) (by decide) h h' ho

/-- The row of a command (30_encoding.md R48). -/
def Instr.row (i : Instr) : OpcodeRow :=
  match i with
  | .round _ _ => { mask := 0xFFC0F8FF#32, value := 0x18#32, modeMax := 4, kMax := 28 }
  | .pow10mul _ => { mask := 0xFFC0FFFF#32, value := 0x3A#32, modeMax := 0, kMax := 28 }
  | .scaleres _ => { mask := 0xFFC0FFFF#32, value := 0x3B#32, modeMax := 0, kMax := 56 }
  | i => fixedRow (BitVec.ofNat 32 i.opc)

theorem Instr.row_mem (i : Instr) : i.row ∈ opcodeRows := by
  cases i <;>
    simp [Instr.row, Instr.opc, opcodeRows, arithmeticRows, conversionRows, primitiveRows, fixedRow]

theorem Instr.opcField_row (i : Instr) : (opcField i.row.value).toNat = i.opc := by
  cases i <;> rfl

/-- A command is well formed when its MODE and K lie in the ranges of its row (30_encoding.md R49 (b), (c)). -/
theorem Instr.wf_iff_row (i : Instr) :
    i.wf = true ↔ i.modeCode ≤ i.row.modeMax ∧ i.kCode ≤ i.row.kMax := by
  cases i with
  | round m k => simp [Instr.wf, Instr.modeCode, Instr.kCode, Instr.row, m.code_le]
  | _ => simp [Instr.wf, Instr.modeCode, Instr.kCode, Instr.row, fixedRow]

/-- A command of each row in turn (30_encoding.md R48). -/
def tableCommands : List Instr :=
  [.ldw, .mkparts, .fromi32, .fromu32, .fromi64, .fromu64, .add, .sub, .mul, .div, .rem,
   .round .rne 0, .cmp, .norm, .tof64, .tof32, .fromf64, .fromf32, .fromcy, .tocy,
   .mul96x32, .mul96x64, .mul96x96, .div96x32, .div96x64, .div128x96, .lzc32, .lzc96,
   .pow10mul 0, .scaleres 0]

theorem opcodeRows_eq_map : opcodeRows = tableCommands.map Instr.row := rfl

theorem RoundMode.exists_code {mode : Nat} (h : mode ≤ 4) : ∃ m : RoundMode, m.code = mode := by
  interval_cases mode
  exacts [⟨.rne, rfl⟩, ⟨.away, rfl⟩, ⟨.trunc, rfl⟩, ⟨.floor, rfl⟩, ⟨.ceil, rfl⟩]

/-- Every MODE and K in the ranges of a command's row are those of a command of the row (30_encoding.md R49). -/
theorem Instr.exists_of_codes (i : Instr) {mode k : Nat} (hm : mode ≤ i.row.modeMax)
    (hk : k ≤ i.row.kMax) : ∃ j : Instr, j.row = i.row ∧ j.modeCode = mode ∧ j.kCode = k := by
  cases i with
  | round _ _ =>
    obtain ⟨m, hcode⟩ := RoundMode.exists_code hm
    exact ⟨.round m k, rfl, hcode, rfl⟩
  | pow10mul _ => exact ⟨.pow10mul k, rfl, (Nat.le_zero.mp hm).symm, rfl⟩
  | scaleres _ => exact ⟨.scaleres k, rfl, (Nat.le_zero.mp hm).symm, rfl⟩
  | _ => exact ⟨_, rfl, (Nat.le_zero.mp hm).symm, (Nat.le_zero.mp hk).symm⟩

/-- A command's row selects the words with the command's OPC, and MODE and K of a command of the row (30_encoding.md R49). -/
theorem Instr.row_selects_iff (i : Instr) (w : Word) :
    i.row.selects w = true ↔ ∃ j : Instr, j.row = i.row ∧ j.Matches w := by
  rw [(regular_of_mem _ i.row_mem).selects_iff, BitVec.toNat_eq, i.opcField_row]
  constructor
  · rintro ⟨ho, h0, h1, hm, hk⟩
    obtain ⟨j, hrow, hmode, hkc⟩ := i.exists_of_codes hm hk
    have hopc : i.opc = j.opc := by rw [← i.opcField_row, ← j.opcField_row, hrow]
    exact ⟨j, hrow, h0, h1, ho.trans hopc, hmode.symm, hkc.symm,
      j.wf_iff_row.mpr (by rw [hrow, hmode, hkc]; exact ⟨hm, hk⟩)⟩
  · rintro ⟨j, hrow, hj⟩
    obtain ⟨hm, hk⟩ := j.wf_iff_row.mp hj.wf
    rw [← hj.mode, hrow] at hm
    rw [← hj.k, hrow] at hk
    refine ⟨?_, hj.rsv0, hj.rsv1, hm, hk⟩
    rw [hj.opc, ← i.opcField_row, ← j.opcField_row, hrow]

/-- A word decodes exactly when a row of the table selects it (30_encoding.md R49). -/
theorem decode_ok_iff_selects (w : Word) :
    (∃ i, decode w = .ok i) ↔ ∃ row ∈ opcodeRows, row.selects w = true := by
  simp only [decode_eq_ok]
  constructor
  · rintro ⟨i, hi⟩
    exact ⟨i.row, i.row_mem, (i.row_selects_iff w).mpr ⟨i, rfl, hi⟩⟩
  · rintro ⟨row, hrow, hs⟩
    obtain ⟨i, -, rfl⟩ := List.mem_map.mp (opcodeRows_eq_map ▸ hrow)
    obtain ⟨j, -, hj⟩ := (i.row_selects_iff w).mp hs
    exact ⟨j, hj⟩

/-- No two rows select one word (30_encoding.md R49). -/
theorem row_eq_of_selects {w : Word} {r r' : OpcodeRow} (h : r ∈ opcodeRows) (h' : r' ∈ opcodeRows)
    (hs : r.selects w = true) (hs' : r'.selects w = true) : r = r' := by
  obtain ⟨ho, -⟩ := ((regular_of_mem _ h).selects_iff w).mp hs
  obtain ⟨ho', -⟩ := ((regular_of_mem _ h').selects_iff w).mp hs'
  exact row_eq_of_opc h h' (ho.symm.trans ho')

/-- Settles O3: the fields are those of `Instr.Matches`, and each row selects by the same fields. -/
theorem decodeFollowsTheFieldsAndTheTable : Obligations.DecodeFollowsTheFieldsAndTheTable := by
  refine ⟨fun w i => ?_, decode_ok_iff_selects, fun w r r' => row_eq_of_selects⟩
  rw [decode_eq_ok, i.matches_iff]
  refine and_congr_right fun _ => and_congr_right fun _ => and_congr_right fun _ => ?_
  cases i with
  | round m k => simp [modeField, kField, Instr.modeCode, Instr.kCode, Instr.wf]
  | _ => simp [modeField, kField, Instr.modeCode, Instr.kCode, Instr.wf, BitVec.toNat_eq]

/-! ## Legal and illegal words -/

/-- The assembled word of a well-formed command decodes to it (30_encoding.md R58). -/
theorem decode_of_encode_eq {i : Instr} {w : Word} (hwf : i.wf = true) (h : encode i = w) :
    decode w = .ok i :=
  h ▸ decode_eq_ok.mpr (Instr.matches_encode hwf)

/-- Settles O4: each word is the assembled word of its command. -/
theorem wordsOfTheSpecDecode : Obligations.WordsOfTheSpecDecode := by
  unfold Obligations.WordsOfTheSpecDecode
  repeat' apply And.intro
  all_goals exact decode_of_encode_eq rfl rfl

/-- The OPC values that no command has (30_encoding.md R51). -/
def ReservedOpc (opc : Nat) : Prop :=
  opc = 0x00 ∨ (0x07 ≤ opc ∧ opc ≤ 0x0F) ∨ (0x15 ≤ opc ∧ opc ≤ 0x17) ∨
    (0x1B ≤ opc ∧ opc ≤ 0x1F) ∨ (0x26 ≤ opc ∧ opc ≤ 0x2F) ∨ opc = 0x33 ∨ opc = 0x37 ∨ 0x3C ≤ opc

theorem Instr.opc_not_reserved (i : Instr) : ¬ ReservedOpc i.opc := by
  cases i <;> simp [ReservedOpc, Instr.opc]

/-- The MODE and K of a well-formed command, by its OPC (30_encoding.md R49 (b), (c)). -/
theorem Instr.codes_by_opc {i : Instr} (h : i.wf = true) :
    i.opc = 0x18 ∧ i.modeCode ≤ 4 ∧ i.kCode ≤ 28 ∨
      i.opc = 0x3A ∧ i.modeCode = 0 ∧ i.kCode ≤ 28 ∨
      i.opc = 0x3B ∧ i.modeCode = 0 ∧ i.kCode ≤ 56 ∨
      (i.opc ≠ 0x18 ∧ i.opc ≠ 0x3A ∧ i.opc ≠ 0x3B) ∧ i.modeCode = 0 ∧ i.kCode = 0 := by
  cases i with
  | round m k => exact .inl ⟨rfl, m.code_le, of_decide_eq_true h⟩
  | pow10mul k => exact .inr (.inl ⟨rfl, rfl, of_decide_eq_true h⟩)
  | scaleres k => exact .inr (.inr (.inl ⟨rfl, rfl, of_decide_eq_true h⟩))
  | _ => exact .inr (.inr (.inr ⟨by simp [Instr.opc], rfl, rfl⟩))

end Sys2Proof

namespace Sys2Proof.Machine

open Sys2Proof

/-! ## Performing a command word -/

/-- A write to CMD performs its word (10_state.md R18, 20_memory.md R37). -/
theorem step_write_cmd {s : State} {rest : List HostEvent} {w : Word}
    (hl : s.cfg.launch = .inContract)
    (hp : s.pending = .write (s.cfg.base + 0x40) .word w :: rest) :
    step s = execute w (s.withPending rest) := by
  rw [step_write hl (by decide) (by decide) hp, windowWrite_cmd]

/-- The word withFetchWord issues is performed next, under a launch that keeps the contract. -/
theorem step_withFetchWord (s : State) (w : Word) :
    step (s.withFetchWord 32 w.toNat) =
      execute w { s with cfg := { s.cfg with launch := .inContract } } := by
  have hw : BitVec.ofNat 32 (w.toNat % 2 ^ 32) = w := by
    rw [Nat.mod_eq_of_lt w.isLt, BitVec.ofNat_toNat, BitVec.setWidth_eq]
  rw [State.withFetchWord, hw]
  exact step_write_cmd rfl rfl

/-- Settles O5: both writes perform the word, which decodes to the command. -/
theorem stepRunsTheDecodedCommand : Obligations.StepRunsTheDecodedCommand := by
  refine fun s rest w i hd => ⟨fun hl hp => ?_, ?_⟩
  · rw [step_write_cmd hl hp, execute_ok hd]
    rfl
  · rw [step_withFetchWord, execute_ok hd]
    rfl

/-- A word that decodes to no command is ILLEGAL (30_encoding.md R50). -/
theorem execute_illegal {w : Word} (h : ∀ i, decode w ≠ .ok i) (s : State) :
    execute w s = .next { s with cmd := w, err := 4#3 } := by
  cases hd : decode w with
  | ok i => exact absurd hd (h i)
  | error e => exact execute_error hd s

/-- Settles O6: a command of the word would have legal fields, and each kind of word has one that is not. -/
theorem illegalWordsReportFourAndChangeNoResult :
    Obligations.IllegalWordsReportFourAndChangeNoResult := by
  intro s rest w hl hp hill
  rw [step_write_cmd hl hp]
  refine execute_illegal (fun i hi => ?_) _
  obtain ⟨h0, h1, ho, hm, hk, hwf⟩ := decode_eq_ok.mp hi
  have hcodes := Instr.codes_by_opc hwf
  rw [← ho, ← hm, ← hk] at hcodes
  obtain hres | hrsv0 | hrsv1 | hrange := hill
  · exact i.opc_not_reserved (ho ▸ hres)
  · exact hrsv0 h0
  · exact hrsv1 h1
  · simp only [opcField, modeField, kField] at hcodes
    omega

/-! ## Outcomes and operands -/

/-- Settles O17: both states perform the same outcome. -/
theorem outcomeDependsOnTheOperandsAlone : Obligations.OutcomeDependsOnTheOperandsAlone := by
  intro i s s' t t' ha hb hn h h'
  rw [exec_eq_complete] at h h'
  rw [← ha, ← hb, ← hn] at h'
  obtain ⟨r, ho, rfl⟩ | ⟨e, ho, rfl⟩ := complete_cases h <;> rw [ho] at h' <;> cases h'
  · exact ⟨rfl, fun _ => rfl⟩
  · exact ⟨rfl, fun herr => absurd herr e.code_ne_zero⟩

theorem onDec_invalid {opa : Quad} (f : Dec → Except ErrKind Octo) (h : opa.valid = false) :
    onDec opa f = .error .invalidRepresentation := by
  rw [onDec, readDec_invalid h]

/-- An invalid operand fails a command on two decimals, whichever it is (60_exceptions.md R141, R143). -/
theorem onDecs_invalid {opa opb : Quad} (f : Dec → Dec → Except ErrKind Octo)
    (h : opa.valid = false ∨ opb.valid = false) :
    onDecs opa opb f = .error .invalidRepresentation := by
  cases ha : opa.valid with
  | false => rw [onDecs, readDec_invalid ha]
  | true =>
    have hb : opb.valid = false := h.resolve_left (by simp [ha])
    simp only [onDecs, readDec_valid ha, readDec_invalid hb]

/-- A command that reads OPA as a decimal fails on an invalid one (30_encoding.md R52). -/
theorem perform_invalid_opa {i : Instr} (hi : readsDecimalOpa i = true) {opa : Quad}
    (h : opa.valid = false) (opb : Quad) (b : Bool) :
    perform i opa opb b = .error .invalidRepresentation := by
  cases i with
  | ldw | round | norm | tof64 | tof32 | tocy => exact onDec_invalid _ h
  | add | sub | mul | div | rem | cmp => exact onDecs_invalid _ (.inl h)
  | _ => cases hi

/-- A command that reads OPB as a decimal fails on an invalid one (30_encoding.md R52). -/
theorem perform_invalid_opb {i : Instr} (hi : readsDecimalOpb i = true) (opa : Quad) {opb : Quad}
    (h : opb.valid = false) (b : Bool) :
    perform i opa opb b = .error .invalidRepresentation := by
  cases i with
  | add | sub | mul | div | rem | cmp => exact onDecs_invalid _ (.inr h)
  | _ => cases hi

/-- A reserved bit or a scale above 28 makes a quadruple invalid (10_state.md R22). -/
theorem valid_eq_false {q : Quad}
    (h : q.w3 &&& 0x7F00FFFF#32 ≠ 0#32 ∨ 28 < (q.w3.extractLsb' 16 8).toNat) : q.valid = false := by
  rw [← Bool.not_eq_true, valid_iff_mask]
  rintro ⟨hmask, hscale⟩
  exact h.elim (· hmask) (Nat.not_lt.mpr hscale)

/-- Settles O21: the operand is invalid, so the outcome is that error. -/
theorem invalidOperandsReportThree : Obligations.InvalidOperandsReportThree := by
  refine fun i s => ⟨fun hi h => ?_, fun hi h => ?_⟩
  · rw [exec_eq_complete, perform_invalid_opa hi (valid_eq_false h)]
    rfl
  · rw [exec_eq_complete, perform_invalid_opb hi _ (valid_eq_false h)]
    rfl

/-! ## The host's program -/

/-- A host write to a register other than CMD (20_memory.md R37). -/
def State.writeReg (s : State) (r : Reg) (v : Word) : State :=
  match r with
  | .opa i => s.withOpa i v
  | .opb i => s.withOpb i v
  | _ => s

@[simp] theorem State.writeReg_res (s : State) (r : Reg) (v : Word) :
    (s.writeReg r v).res = s.res := by cases r <;> rfl

@[simp] theorem State.writeReg_cfg (s : State) (r : Reg) (v : Word) :
    (s.writeReg r v).cfg = s.cfg := by cases r <;> rfl

theorem windowWrite_offset (s : State) {r : Reg} (hr : r ≠ .cmd) (v : Word) :
    windowWrite s r.offset v = .next (s.writeReg r v) := by
  rw [windowWrite, regAt_offset]
  cases r with
  | cmd => exact absurd rfl hr
  | _ => rfl

theorem windowRead_offset (s : State) (r : Reg) : windowRead s r.offset = readReg s r := by
  rw [windowRead, regAt_offset]

/-- Each register stands at an aligned offset of the window (20_memory.md R31). -/
theorem Reg.offset_bounds (r : Reg) : r.offset < 0x80 ∧ r.offset % 4 = 0 := by
  cases r with
  | cmd | status => decide
  | opa i | opb i | res i =>
    simp only [Reg.offset]
    omega

/-- An event the host issues is performed at once, before those that wait (20_memory.md R38). -/
theorem step_issued {s : State} (hl : s.cfg.launch = .inContract) (e : HostEvent) :
    step (s.withPending (e :: s.pending)) = performEvent e s :=
  step_event (s := s.withPending (e :: s.pending)) hl rfl

/-- A write the host issues to a register other than CMD (20_memory.md R37, R38). -/
theorem issue_write {h : HostRun} (hl : h.block.cfg.launch = .inContract) {r : Reg} (hr : r ≠ .cmd)
    (v : Word) (k : State → HostRun) :
    h.issue (.write (h.addr r) .word v) k = .next (k (h.block.writeReg r v)) := by
  obtain ⟨hlt, ha⟩ := r.offset_bounds
  rw [HostRun.issue, step_issued hl, performEvent_write, HostRun.addr, access_word hlt ha,
    windowWrite_offset _ hr]

/-- A read the host issues returns the register (20_memory.md R37, R38). -/
theorem issue_read {h : HostRun} (hl : h.block.cfg.launch = .inContract) (r : Reg)
    (k : State → HostRun) :
    h.issue (.read (h.addr r) .word) k = .next (k (h.block.withRead (readReg h.block r))) := by
  obtain ⟨hlt, ha⟩ := r.offset_bounds
  rw [HostRun.issue, step_issued hl, performEvent_read, HostRun.addr, access_word hlt ha,
    windowRead_offset]

/-- The host after a write instruction (30_encoding.md R59). -/
def HostRun.afterWrite (h : HostRun) (r : Reg) (v : Word) : HostRun :=
  { h with pc := h.pc + 1, block := h.block.writeReg r v }

/-- The host after a read instruction (30_encoding.md R59). -/
def HostRun.afterRead (h : HostRun) (n : Nat) (r : Reg) : HostRun :=
  { h.setReg n (readReg h.block r) with
    pc := h.pc + 1, block := h.block.withRead (readReg h.block r) }

@[simp] theorem HostRun.reg_setReg (h : HostRun) (n : Nat) (w : Word) :
    (h.setReg n w).reg n = w := by
  simp [HostRun.reg, HostRun.setReg]

@[simp] theorem HostRun.afterRead_reg (h : HostRun) (n : Nat) (r : Reg) :
    (h.afterRead n r).reg n = readReg h.block r :=
  h.reg_setReg n _

theorem hostStep_wr {program : List HostInstr} {h : HostRun} {r : Reg} {src : HostSource}
    (hi : program[h.pc]? = some (.wr r src)) (hl : h.block.cfg.launch = .inContract)
    (hr : r ≠ .cmd) : hostStep program h = .next (h.afterWrite r (h.source src)) := by
  simp only [hostStep, hi]
  exact issue_write hl hr _ _

theorem hostStep_rd {program : List HostInstr} {h : HostRun} {n : Nat} {r : Reg}
    (hi : program[h.pc]? = some (.rd n r)) (hl : h.block.cfg.launch = .inContract) :
    hostStep program h = .next (h.afterRead n r) := by
  simp only [hostStep, hi]
  exact issue_read hl r _

theorem hostStep_bne {program : List HostInstr} {h : HostRun} {n label : Nat} {imm : Word}
    (hi : program[h.pc]? = some (.bne n imm label)) :
    hostStep program h = .next { h with pc := if h.reg n ≠ imm then label else h.pc + 1 } := by
  simp only [hostStep, hi]

theorem hostSteps_succ {program : List HostInstr} {h h' : HostRun} (n : Nat)
    (hs : hostStep program h = .next h') :
    hostSteps program (n + 1) h = hostSteps program n h' := by
  simp only [hostSteps, hs]

/-- A host write of an immediate, then the rest of the program (30_encoding.md R59). -/
theorem hostSteps_wr_imm {program : List HostInstr} {h : HostRun} {r : Reg} {v : Word} (n : Nat)
    (hi : program[h.pc]? = some (.wr r (.imm v))) (hl : h.block.cfg.launch = .inContract)
    (hr : r ≠ .cmd) :
    hostSteps program (n + 1) h = hostSteps program n (h.afterWrite r v) :=
  hostSteps_succ n (hostStep_wr hi hl hr)

/-- The host after a copy of a register through a host register (30_encoding.md R60). -/
def HostRun.afterCopy (h : HostRun) (n : Nat) (src dst : Reg) : HostRun :=
  (h.afterRead n src).afterWrite dst (readReg h.block src)

/-- A read into a host register and a write from it, then the rest of the program (30_encoding.md R60). -/
theorem hostSteps_copy {program : List HostInstr} {h : HostRun} {t : Nat} {src dst : Reg} (n : Nat)
    (hrd : program[h.pc]? = some (.rd t src)) (hwr : program[h.pc + 1]? = some (.wr dst (.hreg t)))
    (hl : h.block.cfg.launch = .inContract) (hdst : dst ≠ .cmd) :
    hostSteps program (n + 2) h = hostSteps program n (h.afterCopy t src dst) := by
  have hw := hostStep_wr (h := h.afterRead t src) hwr hl hdst
  rw [HostRun.source, h.afterRead_reg] at hw
  rw [hostSteps_succ _ (hostStep_rd hrd hl), hostSteps_succ _ hw]
  rfl

@[simp] theorem HostRun.afterWrite_cfg (h : HostRun) (r : Reg) (v : Word) :
    (h.afterWrite r v).block.cfg = h.block.cfg := State.writeReg_cfg _ r v

@[simp] theorem HostRun.afterCopy_cfg (h : HostRun) (n : Nat) (src dst : Reg) :
    (h.afterCopy n src dst).block.cfg = h.block.cfg := State.writeReg_cfg _ dst _

@[simp] theorem HostRun.afterCopy_res (h : HostRun) (n : Nat) (src dst : Reg) :
    (h.afterCopy n src dst).block.res = h.block.res := State.writeReg_res _ dst _

/-- The host register of a copy holds the copied word. -/
theorem HostRun.afterCopy_reg (h : HostRun) (n : Nat) (src dst : Reg) :
    (h.afterCopy n src dst).reg n = readReg h.block src := h.afterRead_reg n src

/-- The host after the four writes of `LDA` or `LDB` (30_encoding.md R60). -/
def HostRun.afterLoadQuad (h : HostRun) (reg : Fin 4 → Reg) (q : Quad) : HostRun :=
  (((h.afterWrite (reg 0) q.w0).afterWrite (reg 1) q.w1).afterWrite (reg 2) q.w2).afterWrite
    (reg 3) q.w3

theorem hostSteps_loadQuad {reg : Fin 4 → Reg} (hreg : ∀ i, reg i ≠ .cmd) (q : Quad)
    (rest : List HostInstr) {h : HostRun} (hpc : h.pc = 0)
    (hl : h.block.cfg.launch = .inContract) :
    hostSteps (loadQuad reg q ++ rest) 4 h = .next (h.afterLoadQuad reg q) := by
  obtain ⟨_, regs, block⟩ := h
  cases hpc
  rw [hostSteps_wr_imm 3 rfl hl (hreg 0), hostSteps_wr_imm 2 rfl (by simpa using hl) (hreg 1),
    hostSteps_wr_imm 1 rfl (by simpa using hl) (hreg 2),
    hostSteps_wr_imm 0 rfl (by simpa using hl) (hreg 3)]
  rfl

/-- The host after the four copies of `MOVRA` or `MOVRB` (30_encoding.md R60). -/
def HostRun.afterMove (h : HostRun) (t : Nat) (reg : Fin 4 → Reg) : HostRun :=
  (((h.afterCopy t (.res 0) (reg 0)).afterCopy t (.res 1) (reg 1)).afterCopy t (.res 2)
    (reg 2)).afterCopy t (.res 3) (reg 3)

theorem hostSteps_moveResult {reg : Fin 4 → Reg} (hreg : ∀ i, reg i ≠ .cmd) (t : Nat)
    (rest : List HostInstr) {h : HostRun} (hpc : h.pc = 0)
    (hl : h.block.cfg.launch = .inContract) :
    hostSteps (moveResult t reg ++ rest) 8 h = .next (h.afterMove t reg) := by
  obtain ⟨_, regs, block⟩ := h
  cases hpc
  rw [hostSteps_copy 6 rfl rfl hl (hreg 0), hostSteps_copy 4 rfl rfl (by simpa using hl) (hreg 1),
    hostSteps_copy 2 rfl rfl (by simpa using hl) (hreg 2),
    hostSteps_copy 0 rfl rfl (by simpa using hl) (hreg 3)]
  rfl

/-- Four copies from an RES that they do not write leave its fourth word in the host register. -/
theorem HostRun.afterMove_reg (h : HostRun) (t : Nat) (reg : Fin 4 → Reg) :
    (h.afterMove t reg).reg t = h.block.res.w3 := by
  rw [HostRun.afterMove, HostRun.afterCopy_reg]
  simp [readReg, Octo.get]

/-- STATUS reads as 0 exactly when ERR is 0 (10_state.md R19). -/
theorem State.status_eq_zero_iff (s : State) : s.status = 0#32 ↔ s.err = 0#3 := by
  have key : ∀ e : BitVec 3, e.zeroExtend 32 = 0#32 ↔ e = 0#3 := by decide
  exact key s.err

/-- `CHK` reads STATUS and branches when it is not 0 (30_encoding.md R60). -/
theorem hostSteps_chk (t label : Nat) (rest : List HostInstr) {h : HostRun} (hpc : h.pc = 0)
    (hl : h.block.cfg.launch = .inContract) :
    hostSteps (chk t label ++ rest) 2 h =
      .next { h.afterRead t .status with pc := if h.block.err = 0#3 then 2 else label } := by
  obtain ⟨_, regs, block⟩ := h
  cases hpc
  rw [hostSteps_succ 1 (hostStep_rd rfl hl), hostSteps_succ 0 (hostStep_bne rfl)]
  simp only [HostRun.afterRead_reg, readReg, ne_eq, State.status_eq_zero_iff, ite_not]
  rfl

/-- Settles O60: each expansion runs to its end, and the registers written are those of the operand. -/
theorem pseudoInstructionsExpandAsListed : Obligations.PseudoInstructionsExpandAsListed := by
  intro d t label rest h hpc hl _
  obtain ⟨_, regs, block⟩ := h
  cases hpc
  have hA : ∀ i, Reg.opa i ≠ .cmd := by simp
  have hB : ∀ i, Reg.opb i ≠ .cmd := by simp
  exact ⟨hostSteps_loadQuad hA _ rest rfl hl, hostSteps_loadQuad hB _ rest rfl hl,
    ⟨_, hostSteps_moveResult hA t rest rfl hl, rfl, HostRun.afterMove_reg _ t _, rfl⟩,
    ⟨_, hostSteps_moveResult hB t rest rfl hl, rfl, HostRun.afterMove_reg _ t _, rfl⟩,
    ⟨_, hostSteps_chk t label rest rfl hl, HostRun.afterRead_reg _ t _, rfl, rfl⟩⟩

end Sys2Proof.Machine
end

section
/-! PROOFS. The statements of 40_primitives.md: the shared functions of section 1, and the primitive commands, whose raw operands are limbs of one number. -/

namespace Sys2Proof

/-! ## Words that carry K alone -/

/-- A command that uses K alone, with MODE 0: only K decides whether the word is legal (30_encoding.md R49 (b), (c)). -/
theorem decodeWithK_of_mode_zero {w : Word} (h : (modeField w).toNat = 0) (bound : Nat)
    (mk : Nat → Instr) :
    decodeWithK w bound mk =
      if (kField w).toNat ≤ bound then .ok (mk (kField w).toNat) else .error .kOutOfRange := by
  have hm : modeField w = 0 := BitVec.eq_of_toNat_eq h
  simp only [decodeWithK, decodeK, hm, ne_eq, not_true_eq_false, if_false]
  split_ifs <;> rfl

/-- An assembled word passes the check of the reserved fields, and its OPC picks the row (30_encoding.md R49 (a), R58). -/
theorem decode_assemble (i : Instr) {mode k : Nat} (hm : mode < 2 ^ 3) (hk : k < 2 ^ 6) :
    decode (assemble i.opc mode k) = i.decodeFields (assemble i.opc mode k) := by
  obtain ⟨ho, -, -, h0, h1⟩ := fields_assemble i.opc_lt hm hk
  rw [decode, if_neg (by simp [h0, h1]), decodeOpc_of_opc ho]

/-- The word `OPC | K<<16` is assembled with MODE 0 (30_encoding.md R58). -/
theorem assemble_mode_zero (opc k : Nat) :
    assemble opc 0 k = BitVec.ofNat 32 opc ||| BitVec.ofNat 32 k <<< 16 := by
  simp [assemble]

/-- Every value of the K field in the word of a command that uses K alone (30_encoding.md R49 (c), R58). -/
theorem decode_k_word (i : Instr) {bound k : Nat} {mk : Nat → Instr}
    (hrow : ∀ w, i.decodeFields w = decodeWithK w bound mk) (hk : k < 64) :
    decode (BitVec.ofNat 32 i.opc ||| BitVec.ofNat 32 k <<< 16) =
      if k ≤ bound then .ok (mk k) else .error .kOutOfRange := by
  obtain ⟨-, hmode, hkf, -, -⟩ := fields_assemble i.opc_lt (by decide : 0 < 2 ^ 3) hk
  rw [← assemble_mode_zero, decode_assemble i (by decide) hk, hrow, decodeWithK_of_mode_zero hmode,
    hkf]

end Sys2Proof

namespace Sys2Proof.Machine

open Sys2Proof

/-! ## Raw operands as concatenations -/

/-- Words side by side are the limbs of one number (00_scope.md R8). -/
theorem toNat_append₂ (w0 w1 : Word) : (w1 ++ w0).toNat = ofLimbs [w0, w1] := by
  simp [toNat_append_word]

theorem toNat_append₃ (w0 w1 w2 : Word) : (w2 ++ w1 ++ w0).toNat = ofLimbs [w0, w1, w2] := by
  simp [toNat_append_word]

theorem toNat_append₄ (w0 w1 w2 w3 : Word) :
    (w3 ++ w2 ++ w1 ++ w0).toNat = ofLimbs [w0, w1, w2, w3] := by
  simp [toNat_append_word]

theorem Quad.u64_eq_append (q : Quad) : q.u64 = (q.w1 ++ q.w0).toNat := (toNat_append₂ _ _).symm

/-- SCALERES's operand as the concatenation of its six words (40_primitives.md R82). -/
theorem u192_eq_append (a b : Quad) :
    u192 a b = (b.w1 ++ b.w0 ++ a.w3 ++ a.w2 ++ a.w1 ++ a.w0).toNat := by
  simp [u192, toNat_append_word]

/-! ## How a primitive ends -/

/-- A command whose outcome is known to succeed (30_encoding.md R46). -/
theorem exec_of_perform_ok {i : Instr} {s : State} {r : Octo}
    (h : perform i s.opa s.opb s.cfg.divNormalize = .ok r) :
    exec i s = .next { s with res := r, err := 0#3 } := by
  rw [exec_eq_complete, h, complete_ok, State.succeed_eq]

/-- A command whose outcome is known to be an error (60_exceptions.md R145). -/
theorem exec_of_perform_error {i : Instr} {s : State} {e : ErrKind}
    (h : perform i s.opa s.opb s.cfg.divNormalize = .error e) :
    exec i s = .next { s with err := e.code } := by
  rw [exec_eq_complete, h, complete_error, State.raiseError_eq]

/-- A command that writes one number into the low words of RES: the eight words together hold it (30_encoding.md R56). -/
theorem exec_writes_number {i : Instr} {s : State} {n v : Nat}
    (h : perform i s.opa s.opb s.cfg.divNormalize = .ok (resWords (limbs n v))) (hn : n ≤ 8)
    (hv : v < 2 ^ (32 * n)) :
    ∃ r : Octo, exec i s = .next { s with res := r, err := 0#3 } ∧ ofLimbs r.words = v :=
  ⟨_, exec_of_perform_ok h, resWords_limbs_words hn hv⟩

/-! ## Multipliers -/

/-- A product of operands of a and b words fits a + b words of RES (40_primitives.md R70 to R72). -/
theorem exec_writes_product {i : Instr} {s : State} {a b x y : Nat}
    (h : perform i s.opa s.opb s.cfg.divNormalize = .ok (resWords (limbs (a + b) (x * y))))
    (hab : a + b ≤ 8) (hx : x < 2 ^ (32 * a)) (hy : y < 2 ^ (32 * b)) :
    ∃ r : Octo, exec i s = .next { s with res := r, err := 0#3 } ∧ ofLimbs r.words = x * y :=
  exec_writes_number h hab <| by
    rw [Nat.mul_add, pow_add]
    exact Nat.mul_lt_mul'' hx hy

/-- Settles O51: the multipliers' operands have three words and one, two or three. -/
theorem multipliersAreExact : Obligations.MultipliersAreExact := by
  refine ⟨decode_of_encode_eq rfl rfl, decode_of_encode_eq rfl rfl, decode_of_encode_eq rfl rfl,
    fun s => ?_⟩
  simp only [← Quad.u96_eq_append, ← Quad.u64_eq_append]
  exact ⟨exec_writes_product (a := 3) (b := 1) rfl (by decide) s.opa.u96_lt s.opb.u32_lt,
    exec_writes_product (a := 3) (b := 2) rfl (by decide) s.opa.u96_lt s.opb.u64_lt,
    exec_writes_product (a := 3) (b := 3) rfl (by decide) s.opa.u96_lt s.opb.u96_lt⟩

/-! ## Dividers -/

/-- A zero divisor (40_primitives.md R69). -/
theorem divide_zero (qn rn a : Nat) : divide qn rn a 0 = .error .divideByZero := rfl

/-- A nonzero divisor (40_primitives.md R69, R77). -/
theorem divide_of_ne_zero (qn rn a : Nat) {d : Nat} (h : d ≠ 0) :
    divide qn rn a d = .ok (resWords (limbs qn (a / d) ++ limbs rn (a % d))) := if_neg h

/-- "The quotient always fits" the dividend's words (40_primitives.md R74 to R76). -/
theorem ofLimbs_limbs_div {n a : Nat} (d : Nat) (ha : a < 2 ^ (32 * n)) :
    ofLimbs (limbs n (a / d)) = a / d :=
  ofLimbs_limbs ((Nat.div_le_self a d).trans_lt ha)

/-- The remainder fits the divisor's words (40_primitives.md R74 to R76). -/
theorem ofLimbs_limbs_mod_divisor {n d : Nat} (a : Nat) (h0 : d ≠ 0) (hd : d < 2 ^ (32 * n)) :
    ofLimbs (limbs n (a % d)) = a % d :=
  ofLimbs_limbs ((Nat.mod_lt a (Nat.pos_of_ne_zero h0)).trans hd)

/-- A command that divides by zero reports code 2 (40_primitives.md R69). -/
theorem exec_divide_zero {i : Instr} {s : State} {qn rn a d : Nat}
    (h : perform i s.opa s.opb s.cfg.divNormalize = divide qn rn a d) (hd : d = 0) :
    exec i s = .next { s with err := 2#3 } :=
  exec_of_perform_error (e := .divideByZero) (by rw [h, hd, divide_zero])

/-- A command that divides by a nonzero divisor writes the quotient's words, the remainder's above them, and 0 in the others (40_primitives.md R69). -/
theorem exec_divide {i : Instr} {s : State} {qn rn a d : Nat}
    (h : perform i s.opa s.opb s.cfg.divNormalize = divide qn rn a d) (hd : d ≠ 0) :
    exec i s = .next { s with
      res := resWords (limbs qn (a / d) ++ limbs rn (a % d)), err := 0#3 } :=
  exec_of_perform_ok (by rw [h, divide_of_ne_zero _ _ _ hd])

/-- Settles O52: the words of RES are the limbs of the quotient and of the remainder, which fit them. -/
theorem dividersAreExact : Obligations.DividersAreExact := by
  refine ⟨decode_of_encode_eq rfl rfl, decode_of_encode_eq rfl rfl, decode_of_encode_eq rfl rfl,
    fun s => ?_⟩
  simp only [toNat_append₂, toNat_append₃, toNat_append₄]
  refine ⟨exec_divide_zero rfl, fun hd => ⟨_, exec_divide rfl hd, ?_, ?_, rfl⟩,
    exec_divide_zero rfl, fun hd => ⟨_, exec_divide rfl hd, ?_, ?_, rfl, rfl, rfl⟩,
    exec_divide_zero rfl, fun hd => ⟨_, exec_divide rfl hd, ?_, ?_, rfl⟩⟩
  · exact ofLimbs_limbs_div (n := 3) _ s.opa.u96_lt
  · exact ofLimbs_limbs_mod_divisor (n := 1) _ hd s.opb.u32_lt
  · exact ofLimbs_limbs_div (n := 3) _ s.opa.u96_lt
  · exact ofLimbs_limbs_mod_divisor (n := 2) _ hd s.opb.u64_lt
  · exact ofLimbs_limbs_div (n := 4) _ s.opa.u128_lt
  · exact ofLimbs_limbs_mod_divisor (n := 3) _ hd s.opb.u96_lt

/-! ## Leading-zero counters -/

/-- The bit length is the least number of bits that holds the value (40_primitives.md R68). -/
theorem bitLength_le {n v : Nat} (h : v < 2 ^ n) : bitLength v ≤ n := by
  unfold bitLength
  split
  · exact Nat.zero_le n
  · next h0 => exact (Nat.log2_lt h0).mpr h

theorem lt_two_pow_bitLength (v : Nat) : v < 2 ^ bitLength v := by
  rcases Nat.eq_zero_or_pos v with rfl | hpos
  · decide
  · exact (bitLength_spec hpos.ne').2

/-- The leading-zero count of a value of n bits: it is below the bit that many places down, and, unless every bit is zero, not below the next (40_primitives.md R68). -/
theorem lzc_spec {n v : Nat} (h : v < 2 ^ n) :
    lzc n v ≤ n ∧ v < 2 ^ (n - lzc n v) ∧ (lzc n v < n → 2 ^ (n - 1 - lzc n v) ≤ v) := by
  have hle := bitLength_le h
  have hbits : n - lzc n v = bitLength v := Nat.sub_sub_self hle
  refine ⟨Nat.sub_le _ _, hbits ▸ lt_two_pow_bitLength v, fun hlt => ?_⟩
  have h0 : v ≠ 0 := by
    rintro rfl
    exact absurd hlt (by simp [lzc, bitLength])
  rw [show n - 1 - lzc n v = bitLength v - 1 by omega]
  exact (bitLength_spec h0).1

/-- Settles O53: each counter writes the leading-zero count of its operand. -/
theorem leadingZeroCountersCount : Obligations.LeadingZeroCountersCount := by
  refine ⟨decode_of_encode_eq rfl rfl, decode_of_encode_eq rfl rfl, fun s => ?_⟩
  simp only [← Quad.u96_eq_append]
  exact ⟨⟨_, exec_of_perform_ok rfl, lzc_spec s.opa.u32_lt⟩,
    ⟨_, exec_of_perform_ok rfl, lzc_spec s.opa.u96_lt⟩⟩

/-! ## Powers of ten -/

/-- Every alignment of a mantissa stays below 2^190 (40_primitives.md R80). -/
theorem scaleUp_lt {m k : Nat} (hm : m < 2 ^ 96) (hk : k ≤ 28) : scaleUp m k < 2 ^ 190 :=
  calc m * 10 ^ k ≤ m * 10 ^ 28 := Nat.mul_le_mul_left m (Nat.pow_le_pow_right (by decide) hk)
    _ < 2 ^ 96 * 2 ^ 94 := Nat.mul_lt_mul'' hm (by decide)

/-- Settles O54: the product is below 2^190, so six words hold it. -/
theorem powerOfTenProductsAreExact : Obligations.PowerOfTenProductsAreExact := by
  refine ⟨fun _ => decode_k_word (.pow10mul 0) fun _ => rfl, fun s k hk => ?_⟩
  have hlt := scaleUp_lt s.opa.u96_lt hk
  obtain ⟨r, hr, hwords⟩ := exec_writes_number (i := .pow10mul k) (s := s) rfl (by decide)
    (hlt.trans (by decide))
  rw [← Quad.u96_eq_append]
  exact ⟨r, hr, hwords, hwords ▸ hlt⟩

/-! ## Scale reduction -/

/-- The outcome of SCALERES is ScaleResult's, with sign 0 (40_primitives.md R82). -/
theorem scaleresDec_eq (X e : Nat) :
    scaleresDec X e = (scaleResult X e).map fun p => ⟨false, p.2, p.1⟩ := by
  unfold scaleresDec
  cases scaleResult X e <;> rfl

theorem perform_scaleres (e : Nat) (opa opb : Quad) (b : Bool) :
    perform (.scaleres e) opa opb b = decOutcome (scaleresDec (u192 opa opb) e) := rfl

/-- SCALERES with a reduction that fits: the reduced value, with sign 0 (40_primitives.md R82). -/
theorem exec_scaleres_ok {s : State} {e m e' : Nat}
    (h : scaleResult (u192 s.opa s.opb) e = .ok (m, e')) :
    exec (.scaleres e) s = .next { s with res := decResult ⟨false, e', m⟩, err := 0#3 } :=
  exec_of_perform_ok (by rw [perform_scaleres, scaleresDec_eq, h, Except.map, decOutcome_ok])

/-- SCALERES with no reduction that fits (40_primitives.md R82). -/
theorem exec_scaleres_error {s : State} {e : Nat} {err : ErrKind}
    (h : scaleResult (u192 s.opa s.opb) e = .error err) :
    exec (.scaleres e) s = .next { s with err := err.code } :=
  exec_of_perform_error (by rw [perform_scaleres, scaleresDec_eq, h, Except.map, decOutcome_error])

/-- Settles O55: SCALERES answers what ScaleResult does on its six words. -/
theorem scaleresReducesByTheLeastThatFits : Obligations.ScaleresReducesByTheLeastThatFits := by
  refine ⟨fun _ => decode_k_word (.scaleres 0) fun _ => rfl, fun s e k _ => ?_⟩
  simp only [← u192_eq_append]
  exact ⟨fun hlo hhi hfit hleast => exec_scaleres_ok (scaleResult_ok hlo hhi hfit hleast),
    fun hover => exec_scaleres_error ((scaleResult_overflow_iff _ e).mpr hover)⟩

/-! ## Rounding to nearest even -/

/-- An integer at distance c/d from a rational of denominator d is nearest when c is at most half of d, and on a tie when it is even (40_primitives.md R61). -/
theorem nearestEvenInt_of_distance {q : ℚ} {m c d : Nat} (hd : 0 < d)
    (hdist : |(m : ℚ) - q| = (c : ℚ) / d) (hc : 2 * c < d ∨ 2 * c = d ∧ m % 2 = 0) :
    nearestEvenInt q m := by
  have hd' : (0 : ℚ) < d := Nat.cast_pos.mpr hd
  unfold nearestEvenInt
  rw [hdist, div_le_div_iff₀ hd' two_pos, div_eq_div_iff hd'.ne' two_ne_zero]
  norm_cast
  omega

/-- RNE is the integer nearest to the quotient, a tie to the even one (40_primitives.md R61). -/
theorem rne_nearest (n : Nat) {d : Nat} (hd : 0 < d) : nearestEvenInt ((n : ℚ) / d) (rne n d) := by
  have hd' : (0 : ℚ) < d := Nat.cast_pos.mpr hd
  have hr : n % d < d := Nat.mod_lt n hd
  have hn : (n : ℚ) = d * (n / d : Nat) + (n % d : Nat) := by
    exact_mod_cast (Nat.div_add_mod n d).symm
  obtain ⟨h, hc⟩ | ⟨h, hc⟩ := rne_cases n d <;> rw [h]
  · refine nearestEvenInt_of_distance (c := n % d) hd ?_ hc
    have hdiff : ((n / d : Nat) : ℚ) - n / d = -((n % d : Nat) / d) := by
      field_simp
      linarith
    rw [hdiff, abs_neg, abs_of_nonneg (by positivity)]
  · refine nearestEvenInt_of_distance (c := d - n % d) hd ?_ (by omega)
    have hdiff : ((n / d + 1 : Nat) : ℚ) - n / d = (d - n % d : Nat) / d := by
      rw [Nat.cast_sub hr.le]
      field_simp
      push_cast
      linarith
    rw [hdiff, abs_of_nonneg (by positivity)]

/-- One step of a division in steps: the quotient, and whether a remainder was nonzero (40_primitives.md R65). -/
def stickyDivide (p : Nat × Bool) (e : Nat) : Nat × Bool := (p.1 / e, p.2 || decide (p.1 % e ≠ 0))

/-- Steps divide by the product of their divisors, and the sticky bit says whether that division was inexact (40_primitives.md R65). -/
theorem foldl_stickyDivide {earlier : List Nat} (h : ∀ e ∈ earlier, 0 < e) (X : Nat) (st : Bool) :
    earlier.foldl stickyDivide (X, st) =
      (X / earlier.prod, st || decide (X % earlier.prod ≠ 0)) := by
  induction earlier generalizing X st with
  | nil => simp [Nat.mod_one]
  | cons e es ih =>
    have he : 0 < e := h e List.mem_cons_self
    rw [List.foldl_cons, stickyDivide, ih fun e' h' => h e' (List.mem_cons_of_mem _ h'),
      List.prod_cons, Nat.div_div_eq_div_mul, Nat.mod_mul]
    simp [he.ne', Bool.or_assoc, imp_iff_not_or]

/-- The step rule of R65: with an even last divisor d, the last remainder r and whether the first division, by P, was inexact decide the rounding of the whole quotient (40_primitives.md R65). -/
theorem rne_in_two_steps (X : Nat) {P d : Nat} (hP : 0 < P) (heven : d % 2 = 0) :
    rne X (P * d) =
      if d / 2 < X / P % d ∨ (X / P % d = d / 2 ∧ (X % P ≠ 0 ∨ X / P / d % 2 = 1))
      then X / P / d + 1 else X / P / d := by
  have hs : X % P < P := Nat.mod_lt X hP
  obtain ⟨c, rfl⟩ : ∃ c, d = 2 * c := ⟨d / 2, by omega⟩
  rw [rne, Nat.mod_mul, ← Nat.div_div_eq_div_mul, Nat.mul_div_cancel_left c two_pos,
    Nat.mul_left_comm P 2 c]
  refine if_congr ?_ rfl rfl
  generalize X / P % (2 * c) = r
  obtain hlt | rfl | hgt := lt_trichotomy r c
  · have : P * (r + 1) ≤ P * c := Nat.mul_le_mul_left P hlt
    rw [Nat.mul_succ] at this
    omega
  · omega
  · have : P * (c + 1) ≤ P * r := Nat.mul_le_mul_left P hgt
    rw [Nat.mul_succ] at this
    omega

/-- Settles O56: the earlier steps are one division by their product, and the last step's rule is that of two steps. -/
theorem roundingIsToNearestEvenInAnySteps : Obligations.RoundingIsToNearestEvenInAnySteps := by
  refine ⟨fun n d => rne_nearest n, fun X d earlier hpos _ heven => ?_⟩
  have hsteps := foldl_stickyDivide hpos X false
  unfold stickyDivide at hsteps
  have hprod : 0 < earlier.prod := List.prod_pos hpos
  simp only [hsteps, rne_in_two_steps X hprod heven, Bool.false_or, decide_eq_true_iff]

/-! ## Stripping -/

/-- Strip removes min(z, e) of exactly z trailing zeros (40_primitives.md R62). -/
theorem strip_of_trailingZeros {m z : Nat} (e : Nat) (hz : m % 10 ^ z = 0)
    (hlast : m % 10 ^ (z + 1) ≠ 0) : strip m e = (m / 10 ^ min z e, e - min z e) := by
  induction e generalizing m z with
  | zero => simp
  | succ e ih =>
    rw [strip_succ]
    cases z with
    | zero =>
      rw [if_neg (by simpa using hlast)]
      simp
    | succ z =>
      rw [pow_succ', Nat.mod_mul] at hz hlast
      have hm : m % 10 = 0 := by omega
      rw [if_pos hm, ih (m := m / 10) (z := z) (by omega) (by omega), Nat.succ_min_succ, pow_succ',
        Nat.div_div_eq_div_mul, Nat.succ_sub_succ]

/-- Settles O57: a zero strips to (0, 0), and any other m loses the zeros its scale can drop. -/
theorem stripRemovesTrailingZerosAlone : Obligations.StripRemovesTrailingZerosAlone := by
  refine fun m e => ⟨?_, fun z => strip_of_trailingZeros e⟩
  rintro rfl
  exact strip_of_zero e

/-! ## Scale search -/

/-- No larger step within nine digits and scale 28 keeps the quotient in range (40_primitives.md R67). -/
theorem searchScale_maximal {q j : Nat} {t : Int} (hq : q ≤ MMAX) (hlt : searchScale q t < j)
    (hj : (j : Int) ≤ min 9 (28 - t)) : MMAX < q * 10 ^ j := by
  unfold searchScale at hlt
  split at hlt
  · omega
  · obtain ⟨-, -, hmax⟩ := largestStep_spec q (min pow10Step (28 - t).toNat) hq
    exact hmax j hlt (by unfold pow10Step; omega)

/-- Settles O58: the thresholds are the bounds on q · 10^k, divided. -/
theorem searchScaleIsTheLargestSafeStep : Obligations.SearchScaleIsTheLargestSafeStep := by
  intro q t hq _ ht
  obtain ⟨h9, h28, hfit⟩ := searchScale_bounds hq ht
  refine ⟨by omega, (Nat.le_div_iff_mul_le (by positivity)).mpr hfit, fun j hlt hj => ?_⟩
  exact (Nat.div_lt_iff_lt_mul (by positivity)).mpr (searchScale_maximal hq hlt hj)

/-! ## The estimate of the reduction -/

/-- The estimate in terms of the highest set bit (40_primitives.md R66). -/
theorem estimatedReduction_eq {X : Nat} (h0 : X ≠ 0) (h : X < 2 ^ 192) :
    estimatedReduction X = (Nat.log2 X - 96) * 77 / 256 + 1 := by
  have hlog : Nat.log2 X < 192 := (Nat.log2_lt h0).mpr h
  have hbit : 191 - lzc 192 X = Nat.log2 X := by
    rw [lzc, bitLength, if_neg h0]
    omega
  rw [estimatedReduction, hbit]

/-- 77/256 is just below log10 2: `b * 77 / 256` digits are at most b bits, and two digits more are at least two bits more, for every b of a 192-bit value (40_primitives.md R66). -/
theorem digits_of_bits :
    ∀ b < 96, 10 ^ (b * 77 / 256) ≤ 2 ^ b ∧ 2 ^ (b + 2) ≤ 10 ^ (b * 77 / 256 + 2) := by
  decide

/-- A reduction by no more than the bits above 96 leaves a value above MMAX (40_primitives.md R66). -/
theorem MMAX_lt_rne {X d b : Nat} (hd : 0 < d) (hb : d ≤ 2 ^ b) (hX : 2 ^ (96 + b) ≤ X) :
    MMAX < rne X d := by
  have hq : 2 ^ 96 ≤ X / d := (Nat.le_div_iff_mul_le hd).mpr <|
    calc 2 ^ 96 * d ≤ 2 ^ 96 * 2 ^ b := Nat.mul_le_mul_left _ hb
      _ = 2 ^ (96 + b) := (pow_add 2 96 b).symm
      _ ≤ X := hX
  exact (by decide : MMAX < 2 ^ 96).trans_le (hq.trans (rne_ge X d))

/-- A reduction by more than twice the bits above 96 leaves a value that fits (40_primitives.md R66). -/
theorem rne_le_MMAX {X d b : Nat} (hb : 2 ^ (b + 2) ≤ d) (hX : X < 2 ^ (96 + b + 1)) :
    rne X d ≤ MMAX := by
  have hq : X / d < 2 ^ 95 := Nat.div_lt_of_lt_mul <|
    calc X < 2 ^ (96 + b + 1) := hX
      _ = 2 ^ (b + 2) * 2 ^ 95 := by rw [← pow_add]; congr 1; omega
      _ ≤ d * 2 ^ 95 := Nat.mul_le_mul_right _ hb
  have hr := rne_le X d
  unfold MMAX
  omega

/-- Settles O59: at one digit fewer than the estimate X does not fit, and at one more it does. -/
theorem estimateIsAtMostOneShort : Obligations.EstimateIsAtMostOneShort := by
  intro X k hX hlt hfit hleast
  have h0 : X ≠ 0 := by omega
  have h96 : 96 ≤ Nat.log2 X := (Nat.le_log2 h0).mpr hX
  have h192 : Nat.log2 X < 192 := (Nat.log2_lt h0).mpr hlt
  obtain ⟨b, hb⟩ := Nat.exists_eq_add_of_le h96
  have hlow : 2 ^ (96 + b) ≤ X := hb ▸ Nat.log2_self_le h0
  have hhigh : X < 2 ^ (96 + b + 1) := hb ▸ Nat.lt_log2_self
  obtain ⟨hfew, hmany⟩ := digits_of_bits b (by omega)
  rw [estimatedReduction_eq h0 hlt, hb, Nat.add_sub_cancel_left]
  constructor
  · have habove : MMAX < rne X (10 ^ (b * 77 / 256)) := MMAX_lt_rne (by positivity) hfew hlow
    by_contra hk
    have hanti : rne X (10 ^ (b * 77 / 256)) ≤ rne X (10 ^ k) :=
      rne_antitone X (by positivity) (Nat.pow_le_pow_right (by decide) (by omega))
    omega
  · have hfits : rne X (10 ^ (b * 77 / 256 + 2)) ≤ MMAX := rne_le_MMAX hmany hhigh
    by_contra hk
    have habove := hleast (b * 77 / 256 + 2) (by omega)
    omega

end Sys2Proof.Machine
end

section
/-! PROOFS. The statements of 41_construct.md: the copy of a valid quadruple, construction from explicit parts, and construction from integers of one and of two words. -/

namespace Sys2Proof.Machine

open Sys2Proof

/-! ## Validate and copy -/

/-- LDW writes the words of a valid operand, its own and not Pack's (41_construct.md R83). -/
theorem perform_ldw_valid {opa : Quad} (h : opa.valid = true) (opb : Quad) (b : Bool) :
    perform .ldw opa opb b = .ok (resWords opa.words) := by
  rw [perform, onDec, readDec_valid h]

/-- Settles O25: the two conditions on the flags word are those of a valid and of an invalid operand. -/
theorem ldwCopiesValidWords : Obligations.LdwCopiesValidWords := by
  refine ⟨decode_of_encode_eq rfl rfl, fun s => ⟨fun hmask hscale => ?_, fun h => ?_⟩⟩
  · exact exec_of_perform_ok (perform_ldw_valid ((valid_iff_mask _).mpr ⟨hmask, hscale⟩) _ _)
  · exact exec_of_perform_error (e := .invalidRepresentation)
      (perform_invalid_opa rfl (valid_eq_false h) _ _)

/-! ## Explicit parts -/

/-- The result words of a decimal whose mantissa is three given words (10_state.md R21, R24). -/
theorem decResult_u96 (sign : Bool) (scale : Nat) (q : Quad) :
    decResult { sign := sign, scale := scale, mant := q.u96 } =
      ⟨q.w0, q.w1, q.w2, flagsWord sign scale, 0#32, 0#32, 0#32, 0#32⟩ := by
  obtain ⟨h0, h1, h2⟩ := q.words_of_u96
  simp only [decResult_eq, pack, h0, h1, h2]

/-- Pack's flags word as a sign mask over a scale held in a word (10_state.md R24). -/
theorem flagsWord_toNat (sign : Bool) (scale : Word) :
    flagsWord sign scale.toNat = (if sign then 0x80000000#32 else 0#32) ||| scale <<< 16 := by
  cases sign <;> simp [flagsWord]

/-- A scale word of at most 28 is taken as it stands (41_construct.md R84). -/
theorem decOfParts_of_le (opa : Quad) {opb : Quad} (h : opb.w1.toNat ≤ 28) :
    decOfParts opa opb =
      .ok { sign := decide (opb.w0 ≠ 0#32), scale := opb.w1.toNat, mant := opa.u96 } :=
  if_neg (Nat.not_lt.mpr h)

/-- A scale word above 28 is refused (41_construct.md R84). -/
theorem decOfParts_of_gt (opa : Quad) {opb : Quad} (h : 28 < opb.w1.toNat) :
    decOfParts opa opb = .error .invalidRepresentation :=
  if_pos h

/-- Settles O26: the mantissa words are OPA's own, and the flags word joins the selected sign to the scale word. -/
theorem mkpartsBuildsFromParts : Obligations.MkpartsBuildsFromParts := by
  refine ⟨decode_of_encode_eq rfl rfl, fun s => ⟨fun h => ?_, fun h => ?_⟩⟩
  · refine exec_of_perform_ok ?_
    rw [perform, decOfParts_of_le _ h, decOutcome_ok, decResult_u96, flagsWord_toNat]
    simp only [decide_eq_true_eq, ite_not]
  · refine exec_of_perform_error (e := .invalidRepresentation) ?_
    rw [perform, decOfParts_of_gt _ h, decOutcome_error]

/-! ## Integers -/

/-- The result words of an integer of two words: scale 0, the sign in bit 31 of the flags word (41_construct.md R85 to R88). -/
theorem decResult_integer (sign : Bool) (w0 w1 : Word) :
    decResult { sign := sign, scale := 0, mant := (w1 ++ w0).toNat } =
      ⟨w0, w1, 0#32, if sign then 0x80000000#32 else 0#32, 0#32, 0#32, 0#32, 0#32⟩ := by
  have hmant : (w1 ++ w0).toNat = (Quad.mk w0 w1 0#32 0#32).u96 := by
    simp [Quad.u96, toNat_append_word]
  rw [hmant, decResult_u96]
  cases sign <;> rfl

/-- An integer of one word has a zero upper word (41_construct.md R85, R86). -/
theorem decResult_integer32 (sign : Bool) (w : Word) :
    decResult { sign := sign, scale := 0, mant := w.toNat } =
      ⟨w, 0#32, 0#32, if sign then 0x80000000#32 else 0#32, 0#32, 0#32, 0#32, 0#32⟩ := by
  rw [← decResult_integer, toNat_append_word, BitVec.toNat_ofNat, Nat.zero_mod, Nat.mul_zero,
    Nat.add_zero]

/-- The decimal of a two's complement integer: its top bit, and its absolute value read as unsigned.
The least negative value is no exception: its absolute value fits the unsigned reading (41_construct.md R85, R87). -/
theorem decOfInt_toInt {n : Nat} (x : BitVec n) :
    decOfInt x.toInt = { sign := x.msb, scale := 0, mant := x.abs.toNat } := by
  have hlt := x.isLt
  have habs : x.toInt.natAbs = x.abs.toNat := by
    rw [BitVec.toNat_abs, BitVec.toInt_eq_msb_cond]
    split <;> omega
  rw [decOfInt, habs, BitVec.msb_eq_toInt]

/-- FROMI32's result words (41_construct.md R85). -/
theorem decResult_signed32 (w : Word) :
    decResult (decOfInt w.toInt) =
      if w.msb then ⟨-w, 0#32, 0#32, 0x80000000#32, 0#32, 0#32, 0#32, 0#32⟩
      else ⟨w, 0#32, 0#32, 0#32, 0#32, 0#32, 0#32, 0#32⟩ := by
  rw [decOfInt_toInt, BitVec.abs_eq, decResult_integer32]
  cases w.msb <;> rfl

/-- FROMI64's result words (41_construct.md R87). -/
theorem decResult_signed64 (w0 w1 : Word) :
    decResult (decOfInt (w1 ++ w0).toInt) =
      if w1.msb then
        ⟨(-(w1 ++ w0)).extractLsb' 0 32, (-(w1 ++ w0)).extractLsb' 32 32, 0#32, 0x80000000#32,
          0#32, 0#32, 0#32, 0#32⟩
      else ⟨w0, w1, 0#32, 0#32, 0#32, 0#32, 0#32, 0#32⟩ := by
  have hmsb : (w1 ++ w0).msb = w1.msb := BitVec.msb_append
  rw [decOfInt_toInt, BitVec.abs_eq, hmsb]
  cases w1.msb with
  | false => exact decResult_integer false w0 w1
  | true =>
    have h := decResult_integer true ((-(w1 ++ w0)).extractLsb' 0 32)
      ((-(w1 ++ w0)).extractLsb' 32 32)
    rwa [BitVec.extractLsb'_append_extractLsb'] at h

/-- Settles O27: each integer's magnitude is one or two words, and its sign is the flags word. -/
theorem integerConstructionsNeverFail : Obligations.IntegerConstructionsNeverFail := by
  refine ⟨decode_of_encode_eq rfl rfl, decode_of_encode_eq rfl rfl, decode_of_encode_eq rfl rfl,
    decode_of_encode_eq rfl rfl, fun s => ⟨?_, ?_, ?_, ?_⟩⟩ <;> refine exec_of_perform_ok ?_
  · exact congrArg Except.ok (decResult_integer32 false s.opa.w0)
  · rw [perform, decOfNat, Quad.u64_eq_append, decResult_integer]
    rfl
  · exact congrArg Except.ok (decResult_signed32 s.opa.w0)
  · exact congrArg Except.ok (decResult_signed64 s.opa.w0 s.opa.w1)

end Sys2Proof.Machine
end

section
/-! PROOFS. The statements of 42_addsub.md: zero operands, the exact signed sum rounded once, its overflow, and the exchange of the operands of ADD and of MUL. -/

namespace Sys2Proof.Machine

open Sys2Proof

/-! ## Operands and outcomes -/

/-- `B` is the second operand of ADD, or of SUB with its sign flipped: what AddCore adds (42_addsub.md R96, R97). -/
def IsAddend (i : Instr) (opb : Quad) (B : Dec) : Prop :=
  i = .add ∧ B = opb.dec ∨ i = .sub ∧ B = opb.dec.negated

theorem isAddend_add (opb : Quad) : IsAddend .add opb opb.dec := .inl ⟨rfl, rfl⟩

theorem isAddend_sub (opb : Quad) : IsAddend .sub opb opb.dec.negated := .inr ⟨rfl, rfl⟩

/-- A command on two valid decimal operands applies its function (30_encoding.md R52). -/
theorem onDecs_valid {opa opb : Quad} (f : Dec → Dec → Except ErrKind Octo)
    (ha : opa.valid = true) (hb : opb.valid = true) : onDecs opa opb f = f opa.dec opb.dec := by
  simp only [onDecs, readDec_valid ha, readDec_valid hb]

/-- ADD and SUB of valid operands are AddCore of the addend (42_addsub.md R96, R97). -/
theorem perform_addend {i : Instr} {opa opb : Quad} {B : Dec} (hi : IsAddend i opb B)
    (ha : opa.valid = true) (hb : opb.valid = true) (b : Bool) :
    perform i opa opb b = decOutcome (addCore opa.dec B) := by
  obtain ⟨rfl, rfl⟩ | ⟨rfl, rfl⟩ := hi <;> exact onDecs_valid _ ha hb

/-- ADD and SUB write the decimal that AddCore answers (42_addsub.md R96, R97). -/
theorem exec_addend {i : Instr} {s : State} {B d : Dec} (hi : IsAddend i s.opb B)
    (ha : s.opa.valid = true) (hb : s.opb.valid = true) (h : addCore s.opa.dec B = .ok d) :
    exec i s = .next { s with res := decResult d, err := 0#3 } :=
  exec_of_perform_ok (by rw [perform_addend hi ha hb, h, decOutcome_ok])

/-- Flipping the sign of an addend keeps its scale and mantissa in their ranges (42_addsub.md R97). -/
theorem addend_fits {i : Instr} {opb : Quad} {B : Dec} (hi : IsAddend i opb B)
    (hb : opb.valid = true) : B.fits = true := by
  obtain ⟨-, rfl⟩ | ⟨-, rfl⟩ := hi
  · exact dec_fits hb
  · exact (Dec.negated_fits _).trans (dec_fits hb)

/-- MUL of valid operands is MulCore (43_mul.md R100). -/
theorem perform_mul {opa opb : Quad} (ha : opa.valid = true) (hb : opb.valid = true) (b : Bool) :
    perform .mul opa opb b = decOutcome (mulCore opa.dec opb.dec) :=
  onDecs_valid _ ha hb

theorem decOutcome_eq_error {o : Except ErrKind Dec} {e : ErrKind} :
    decOutcome o = .error e ↔ o = .error e := by
  cases o <;> simp

/-- A command leaves the state of an error exactly when its outcome is that error: a success writes code 0 (60_exceptions.md R145). -/
theorem exec_eq_error_iff {i : Instr} {s : State} {e : ErrKind} :
    exec i s = .next { s with err := e.code } ↔
      perform i s.opa s.opb s.cfg.divNormalize = .error e := by
  refine ⟨fun h => ?_, exec_of_perform_error⟩
  obtain ⟨r, -, hs⟩ | ⟨e', ho, hs⟩ := exec_cases h
  · exact absurd (congrArg State.err hs) e.code_ne_zero
  · rw [ho, ErrKind.code_injective (congrArg State.err hs)]

/-! ## Zero operands -/

theorem addCore_zero_right (A : Dec) {B : Dec} (hB : B.mant = 0) : addCore A B = .ok A :=
  if_pos hB

theorem addCore_zero_left {A B : Dec} (hA : A.mant = 0) (hB : B.mant ≠ 0) :
    addCore A B = .ok B :=
  (if_neg hB).trans (if_pos hA)

/-- The result words of a valid operand returned as it stands (42_addsub.md R94). -/
theorem decResult_dec {q : Quad} (h : q.valid = true) :
    decResult q.dec = ⟨q.w0, q.w1, q.w2, q.w3, 0#32, 0#32, 0#32, 0#32⟩ := by
  rw [decResult_eq, pack_dec h]

/-- The sign is bit 31 of the flags word, above the scale field (10_state.md R21, R24). -/
theorem flagsWord_not (s : Bool) {e : Nat} (he : e ≤ 28) :
    flagsWord (!s) e = flagsWord s e ^^^ 0x80000000#32 := by
  cases s <;> interval_cases e <;> decide

/-- The result words of a valid operand returned with its sign flipped (42_addsub.md R94, R97). -/
theorem decResult_negated {q : Quad} (h : q.valid = true) :
    decResult q.dec.negated =
      ⟨q.w0, q.w1, q.w2, q.w3 ^^^ 0x80000000#32, 0#32, 0#32, 0#32, 0#32⟩ := by
  have hscale : q.scaleField ≤ 28 := ((Dec.fits_iff _).mp (dec_fits h)).1
  rw [← Quad.flagsWord_of_valid h, ← flagsWord_not _ hscale]
  exact decResult_u96 _ _ q

/-- Settles O28: AddCore returns one of its operands, and packing the triple of a valid operand gives its own words. -/
theorem addingZeroReturnsTheOtherOperand : Obligations.AddingZeroReturnsTheOtherOperand := by
  refine fun s ha hb => ⟨fun hB => ?_, fun hA hB => ?_⟩
  · rw [← decResult_dec ha]
    exact ⟨exec_addend (isAddend_add _) ha hb (addCore_zero_right _ hB),
      exec_addend (isAddend_sub _) ha hb (addCore_zero_right _ hB)⟩
  · rw [← decResult_dec hb, ← decResult_negated hb]
    exact ⟨exec_addend (isAddend_add _) ha hb (addCore_zero_left hA hB),
      exec_addend (isAddend_sub _) ha hb (addCore_zero_left hA hB)⟩

/-! ## The exact sum -/

/-- The larger of the two scales, at which AddCore adds (42_addsub.md R90). -/
def sumScale (A B : Dec) : Nat := max A.scale B.scale

/-- The exact sum of two decimals, as an integer at the larger scale (42_addsub.md R90). -/
def exactSum (A B : Dec) : Int :=
  A.signedAt (sumScale A B - A.scale) + B.signedAt (sumScale A B - B.scale)

theorem sumScale_comm (A B : Dec) : sumScale A B = sumScale B A := max_comm _ _

theorem exactSum_comm (A B : Dec) : exactSum A B = exactSum B A := by
  rw [exactSum, exactSum, sumScale_comm, add_comm]

theorem sumScale_le {A B : Dec} (hA : A.fits = true) (hB : B.fits = true) : sumScale A B ≤ 28 :=
  max_le ((Dec.fits_iff A).mp hA).1 ((Dec.fits_iff B).mp hB).1

/-- A magnitude with a sign, true being negative (00_scope.md R12). -/
def withSign (s : Bool) (m : Nat) : Int := if s then -(m : Int) else (m : Int)

@[simp] theorem withSign_zero (s : Bool) : withSign s 0 = 0 := by cases s <;> rfl

@[simp] theorem natAbs_withSign (s : Bool) (m : Nat) : (withSign s m).natAbs = m := by
  cases s <;> simp [withSign]

/-- The exact sum in terms of the signs and the aligned magnitudes (42_addsub.md R90). -/
theorem exactSum_eq_withSign (A B : Dec) :
    exactSum A B = withSign A.sign (scaleUp A.mant (sumScale A B - A.scale)) +
      withSign B.sign (scaleUp B.mant (sumScale A B - B.scale)) := rfl

/-- A signed mantissa as a factor of 1 or -1 and a magnitude (42_addsub.md R90). -/
theorem Dec.signedAt_eq_mul (d : Dec) (k : Nat) :
    d.signedAt k = (if d.sign then -1 else 1) * (d.mant * 10 ^ k : Nat) := by
  unfold Dec.signedAt
  split <;> simp

/-- The signed mantissa at a larger scale is the value in units of that scale (00_scope.md R12). -/
theorem Dec.signedAt_eq_val (d : Dec) {e : Nat} (h : d.scale ≤ e) :
    (d.signedAt (e - d.scale) : ℚ) = d.val * 10 ^ e := by
  obtain ⟨k, rfl⟩ := Nat.exists_eq_add_of_le h
  rw [Nat.add_sub_cancel_left, Dec.signedAt, Dec.val, pow_add]
  split <;> push_cast <;> field_simp

/-- The exact sum is the sum of the two values (00_scope.md R12, 42_addsub.md R90). -/
theorem exactSum_eq_val (A B : Dec) :
    (exactSum A B : ℚ) = (A.val + B.val) * 10 ^ sumScale A B := by
  have hA : A.scale ≤ sumScale A B := le_max_left _ _
  have hB : B.scale ≤ sumScale A B := le_max_right _ _
  rw [exactSum, Int.cast_add, A.signedAt_eq_val hA, B.signedAt_eq_val hB, add_mul]

/-- The sign of the exact sum; an exact cancellation keeps the first operand's (42_addsub.md R93). -/
def sumSign (A B : Dec) : Bool :=
  if exactSum A B = 0 then A.sign else decide (exactSum A B < 0)

/-- With a nonzero exact sum the sign is that of the sum alone (42_addsub.md R93). -/
theorem sumSign_comm {A B : Dec} (h : exactSum A B ≠ 0) : sumSign A B = sumSign B A := by
  rw [sumSign, sumSign, exactSum_comm B A, if_neg h, if_neg h]

/-- Adding or subtracting magnitudes by their signs gives the signed sum, and a zero with the first sign (42_addsub.md R90 steps 3 and 4, R93). -/
theorem signedSum_spec (sA sB : Bool) (a b : Nat) :
    withSign (signedSum sA a sB b).1 (signedSum sA a sB b).2 = withSign sA a + withSign sB b ∧
      ((signedSum sA a sB b).2 = 0 → (signedSum sA a sB b).1 = sA) := by
  unfold signedSum
  split_ifs with hs hle
  · subst hs
    cases sA <;> simp [withSign]
    omega
  · obtain rfl : sB = !sA := Bool.eq_not_of_ne (Ne.symm hs)
    cases sA <;> simp [withSign] <;> omega
  · obtain rfl : sB = !sA := Bool.eq_not_of_ne (Ne.symm hs)
    cases sA <;> simp [withSign] <;> omega

/-- A sign and a magnitude are known by the integer they stand for, but for the sign of a zero (42_addsub.md R93). -/
theorem eq_sign_natAbs {r : Bool × Nat} {s : Bool} (h0 : r.2 = 0 → r.1 = s) :
    r = (if withSign r.1 r.2 = 0 then s else decide (withSign r.1 r.2 < 0),
      (withSign r.1 r.2).natAbs) := by
  obtain ⟨sign, m⟩ := r
  obtain rfl | hm := Nat.eq_zero_or_pos m
  · cases h0 rfl
    simp
  · cases sign <;> simp [withSign, hm, hm.ne']

/-- The aligned magnitudes of two decimals add to the sign and the magnitude of the exact sum (42_addsub.md R90, R93). -/
theorem signedSum_aligned (A B : Dec) :
    signedSum A.sign (scaleUp A.mant (sumScale A B - A.scale)) B.sign
        (scaleUp B.mant (sumScale A B - B.scale)) =
      (sumSign A B, (exactSum A B).natAbs) := by
  obtain ⟨hx, h0⟩ := signedSum_spec A.sign B.sign (scaleUp A.mant (sumScale A B - A.scale))
    (scaleUp B.mant (sumScale A B - B.scale))
  rw [eq_sign_natAbs h0, hx, ← exactSum_eq_withSign, sumSign]

/-- AddCore of nonzero operands is ScaleResult of the exact sum, with the sum's sign (42_addsub.md R90). -/
theorem addCore_of_ne_zero {A B : Dec} (hA : A.mant ≠ 0) (hB : B.mant ≠ 0) :
    addCore A B = (scaleResult (exactSum A B).natAbs (sumScale A B)).map
      fun p => ⟨sumSign A B, p.2, p.1⟩ := by
  have hsum := signedSum_aligned A B
  simp only [sumScale] at hsum ⊢
  simp only [addCore, if_neg hA, if_neg hB, hsum]
  cases scaleResult (exactSum A B).natAbs (max A.scale B.scale) <;> rfl

/-- Settles O29: the exact sum's scale is at most 28, so ScaleResult looks for the least reduction from 0 on. -/
theorem sumsAreExactAndRoundedOnce : Obligations.SumsAreExactAndRoundedOnce := by
  intro s i B k hi ha hb hA hB
  simp only [← Dec.signedAt_eq_mul]
  intro hk hfit hleast
  have hscale : sumScale s.opa.dec B ≤ 28 := sumScale_le (dec_fits ha) (addend_fits hi hb)
  have hred : scaleResult (exactSum s.opa.dec B).natAbs (sumScale s.opa.dec B) =
      .ok (rne (exactSum s.opa.dec B).natAbs (10 ^ k), sumScale s.opa.dec B - k) :=
    scaleResult_ok (by omega) hk hfit fun j _ => hleast j
  refine exec_addend hi ha hb ?_
  rw [addCore_of_ne_zero hA hB, hred]
  rfl

/-! ## Overflow -/

/-- An aligned mantissa rounds to at most the mantissa, so it fits at scale 0 (42_addsub.md R95). -/
theorem rne_scaleUp_le (m a e : Nat) : rne (scaleUp m (e - a)) (10 ^ e) ≤ m :=
  have hle : 1 * 10 ^ (e - a) ≤ 10 ^ e :=
    (Nat.one_mul _).le.trans (Nat.pow_le_pow_right (by decide) (Nat.sub_le e a))
  calc rne (scaleUp m (e - a)) (10 ^ e) ≤ rne (m * 10 ^ (e - a)) (1 * 10 ^ (e - a)) :=
        rne_antitone _ (by positivity) hle
    _ = m := by rw [rne_mul_right _ _ (by positivity), rne_one]

/-- A sum no larger than one of its aligned operands does not overflow (42_addsub.md R95). -/
theorem rne_le_MMAX_of_le_scaleUp {d : Dec} (hd : d.fits = true) {e X : Nat}
    (hX : X ≤ scaleUp d.mant (e - d.scale)) : rne X (10 ^ e) ≤ MMAX :=
  calc rne X (10 ^ e) ≤ rne (scaleUp d.mant (e - d.scale)) (10 ^ e) := rne_mono _ hX
    _ ≤ d.mant := rne_scaleUp_le _ _ _
    _ ≤ MMAX := (Dec.fits_iff_le.mp hd).2

/-- Opposite signs, or a zero, leave a sum no larger than one of its terms (42_addsub.md R95). -/
theorem natAbs_withSign_add_le {sA sB : Bool} {a b : Nat} (h : sA ≠ sB ∨ a = 0 ∨ b = 0) :
    (withSign sA a + withSign sB b).natAbs ≤ a ∨ (withSign sA a + withSign sB b).natAbs ≤ b := by
  obtain hs | rfl | rfl := h
  · obtain rfl : sB = !sA := Bool.eq_not_of_ne hs.symm
    cases sA <;> simp [withSign] <;> omega
  · exact .inr (by simp)
  · exact .inl (by simp)

@[simp] theorem scaleUp_eq_zero {m k : Nat} : scaleUp m k = 0 ↔ m = 0 := by simp [scaleUp]

/-- Only nonzero operands of one sign have a sum that overflows (42_addsub.md R95). -/
theorem operands_of_overflow {A B : Dec} (hA : A.fits = true) (hB : B.fits = true)
    (h : MMAX < rne (exactSum A B).natAbs (10 ^ sumScale A B)) :
    A.sign = B.sign ∧ A.mant ≠ 0 ∧ B.mant ≠ 0 := by
  by_contra hne
  have hterms : A.sign ≠ B.sign ∨ scaleUp A.mant (sumScale A B - A.scale) = 0 ∨
      scaleUp B.mant (sumScale A B - B.scale) = 0 := by
    rw [scaleUp_eq_zero, scaleUp_eq_zero]
    tauto
  have hfit : rne (exactSum A B).natAbs (10 ^ sumScale A B) ≤ MMAX := by
    rw [exactSum_eq_withSign]
    exact (natAbs_withSign_add_le hterms).elim (rne_le_MMAX_of_le_scaleUp hA)
      (rne_le_MMAX_of_le_scaleUp hB)
  exact absurd h (Nat.not_lt.mpr hfit)

/-- AddCore overflows exactly when the exact sum, rounded to an integer, exceeds MMAX (42_addsub.md R95). -/
theorem addCore_overflow_iff {A B : Dec} (hA : A.fits = true) (hB : B.fits = true) :
    addCore A B = .error .overflow ↔ MMAX < rne (exactSum A B).natAbs (10 ^ sumScale A B) := by
  by_cases hmB : B.mant = 0
  · rw [addCore_zero_right A hmB]
    exact ⟨nofun, fun h => have ⟨_, _, hne⟩ := operands_of_overflow hA hB h; absurd hmB hne⟩
  by_cases hmA : A.mant = 0
  · rw [addCore_zero_left hmA hmB]
    exact ⟨nofun, fun h => have ⟨_, hne, _⟩ := operands_of_overflow hA hB h; absurd hmA hne⟩
  rw [← scaleResult_overflow_iff, addCore_of_ne_zero hmA hmB]
  cases scaleResult (exactSum A B).natAbs (sumScale A B) <;> simp [Except.map]

/-- Settles O30: the command's error is AddCore's, which is ScaleResult's on the exact sum. -/
theorem sumsOverflowExactlyAboveTheLargestMantissa :
    Obligations.SumsOverflowExactlyAboveTheLargestMantissa := by
  intro s i B hi ha hb
  have hA := dec_fits ha
  have hB := addend_fits hi hb
  have hover : exec i s = .next { s with err := 1#3 } ↔
      MMAX < rne (exactSum s.opa.dec B).natAbs (10 ^ sumScale s.opa.dec B) := by
    rw [← addCore_overflow_iff hA hB, ← decOutcome_eq_error, ← perform_addend hi ha hb]
    exact exec_eq_error_iff (e := .overflow)
  simp only [← Dec.signedAt_eq_mul]
  exact ⟨hover, fun h => (operands_of_overflow hA hB (hover.mp h)).1⟩

/-! ## Exchanging the operands -/

theorem mulCore_comm (A B : Dec) : mulCore A B = mulCore B A := by
  unfold mulCore
  rw [Nat.mul_comm, Nat.add_comm, Bool.xor_comm]

/-- AddCore commutes when the exact sum is not zero; otherwise the first operand gives the sign, and of two zeros the whole result (42_addsub.md R98). -/
theorem addCore_comm {A B : Dec} (h : exactSum A B ≠ 0) : addCore A B = addCore B A := by
  by_cases hA : A.mant = 0 <;> by_cases hB : B.mant = 0
  · exact absurd (by simp [exactSum, Dec.signedAt, hA, hB]) h
  · rw [addCore_zero_left hA hB, addCore_zero_right B hA]
  · rw [addCore_zero_right A hB, addCore_zero_left hB hA]
  · rw [addCore_of_ne_zero hA hB, addCore_of_ne_zero hB hA, exactSum_comm, sumScale_comm,
      sumSign_comm h]

/-- The exact sum is zero only when the values add to zero (00_scope.md R12). -/
theorem exactSum_ne_zero {A B : Dec} (h : A.val + B.val ≠ 0) : exactSum A B ≠ 0 := by
  have hsum : (exactSum A B : ℚ) ≠ 0 := by
    rw [exactSum_eq_val]
    exact mul_ne_zero h (by positivity)
  exact_mod_cast hsum

/-- Settles O32: MulCore commutes, and AddCore does with a nonzero exact sum. -/
theorem addAndMulCommute : Obligations.AddAndMulCommute := by
  refine fun s t t' ha hb => ⟨fun h h' => exec_agrees h h' rfl ?_,
    fun hsum h h' => exec_agrees h h' rfl ?_⟩
  · rw [perform_mul hb ha, perform_mul ha hb, mulCore_comm]
  · rw [perform_addend (isAddend_add _) hb ha, perform_addend (isAddend_add _) ha hb,
      addCore_comm (exactSum_ne_zero hsum)]

end Sys2Proof.Machine
end

section
/-! PROOFS. The statement of 43_mul.md: the exact product, rounded once by the least reduction that fits. -/

namespace Sys2Proof.Machine

open Sys2Proof

/-- The sign of a product whose rounded mantissa is `m`: positive for every zero (43_mul.md R101). -/
def productSign (A B : Dec) (m : Nat) : Bool := if m = 0 then false else xor A.sign B.sign

/-- MulCore is ScaleResult of the exact product at the sum of the scales, with the product's sign (43_mul.md R99). -/
theorem mulCore_eq (A B : Dec) :
    mulCore A B = (scaleResult (A.mant * B.mant) (A.scale + B.scale)).map
      fun p => ⟨productSign A B p.1, p.2, p.1⟩ := by
  unfold mulCore
  cases scaleResult (A.mant * B.mant) (A.scale + B.scale) <;> rfl

/-- MUL with a reduction that fits: the reduced product, with the product's sign (43_mul.md R99, R100). -/
theorem exec_mul_ok {s : State} {m e : Nat} (ha : s.opa.valid = true) (hb : s.opb.valid = true)
    (h : scaleResult (s.opa.dec.mant * s.opb.dec.mant) (s.opa.dec.scale + s.opb.dec.scale) =
      .ok (m, e)) :
    exec .mul s = .next { s with
      res := decResult ⟨productSign s.opa.dec s.opb.dec m, e, m⟩, err := 0#3 } :=
  exec_of_perform_ok (by rw [perform_mul ha hb, mulCore_eq, h, Except.map, decOutcome_ok])

/-- MUL with no reduction that fits (43_mul.md R99, R100). -/
theorem exec_mul_error {s : State} {err : ErrKind} (ha : s.opa.valid = true)
    (hb : s.opb.valid = true)
    (h : scaleResult (s.opa.dec.mant * s.opb.dec.mant) (s.opa.dec.scale + s.opb.dec.scale) =
      .error err) :
    exec .mul s = .next { s with err := err.code } :=
  exec_of_perform_error (by rw [perform_mul ha hb, mulCore_eq, h, Except.map, decOutcome_error])

/-- Settles O31: MUL answers what ScaleResult does on the exact product. -/
theorem productsAreExactAndRoundedOnce : Obligations.ProductsAreExactAndRoundedOnce :=
  fun _ _ ha hb =>
    ⟨fun hlo hhi hfit hleast => exec_mul_ok ha hb (scaleResult_ok hlo hhi hfit hleast),
      fun hover => exec_mul_error ha hb ((scaleResult_overflow_iff _ _).mpr hover)⟩

end Sys2Proof.Machine
end

section
/-! PROOFS. The statements of 44_divmod.md: the division loop and its bound, the scale and the mantissa it ends with, its closed form, and the exact remainder. -/

namespace Sys2Proof.Machine

open Sys2Proof

/-! ## The bound on the passes -/

/-- With more passes left than scales above the current one, the loop ends, and further passes change nothing (44_divmod.md R104). -/
theorem divLoop_ends (d : Nat) {m : Nat} {st : DivLoop} (ht : st.t ≤ 28) (hm : 28 - st.t < m) :
    ∃ outcome, ∀ n, divLoop d (m + n) st = some outcome := by
  induction m generalizing st with
  | zero => omega
  | succ m ih =>
    simp only [Nat.add_right_comm m 1, divLoop]
    cases hp : divPass d st with
    | again st' =>
      obtain ⟨hraise, ht'⟩ := divPass_again_raises hp
      exact ih ht' (by omega)
    | exit st' => exact ⟨_, fun _ => rfl⟩
    | overflow => exact ⟨_, fun _ => rfl⟩

/-- Settles O36: from scale -28 there are 56 scales up to 28, and every pass that goes on raises the scale. -/
theorem divisionLoopEndsWithin57Passes : Obligations.DivisionLoopEndsWithin57Passes :=
  fun d _ hlo hhi => divLoop_ends d hhi (by omega)

/-! ## Remainders -/

/-- REM of valid operands is RemCore (44_divmod.md R113). -/
theorem perform_rem {opa opb : Quad} (ha : opa.valid = true) (hb : opb.valid = true) (b : Bool) :
    perform .rem opa opb b = decOutcome (remCore opa.dec opb.dec) :=
  onDecs_valid _ ha hb

/-- REM writes the decimal that RemCore answers (44_divmod.md R113). -/
theorem exec_rem_ok {s : State} {d : Dec} (ha : s.opa.valid = true) (hb : s.opb.valid = true)
    (h : remCore s.opa.dec s.opb.dec = .ok d) :
    exec .rem s = .next { s with res := decResult d, err := 0#3 } :=
  exec_of_perform_ok (by rw [perform_rem ha hb, h, decOutcome_ok])

theorem remCore_zero_divisor (A : Dec) {B : Dec} (hB : B.mant = 0) :
    remCore A B = .error .divideByZero :=
  if_pos hB

theorem remCore_zero_dividend {A B : Dec} (hB : B.mant ≠ 0) (hA : A.mant = 0) :
    remCore A B = .ok A :=
  (if_neg hB).trans (if_pos hA)

theorem remCore_of_ne_zero {A B : Dec} (hB : B.mant ≠ 0) (hA : A.mant ≠ 0) :
    remCore A B = .ok
      { sign := A.sign
        scale := max A.scale B.scale
        mant := scaleUp A.mant (max A.scale B.scale - A.scale) %
          scaleUp B.mant (max A.scale B.scale - B.scale) } :=
  (if_neg hB).trans (if_neg hA)

/-- The remainder of two magnitudes with the dividend's sign is the signed remainder of truncating division, whatever the divisor's sign (44_divmod.md R111). -/
theorem withSign_mod (sA sB : Bool) (a b : Nat) :
    withSign sA (a % b) = (withSign sA a).tmod (withSign sB b) := by
  cases sA <;> cases sB <;> simp [withSign, ← Int.ofNat_tmod]

/-- RemCore's answer in units of the larger scale is the signed remainder of the two operands in those units (44_divmod.md R111). -/
theorem remCore_signedAt {A B d : Dec} (hB : B.mant ≠ 0) (hA : A.mant ≠ 0)
    (h : remCore A B = .ok d) :
    d.signedAt (sumScale A B - d.scale) =
      (A.signedAt (sumScale A B - A.scale)).tmod (B.signedAt (sumScale A B - B.scale)) := by
  rw [remCore_of_ne_zero hB hA] at h
  cases h
  refine Eq.trans ?_ (withSign_mod A.sign B.sign _ _)
  simp [Dec.signedAt, withSign, sumScale, scaleUp]

/-- A is a whole number of B and RemCore's answer, which is smaller than B (44_divmod.md R111). -/
theorem remCore_val {A B d : Dec} (hB : B.mant ≠ 0) (hA : A.mant ≠ 0) (h : remCore A B = .ok d) :
    (∃ q : Int, A.val = q * B.val + d.val) ∧ |d.val| < |B.val| := by
  have hscale : d.scale ≤ sumScale A B := by
    rw [remCore_of_ne_zero hB hA] at h
    cases h
    exact le_refl _
  have hx := A.signedAt_eq_val (e := sumScale A B) (le_max_left _ _)
  have hy := B.signedAt_eq_val (e := sumScale A B) (le_max_right _ _)
  have hr := d.signedAt_eq_val hscale
  rw [remCore_signedAt hB hA h] at hr
  have hy0 : B.signedAt (sumScale A B - B.scale) ≠ 0 := by
    unfold Dec.signedAt
    split <;> simpa using hB
  generalize A.signedAt (sumScale A B - A.scale) = x at hx hr
  generalize B.signedAt (sumScale A B - B.scale) = y at hy hr hy0
  have hpow : (0 : ℚ) < 10 ^ sumScale A B := by positivity
  constructor
  · refine ⟨x.tdiv y, mul_right_cancel₀ hpow.ne' ?_⟩
    rw [add_mul, mul_assoc, ← hx, ← hy, ← hr]
    exact_mod_cast (Int.tdiv_mul_add_tmod x y).symm
  · refine lt_of_mul_lt_mul_right ?_ hpow.le
    rw [← abs_of_pos hpow, ← abs_mul, ← abs_mul, ← hr, ← hy]
    have hlt : |x.tmod y| < |y| := by
      rw [Int.abs_eq_natAbs, Int.abs_eq_natAbs, Int.natAbs_tmod]
      exact_mod_cast Nat.mod_lt _ (Int.natAbs_pos.mpr hy0)
    exact_mod_cast hlt

/-- Settles O37: at the larger scale the remainder is that of truncating integer division, and a zero dividend is 0 times the divisor and itself. -/
theorem remaindersAreExact : Obligations.RemaindersAreExact := by
  refine fun s ha hb => ⟨fun hB => ?_, fun hB => ?_⟩
  · refine exec_of_perform_error (e := .divideByZero) ?_
    rw [perform_rem ha hb, remCore_zero_divisor _ hB, decOutcome_error]
  by_cases hA : s.opa.dec.mant = 0
  · refine ⟨s.opa.dec, 0, exec_rem_ok ha hb (remCore_zero_dividend hB hA), dec_fits ha, rfl,
      (if_pos hA).symm, by simp, ?_⟩
    have hB' : s.opb.dec.val ≠ 0 := by
      unfold Dec.val
      split <;> simpa using hB
    simpa [Dec.val, hA] using hB'
  · have h := remCore_of_ne_zero hB hA
    obtain ⟨⟨q, hq⟩, hlt⟩ := remCore_val hB hA h
    exact ⟨_, q, exec_rem_ok ha hb h, remCore_fits (dec_fits ha) (dec_fits hb) h, rfl,
      (if_neg hA).symm, hq, hlt⟩

/-! ## The exact quotient -/

/-- The quotient of two decimals in units of scale u, rounded down (44_divmod.md R108, `⌊V · 10^u⌋`). -/
def quotientAt (A B : Dec) (u : Nat) : Nat :=
  A.mant * 10 ^ (B.scale + u) / (B.mant * 10 ^ A.scale)

/-- The quotient of two decimals in units of scale u, rounded to nearest even (44_divmod.md R108, `RNE(V · 10^u)`). -/
def roundedAtScale (A B : Dec) (u : Nat) : Nat :=
  rne (A.mant * 10 ^ (B.scale + u)) (B.mant * 10 ^ A.scale)

/-- Dropping the last digit of a quotient, the remainder being the sticky part (44_divmod.md R105 (a)). -/
theorem rne_drop_digit (n : Nat) {d : Nat} (hd : 0 < d) :
    rne n (d * 10) =
      if n / d % 10 > 5 ∨ (n / d % 10 = 5 ∧ (n % d ≠ 0 ∨ n / d / 10 % 2 = 1))
      then n / d / 10 + 1 else n / d / 10 :=
  rne_in_two_steps n hd rfl

/-- Scaling up a rounded-down quotient never exceeds the quotient at the larger scale (44_divmod.md R104). -/
theorem div_mul_pow_le (n d k : Nat) : n / d * 10 ^ k ≤ n * 10 ^ k / d := by
  rw [Nat.mul_comm, Nat.mul_comm n]
  exact Nat.mul_div_le_mul_div_assoc _ _ _

/-- Fewer than 10^k is added when k digits are appended to a quotient (44_divmod.md R105 (a)). -/
theorem mul_pow_div_lt (n k : Nat) {d : Nat} (hd : 0 < d) : n * 10 ^ k / d < (n / d + 1) * 10 ^ k :=
  Nat.div_lt_of_lt_mul <|
    calc n * 10 ^ k < d * (n / d + 1) * 10 ^ k :=
          Nat.mul_lt_mul_of_pos_right (Nat.lt_mul_div_succ n hd) (by positivity)
      _ = d * ((n / d + 1) * 10 ^ k) := Nat.mul_assoc _ _ _

section Quotient

variable {A B : Dec}

theorem quotientAt_mul_pow_le (A B : Dec) (u k : Nat) :
    quotientAt A B u * 10 ^ k ≤ quotientAt A B (u + k) := by
  rw [quotientAt, quotientAt, ← Nat.add_assoc, pow_add _ (B.scale + u), ← Nat.mul_assoc]
  exact div_mul_pow_le _ _ _

theorem quotientAt_mono {u v : Nat} (h : u ≤ v) : quotientAt A B u ≤ quotientAt A B v :=
  Nat.div_le_div_right (Nat.mul_le_mul_left _ (Nat.pow_le_pow_right (by decide) (by omega)))

theorem roundedAtScale_mono {u v : Nat} (h : u ≤ v) : roundedAtScale A B u ≤ roundedAtScale A B v :=
  rne_mono _ (Nat.mul_le_mul_left _ (Nat.pow_le_pow_right (by decide) (by omega)))

theorem quotientAt_le_rounded (u : Nat) : quotientAt A B u ≤ roundedAtScale A B u := rne_ge _ _

theorem roundedAtScale_le (u : Nat) : roundedAtScale A B u ≤ quotientAt A B u + 1 := rne_le _ _

/-- A quotient above MMAX at a scale of at most 0 rounds to an integer above MMAX (44_divmod.md R106). -/
theorem MMAX_lt_rounded_zero (h : MMAX < quotientAt A B 0) : MMAX < roundedAtScale A B 0 :=
  h.trans_le (quotientAt_le_rounded 0)

/-- A quotient that fits still fits, rounded, with one digit fewer (44_divmod.md R105). -/
theorem roundedAtScale_le_of_succ_fits {u : Nat} (h : quotientAt A B (u + 1) ≤ MMAX) :
    roundedAtScale A B u ≤ MMAX := by
  have hdigit := quotientAt_mul_pow_le A B u 1
  have hr := roundedAtScale_le (A := A) (B := B) u
  unfold MMAX at h ⊢
  omega

/-- The quotient after the mantissa was extended by e digits, in units of the scale reached (44_divmod.md R103). -/
theorem quotientAt_eq {e u : Nat} (h : A.scale + e = B.scale + u) :
    quotientAt A B u = A.mant * 10 ^ e / B.mant := by
  rw [quotientAt, ← h, Nat.add_comm, pow_add, ← Nat.mul_assoc,
    Nat.mul_div_mul_right _ _ (by positivity)]

theorem roundedAtScale_eq {e u : Nat} (h : A.scale + e = B.scale + u) :
    roundedAtScale A B u = rne (A.mant * 10 ^ e) B.mant := by
  rw [roundedAtScale, ← h, Nat.add_comm, pow_add, ← Nat.mul_assoc,
    rne_mul_right _ _ (by positivity)]

/-- The quotient below scale u, scaled up to it, is at most the quotient there (44_divmod.md R104). -/
theorem digits_mul_pow_le {e k u : Nat} (h : A.scale + e + k ≤ B.scale + u) :
    A.mant * 10 ^ e / B.mant * 10 ^ k ≤ quotientAt A B u :=
  calc A.mant * 10 ^ e / B.mant * 10 ^ k ≤ A.mant * 10 ^ e * 10 ^ k / B.mant := div_mul_pow_le _ _ _
    _ = A.mant * 10 ^ (A.scale + e + k) / (B.mant * 10 ^ A.scale) := by
      rw [Nat.add_assoc, Nat.add_comm A.scale, pow_add, pow_add, ← Nat.mul_assoc, ← Nat.mul_assoc,
        Nat.mul_div_mul_right _ _ (by positivity)]
    _ ≤ quotientAt A B u :=
      Nat.div_le_div_right (Nat.mul_le_mul_left _ (Nat.pow_le_pow_right (by decide) h))

/-- An exact quotient needs no rounding (44_divmod.md R107). -/
theorem roundedAtScale_of_exact (hB : B.mant ≠ 0) {e u : Nat} (h : A.scale + e = B.scale + u)
    (hr : A.mant * 10 ^ e % B.mant = 0) : roundedAtScale A B u = quotientAt A B u := by
  rw [roundedAtScale_eq h, quotientAt_eq h, rne_of_dvd (Nat.pos_of_ne_zero hB) hr]

/-- Rounding one digit lower is rounding a tenth of the quotient at the next scale (44_divmod.md R105). -/
theorem roundedAtScale_eq_tenth (A B : Dec) (u : Nat) :
    roundedAtScale A B u =
      rne (A.mant * 10 ^ (B.scale + (u + 1))) (B.mant * 10 ^ A.scale * 10) := by
  rw [← Nat.add_assoc, pow_succ, ← Nat.mul_assoc, rne_mul_right _ _ (by decide)]
  rfl

theorem roundedAtScale_eq_drop {e u : Nat} (h : A.scale + e = B.scale + (u + 1)) :
    roundedAtScale A B u = rne (A.mant * 10 ^ e) (B.mant * 10) := by
  rw [roundedAtScale_eq_tenth, ← h, Nat.add_comm, pow_add, ← Nat.mul_assoc,
    Nat.mul_right_comm B.mant, rne_mul_right _ _ (by positivity)]

/-- A rounding that carries out of 96 bits leaves the same digits, one place lower, whatever the fraction was (44_divmod.md R105 (b)). -/
theorem roundedAtScale_of_carry (hB : B.mant ≠ 0) {u : Nat} (hfit : quotientAt A B (u + 1) ≤ MMAX)
    (hcarry : MMAX < roundedAtScale A B (u + 1)) : roundedAtScale A B u = carriedQuotient := by
  have hd : 0 < B.mant * 10 ^ A.scale := Nat.mul_pos (Nat.pos_of_ne_zero hB) (by positivity)
  have hup : roundedAtScale A B (u + 1) ≤ quotientAt A B (u + 1) + 1 := roundedAtScale_le _
  have hq : A.mant * 10 ^ (B.scale + (u + 1)) / (B.mant * 10 ^ A.scale) = MMAX :=
    show quotientAt A B (u + 1) = MMAX by omega
  have hinexact : A.mant * 10 ^ (B.scale + (u + 1)) % (B.mant * 10 ^ A.scale) ≠ 0 := fun h =>
    absurd hcarry (by rw [roundedAtScale, rne_of_dvd hd h]; exact Nat.not_lt.mpr hfit)
  rw [roundedAtScale_eq_tenth, rne_drop_digit _ hd, hq, if_pos (.inr ⟨rfl, .inl hinexact⟩)]
  rfl

end Quotient

/-! ## The passes of the loop -/

/-- The loop variables after the dividend's mantissa was extended by e digits: the whole loop is a walk through these (44_divmod.md R103). -/
def divAt (A B : Dec) (e : Nat) (extended : Bool) : DivLoop :=
  { q := A.mant * 10 ^ e / B.mant
    r := A.mant * 10 ^ e % B.mant
    t := (A.scale : Int) - B.scale + e
    extended := extended }

theorem divStart_eq (A B : Dec) : divStart A B = divAt A B 0 false := by simp [divStart, divAt]

/-- The next k digits of a division come from its remainder (44_divmod.md R103). -/
theorem div_mod_extend (n k : Nat) {d : Nat} (hd : 0 < d) :
    n / d * 10 ^ k + n % d * 10 ^ k / d = n * 10 ^ k / d ∧
      n % d * 10 ^ k % d = n * 10 ^ k % d := by
  have h : n * 10 ^ k = d * (n / d * 10 ^ k) + n % d * 10 ^ k := by
    rw [← Nat.mul_assoc, ← Nat.add_mul, Nat.div_add_mod]
  rw [h, Nat.mul_add_div hd, Nat.mul_add_mod]
  exact ⟨rfl, rfl⟩

theorem divPass_exact {d : Nat} {st : DivLoop} (hr : st.r = 0) : divPass d st = divExactPass st :=
  if_pos hr

theorem divPass_overflow {d : Nat} {st : DivLoop} (hr : st.r ≠ 0) (hk : searchScale st.q st.t < 9)
    (ht : st.t + searchScale st.q st.t < 0) : divPass d st = .overflow :=
  (if_neg hr).trans (if_pos ⟨hk, ht⟩)

theorem divPass_round {d : Nat} {st : DivLoop} (hr : st.r ≠ 0) (hk : searchScale st.q st.t = 0)
    (ht : 0 ≤ st.t) : divPass d st = divRoundPass d st :=
  (if_neg hr).trans ((if_neg (by omega)).trans (if_pos hk))

theorem divPass_extend {d : Nat} {st : DivLoop} (hr : st.r ≠ 0) (hk : searchScale st.q st.t ≠ 0)
    (ht : 9 ≤ searchScale st.q st.t ∨ 0 ≤ st.t + searchScale st.q st.t) :
    divPass d st = divExtendPass d (searchScale st.q st.t) st :=
  (if_neg hr).trans ((if_neg (by unfold pow10Step; omega)).trans (if_neg hk))

section Passes

variable {A B : Dec}

/-- The pass on an exact quotient: below scale 0 it appends zeros, up to nine of them (44_divmod.md R103). -/
theorem divExactPass_divAt (hB : B.mant ≠ 0) {e : Nat} (hr : A.mant * 10 ^ e % B.mant = 0)
    (x : Bool) :
    divExactPass (divAt A B e x) =
      if A.scale + e < B.scale then
        if MMAX < A.mant * 10 ^ (e + min 9 (B.scale - (A.scale + e))) / B.mant then .overflow
        else .again (divAt A B (e + min 9 (B.scale - (A.scale + e))) x)
      else .exit (divAt A B e x) := by
  have hk : (-(divAt A B e x).t).toNat = B.scale - (A.scale + e) := by
    simp only [divAt]
    omega
  have hneg : (divAt A B e x).t < 0 ↔ A.scale + e < B.scale := by
    simp only [divAt]
    omega
  obtain ⟨hq, hr'⟩ := div_mod_extend (A.mant * 10 ^ e) (min 9 (B.scale - (A.scale + e)))
    (Nat.pos_of_ne_zero hB)
  rw [hr, Nat.zero_mul, Nat.zero_div, Nat.add_zero, Nat.mul_assoc, ← pow_add] at hq
  rw [hr, Nat.zero_mul, Nat.zero_mod, Nat.mul_assoc, ← pow_add] at hr'
  simp only [divExactPass, hneg, hk, pow10Step]
  simp only [divAt, hq, hr, ← hr', Nat.cast_add, Int.add_assoc, gt_iff_lt]

/-- The pass that rounds, in terms of the exact quotient (44_divmod.md R103). -/
theorem divRoundPass_divAt {e u : Nat} (h : A.scale + e = B.scale + u) (x : Bool) :
    divRoundPass B.mant (divAt A B e x) =
      if roundedAtScale A B u = 2 ^ 96 then
        if (u : Int) - 1 < 0 then .overflow
        else .exit ⟨carriedQuotient, A.mant * 10 ^ e % B.mant, (u : Int) - 1, true⟩
      else .exit ⟨roundedAtScale A B u, A.mant * 10 ^ e % B.mant, u, true⟩ := by
  have ht : (A.scale : Int) - B.scale + e = u := by omega
  rw [roundedAtScale_eq h]
  simp only [divRoundPass, divAt, ht]
  rfl

/-- The pass that appends k digits, in terms of the exact quotient (44_divmod.md R103). -/
theorem divExtendPass_divAt (hB : B.mant ≠ 0) (e k : Nat) (x : Bool) :
    divExtendPass B.mant k (divAt A B e x) =
      if MMAX < A.mant * 10 ^ (e + k) / B.mant then
        if (A.scale : Int) - B.scale + (e + k : Nat) - 1 < 0 then .overflow
        else .exit ⟨rne (A.mant * 10 ^ (e + k)) (B.mant * 10), A.mant * 10 ^ (e + k) % B.mant,
          (A.scale : Int) - B.scale + (e + k : Nat) - 1, true⟩
      else .again (divAt A B (e + k) true) := by
  have hd := Nat.pos_of_ne_zero hB
  obtain ⟨hq, hr⟩ := div_mod_extend (A.mant * 10 ^ e) k hd
  rw [Nat.mul_assoc, ← pow_add] at hq hr
  simp only [divExtendPass, divAt, hq, hr, rne_drop_digit _ hd, Nat.cast_add, Int.add_assoc,
    gt_iff_lt]

end Passes

/-! ## What the loop can end with -/

/-- The remainder is zero after i steps of nine digits (44_divmod.md R103, R104). -/
def ExactAfter (A B : Dec) (i : Nat) : Prop := A.mant * 10 ^ (9 * i) % B.mant = 0

/-- The scale reached after i steps of nine digits from the natural one (44_divmod.md R103, R104). -/
def scaleAfter (A B : Dec) (i : Nat) : Int := (A.scale : Int) - B.scale + 9 * i

/-- The remainder is zero after i steps of nine digits, and not before. -/
def FirstExact (A B : Dec) (i : Nat) : Prop :=
  ExactAfter A B i ∧ ∀ j, j < i → ¬ ExactAfter A B j

/-- The scale at which an inexact quotient is rounded: the largest at which it fits, rounded down, with no step exact up to there (44_divmod.md R104, R108). -/
structure LastScale (A B : Dec) (u : Nat) : Prop where
  le : u ≤ 28
  fits : quotientAt A B u ≤ MMAX
  last : u = 28 ∨ MMAX < quotientAt A B (u + 1)
  late : ∀ i, ExactAfter A B i → (u : Int) < scaleAfter A B i

/-- Everything the division loop can end with (44_divmod.md R103 to R108): an overflow of the quotient rounded to an integer, the exact quotient at the first exact step, or the quotient rounded at its last scale or, on a carry, one digit lower. -/
inductive DivOutcome (A B : Dec) : Except ErrKind DivLoop → Prop
  | overflow (h : MMAX < roundedAtScale A B 0) : DivOutcome A B (.error .overflow)
  | exact {i u r : Nat} (h : FirstExact A B i) (hu : u = (scaleAfter A B i).toNat) (hle : u ≤ 28)
      (hfit : quotientAt A B u ≤ MMAX) :
      DivOutcome A B (.ok ⟨quotientAt A B u, r, u, decide (i ≠ 0)⟩)
  | rounded {u r : Nat} (h : LastScale A B u) (hfit : roundedAtScale A B u ≤ MMAX) :
      DivOutcome A B (.ok ⟨roundedAtScale A B u, r, u, true⟩)
  | carried {u r : Nat} (h : LastScale A B (u + 1)) (hcarry : MMAX < roundedAtScale A B (u + 1)) :
      DivOutcome A B (.ok ⟨roundedAtScale A B u, r, u, true⟩)

/-- Where the loop can be (44_divmod.md R103, R104): taking steps of nine digits with no exact one so far, bringing an exact quotient up to scale 0, or past a shorter step, with no room for another. -/
inductive DivPath (A B : Dec) : DivLoop → Prop
  | searching {i : Nat} (h : ∀ j, j ≤ i → ¬ ExactAfter A B j) :
      DivPath A B (divAt A B (9 * i) (decide (i ≠ 0)))
  | found {i e : Nat} (h : FirstExact A B i) (hle : 9 * i ≤ e)
      (hup : e = 9 * i ∨ A.scale + e ≤ B.scale) : DivPath A B (divAt A B e (decide (i ≠ 0)))
  | narrowed {e u : Nat} (hu : A.scale + e = B.scale + u)
      (hk : searchScale (quotientAt A B u) u = 0)
      (late : ∀ i, ExactAfter A B i → (u : Int) < scaleAfter A B i) : DivPath A B (divAt A B e true)

/-- A pass goes on to a state of P, or ends with an outcome of Q. -/
def DivPass.Leads (P : DivLoop → Prop) (Q : Except ErrKind DivLoop → Prop) : DivPass → Prop
  | .again st => P st
  | .exit st => Q (.ok st)
  | .overflow => Q (.error .overflow)

/-- What every pass keeps until it ends with Q, the loop ends with (44_divmod.md R103). -/
theorem divLoop_leads {d n : Nat} {P : DivLoop → Prop} {Q : Except ErrKind DivLoop → Prop}
    (hpass : ∀ st, st.Bounded d → P st → (divPass d st).Leads P Q) {st : DivLoop}
    (hst : st.Bounded d) (hP : P st) {o : Except ErrKind DivLoop} (h : divLoop d n st = some o) :
    Q o := by
  induction n generalizing st with
  | zero => cases h
  | succ n ih =>
    have hlead := hpass st hst hP
    rw [divLoop] at h
    cases hp : divPass d st with
    | again st' =>
      rw [hp] at h hlead
      exact ih (divPass_again_bounded hst hp) hlead h
    | exit st' =>
      rw [hp] at h hlead
      cases h
      exact hlead
    | overflow =>
      rw [hp] at h hlead
      cases h
      exact hlead

section Outcome

variable {A B : Dec}

/-- A remainder that is zero stays zero as digits are appended (44_divmod.md R103). -/
theorem mul_pow_mod_eq_zero_of_le {m d e e' : Nat} (h : m * 10 ^ e % d = 0) (hle : e ≤ e') :
    m * 10 ^ e' % d = 0 :=
  Nat.mod_eq_zero_of_dvd ((Nat.dvd_of_mod_eq_zero h).trans
    (Nat.mul_dvd_mul_left _ (pow_dvd_pow _ hle)))

/-- With no exact step up to the i-th, the scales before the next one are before every exact one. -/
theorem late_of_searching {i u : Nat} (h : ∀ j, j ≤ i → ¬ ExactAfter A B j)
    (hu : (u : Int) < scaleAfter A B (i + 1)) :
    ∀ j, ExactAfter A B j → (u : Int) < scaleAfter A B j := by
  intro j hj
  have hij : i < j := Nat.lt_of_not_le fun hle => h j hle hj
  unfold scaleAfter at hu ⊢
  push_cast at hu
  omega

/-- A scale at which SearchScale finds no step is the last one (40_primitives.md R67, 44_divmod.md R104). -/
theorem lastScale_of_searchScale {u : Nat} (hle : u ≤ 28) (hfit : quotientAt A B u ≤ MMAX)
    (hk : searchScale (quotientAt A B u) u = 0)
    (late : ∀ i, ExactAfter A B i → (u : Int) < scaleAfter A B i) : LastScale A B u where
  le := hle
  fits := hfit
  late := late
  last := by
    obtain rfl | hlt := Nat.eq_or_lt_of_le hle
    · exact .inl rfl
    · have hone : MMAX < quotientAt A B u * 10 ^ 1 :=
        searchScale_maximal hfit (t := u) (by omega) (by omega)
      exact .inr (hone.trans_le (quotientAt_mul_pow_le A B u 1))

/-- After a step of fewer than nine digits there is no room for another (40_primitives.md R67, 44_divmod.md R104). -/
theorem searchScale_after_short {q q' : Nat} {t : Int} (hq : q ≤ MMAX) (ht : t ≤ 28)
    (hk : searchScale q t < 9) (hq' : q' ≤ MMAX) (hext : q * 10 ^ searchScale q t ≤ q') :
    searchScale q' (t + searchScale q t) = 0 := by
  obtain ⟨-, h28, -⟩ := searchScale_bounds hq ht
  obtain ⟨-, h28', hfit'⟩ := searchScale_bounds hq' h28
  by_contra hne
  have hmore : MMAX < q * 10 ^ (searchScale q t + 1) :=
    searchScale_maximal hq (Nat.lt_succ_self _) (by push_cast; omega)
  have hless : q * 10 ^ (searchScale q t + 1) ≤ MMAX :=
    calc q * 10 ^ (searchScale q t + 1) = q * 10 ^ searchScale q t * 10 ^ 1 := by
          rw [pow_add, Nat.mul_assoc]
      _ ≤ q' * 10 ^ searchScale q' (t + searchScale q t) :=
          Nat.mul_le_mul hext (Nat.pow_le_pow_right (by decide) (Nat.pos_of_ne_zero hne))
      _ ≤ MMAX := hfit'
  omega

/-- The rounding pass leaves with the quotient rounded at the last scale (44_divmod.md R103, R105 (b)). -/
theorem divRoundPass_leads {P : DivLoop → Prop} (hB : B.mant ≠ 0) {e u : Nat}
    (hu : A.scale + e = B.scale + u) (h : LastScale A B u) (x : Bool) :
    (divRoundPass B.mant (divAt A B e x)).Leads P (DivOutcome A B) := by
  rw [divRoundPass_divAt hu]
  split_ifs with hcarry hneg
  · obtain rfl : u = 0 := by omega
    exact .overflow (hcarry ▸ by decide)
  · obtain ⟨v, rfl⟩ : ∃ v, u = v + 1 := ⟨u - 1, by omega⟩
    have hover : MMAX < roundedAtScale A B (v + 1) := hcarry ▸ by decide
    rw [← roundedAtScale_of_carry hB h.fits hover, Nat.cast_succ, Int.add_sub_cancel]
    exact .carried h hover
  · refine .rounded h ?_
    have hup := roundedAtScale_le (A := A) (B := B) u
    have hfit := h.fits
    unfold MMAX at hfit ⊢
    omega

/-- The pass on an exact quotient brings it toward scale 0, or leaves with it there (44_divmod.md R103, R106 (a)). -/
theorem divPass_found_leads (hB : B.mant ≠ 0) {i e : Nat} (h : FirstExact A B i) (hle : 9 * i ≤ e)
    (hup : e = 9 * i ∨ A.scale + e ≤ B.scale)
    (hst : (divAt A B e (decide (i ≠ 0))).Bounded B.mant) :
    (divPass B.mant (divAt A B e (decide (i ≠ 0)))).Leads (DivPath A B) (DivOutcome A B) := by
  have hr : A.mant * 10 ^ e % B.mant = 0 := mul_pow_mod_eq_zero_of_le h.1 hle
  rw [divPass_exact (st := divAt A B e _) hr, divExactPass_divAt hB hr]
  split_ifs with hneg hover
  · exact .overflow (MMAX_lt_rounded_zero (hover.trans_le
      (by simpa using digits_mul_pow_le (A := A) (B := B) (k := 0) (u := 0) (by omega))))
  · exact .found h (by omega) (by omega)
  · obtain ⟨u, hu⟩ : ∃ u, A.scale + e = B.scale + u := ⟨A.scale + e - B.scale, by omega⟩
    have ht : (A.scale : Int) - B.scale + e = u := by omega
    obtain ⟨hq, -, hle28⟩ := hst
    simp only [divAt, ht, ← quotientAt_eq hu] at hq hle28 ⊢
    exact .exact h (by unfold scaleAfter; omega) (by omega) hq

/-- The pass past a shorter step leaves: no step is left to take (44_divmod.md R103). -/
theorem divPass_narrowed_leads (hB : B.mant ≠ 0) {e u : Nat} (hu : A.scale + e = B.scale + u)
    (hk : searchScale (quotientAt A B u) u = 0)
    (late : ∀ i, ExactAfter A B i → (u : Int) < scaleAfter A B i)
    (hst : (divAt A B e true).Bounded B.mant) :
    (divPass B.mant (divAt A B e true)).Leads (DivPath A B) (DivOutcome A B) := by
  have ht : (divAt A B e true).t = u := by simp only [divAt]; omega
  have hq : (divAt A B e true).q = quotientAt A B u := (quotientAt_eq hu).symm
  obtain ⟨hfit, -, hle⟩ := hst
  rw [hq] at hfit
  rw [ht] at hle
  have hlast := lastScale_of_searchScale (by omega) hfit hk late
  by_cases hr : A.mant * 10 ^ e % B.mant = 0
  · rw [divPass_exact (st := divAt A B e true) hr, divExactPass_divAt hB hr, if_neg (by omega)]
    have hexact := roundedAtScale_of_exact hB hu hr
    have hround := DivOutcome.rounded (r := (divAt A B e true).r) hlast (hexact ▸ hfit)
    rwa [hexact, ← hq, ← ht] at hround
  · rw [divPass_round (st := divAt A B e true) hr (by rwa [hq, ht]) (by omega)]
    exact divRoundPass_leads hB hu hlast true

/-- One digit below an extension of a quotient that fit before its digits were added, the quotient fits, and so it does rounded (44_divmod.md R105 (a)). -/
theorem fits_one_digit_lower (hB : B.mant ≠ 0) {e k u : Nat}
    (hu : A.scale + (e + k) = B.scale + (u + 1)) (hk : k ≤ 9)
    (hfit : A.mant * 10 ^ e / B.mant * 10 ^ k ≤ MMAX) :
    quotientAt A B u ≤ MMAX ∧ roundedAtScale A B u ≤ MMAX := by
  have hext := mul_pow_div_lt (A.mant * 10 ^ e) k (Nat.pos_of_ne_zero hB)
  have hpow : 10 ^ k ≤ 10 ^ 9 := Nat.pow_le_pow_right (by decide) hk
  have hdigit := quotientAt_mul_pow_le A B u 1
  have hup := roundedAtScale_le (A := A) (B := B) u
  rw [Nat.mul_assoc, ← pow_add, ← quotientAt_eq hu, Nat.add_mul] at hext
  unfold MMAX at hfit ⊢
  omega

/-- After nine digits the search goes on, or has found an exact step; after fewer, no step is left (44_divmod.md R103, R104). -/
theorem divPath_extended {i k : Nat} {x : Bool} (h : ∀ j, j ≤ i → ¬ ExactAfter A B j)
    (hst : (divAt A B (9 * i) x).Bounded B.mant)
    (hk : searchScale (divAt A B (9 * i) x).q (divAt A B (9 * i) x).t = k)
    (hroom : 9 ≤ k ∨ 0 ≤ (divAt A B (9 * i) x).t + k)
    (hfit : A.mant * 10 ^ (9 * i + k) / B.mant ≤ MMAX) :
    DivPath A B (divAt A B (9 * i + k) true) := by
  obtain ⟨hk9, -, -⟩ := searchScale_bounds hst.q_le hst.t_le
  rw [hk] at hk9
  obtain rfl | hlt := Nat.eq_or_lt_of_le hk9
  · by_cases hexact : ExactAfter A B (i + 1)
    · exact .found (i := i + 1) ⟨hexact, fun j hj => h j (Nat.lt_succ_iff.mp hj)⟩ (le_refl _)
        (.inl rfl)
    · exact .searching (i := i + 1) fun j hj =>
        (Nat.le_succ_iff.mp hj).elim (h j) fun he => he ▸ hexact
  · have hext := div_mul_pow_le (A.mant * 10 ^ (9 * i)) B.mant k
    rw [Nat.mul_assoc, ← pow_add] at hext
    have hshort := searchScale_after_short hst.q_le hst.t_le (hk ▸ hlt) hfit (hk ▸ hext)
    rw [hk] at hshort
    simp only [divAt] at hshort hroom
    obtain ⟨u, hu⟩ : ∃ u, A.scale + (9 * i + k) = B.scale + u :=
      ⟨A.scale + (9 * i + k) - B.scale, by omega⟩
    have ht : (A.scale : Int) - B.scale + (9 * i : Nat) + k = u := by omega
    rw [ht, ← quotientAt_eq hu] at hshort
    exact .narrowed hu hshort (late_of_searching h (by unfold scaleAfter; push_cast; omega))

/-- The pass that appends digits goes on, or has one digit too many and leaves one scale lower (44_divmod.md R103, R105 (a)). -/
theorem divExtendPass_leads (hB : B.mant ≠ 0) {i k : Nat} {x : Bool}
    (h : ∀ j, j ≤ i → ¬ ExactAfter A B j) (hst : (divAt A B (9 * i) x).Bounded B.mant)
    (hk : searchScale (divAt A B (9 * i) x).q (divAt A B (9 * i) x).t = k)
    (hroom : 9 ≤ k ∨ 0 ≤ (divAt A B (9 * i) x).t + k) :
    (divExtendPass B.mant k (divAt A B (9 * i) x)).Leads (DivPath A B) (DivOutcome A B) := by
  rw [divExtendPass_divAt hB]
  split_ifs with hover hneg
  · exact .overflow (MMAX_lt_rounded_zero (hover.trans_le
      (by simpa using digits_mul_pow_le (A := A) (B := B) (k := 0) (u := 0) (by omega))))
  · have hbounds := searchScale_bounds hst.q_le hst.t_le
    rw [hk] at hbounds
    obtain ⟨hk9, hk28, hfit⟩ := hbounds
    simp only [divAt] at hk28 hfit
    obtain ⟨u, hu⟩ : ∃ u, A.scale + (9 * i + k) = B.scale + (u + 1) :=
      ⟨A.scale + (9 * i + k) - B.scale - 1, by omega⟩
    have ht : (A.scale : Int) - B.scale + (9 * i + k : Nat) - 1 = u := by omega
    obtain ⟨hq, hround⟩ := fits_one_digit_lower hB hu hk9 hfit
    rw [← quotientAt_eq hu] at hover
    rw [← roundedAtScale_eq_drop hu, ht]
    exact .rounded ⟨by omega, hq, .inr hover,
      late_of_searching h (by unfold scaleAfter; push_cast; omega)⟩ hround
  · exact divPath_extended h hst hk hroom (Nat.le_of_not_lt hover)

/-- A pass of the search for an exact step overflows, rounds, or appends digits (44_divmod.md R103, R106 (b)). -/
theorem divPass_searching_leads (hB : B.mant ≠ 0) {i : Nat} {x : Bool}
    (h : ∀ j, j ≤ i → ¬ ExactAfter A B j) (hst : (divAt A B (9 * i) x).Bounded B.mant) :
    (divPass B.mant (divAt A B (9 * i) x)).Leads (DivPath A B) (DivOutcome A B) := by
  have hr : (divAt A B (9 * i) x).r ≠ 0 := h i (le_refl i)
  have hq : (divAt A B (9 * i) x).q = A.mant * 10 ^ (9 * i) / B.mant := rfl
  have ht : (divAt A B (9 * i) x).t = (A.scale : Int) - B.scale + (9 * i : Nat) := rfl
  by_cases hover : searchScale (divAt A B (9 * i) x).q (divAt A B (9 * i) x).t < 9 ∧
      (divAt A B (9 * i) x).t + searchScale (divAt A B (9 * i) x).q (divAt A B (9 * i) x).t < 0
  · obtain ⟨hk, hroom⟩ := hover
    have hmore := searchScale_maximal hst.q_le (Nat.lt_succ_self _)
      (show _ ≤ min 9 (28 - (divAt A B (9 * i) x).t) by push_cast; omega)
    rw [divPass_overflow hr hk hroom]
    exact .overflow (MMAX_lt_rounded_zero (hmore.trans_le (digits_mul_pow_le (by omega))))
  by_cases hk : searchScale (divAt A B (9 * i) x).q (divAt A B (9 * i) x).t = 0
  · rw [divPass_round hr hk (by omega)]
    obtain ⟨u, hu⟩ : ∃ u, A.scale + 9 * i = B.scale + u := ⟨A.scale + 9 * i - B.scale, by omega⟩
    have htu : (divAt A B (9 * i) x).t = u := by omega
    obtain ⟨hfit, -, hle⟩ := hst
    rw [hq, htu, ← quotientAt_eq hu] at hk
    rw [hq, ← quotientAt_eq hu] at hfit
    exact divRoundPass_leads hB hu (lastScale_of_searchScale (by omega) hfit hk
      (late_of_searching h (by unfold scaleAfter; push_cast; omega))) x
  · rw [divPass_extend hr hk (by omega)]
    exact divExtendPass_leads hB h hst rfl (by omega)

/-- Every pass goes on along the path, or ends with one of the outcomes (44_divmod.md R103). -/
theorem divPass_leads (hB : B.mant ≠ 0) (st : DivLoop) (hst : st.Bounded B.mant)
    (hpath : DivPath A B st) : (divPass B.mant st).Leads (DivPath A B) (DivOutcome A B) := by
  cases hpath with
  | searching h => exact divPass_searching_leads hB h hst
  | found h hle hup => exact divPass_found_leads hB h hle hup hst
  | narrowed hu hk late => exact divPass_narrowed_leads hB hu hk late hst

theorem divPath_divStart (A B : Dec) : DivPath A B (divStart A B) := by
  rw [divStart_eq]
  by_cases h : ExactAfter A B 0
  · exact .found (i := 0) ⟨h, fun _ hj => absurd hj (Nat.not_lt_zero _)⟩ (le_refl _) (.inl rfl)
  · exact .searching (i := 0) fun j hj => Nat.le_zero.mp hj ▸ h

/-- Within its passes, the loop of a division ends with one of the outcomes (44_divmod.md R103, R104). -/
theorem divLoop_outcome (hA : A.fits = true) (hBfits : B.fits = true) (hB : B.mant ≠ 0) :
    ∃ o, divLoop B.mant divPasses (divStart A B) = some o ∧ DivOutcome A B o := by
  obtain ⟨hAe, -⟩ := Dec.fits_iff_le.mp hA
  obtain ⟨hBe, -⟩ := Dec.fits_iff_le.mp hBfits
  have hst := divStart_bounded hA hB
  have hlo : -28 ≤ (divStart A B).t := by simp only [divStart]; omega
  obtain ⟨o, ho⟩ := divisionLoopEndsWithin57Passes B.mant _ hlo hst.t_le
  exact ⟨o, ho 0, divLoop_leads (divPass_leads hB) hst (divPath_divStart A B) (ho 0)⟩

end Outcome

/-! ## The result of DIV -/

/-- The decimal of a quotient's mantissa m at scale u, with the quotient's sign (44_divmod.md R103, R109). -/
def quotientDec (A B : Dec) (u m : Nat) : Dec :=
  { sign := quotientSign A B m, scale := u, mant := m }

/-- The decimal DivCore returns from the loop's variables (44_divmod.md R103, R107). -/
def divResult (normalize : Bool) (A B : Dec) (st : DivLoop) : Dec :=
  if st.extended && normalize then
    quotientDec A B (strip st.q st.t.toNat).2 (strip st.q st.t.toNat).1
  else quotientDec A B st.t.toNat st.q

/-- DivCore is the loop, then the decimal of what it ends with (44_divmod.md R103). -/
theorem divCore_eq {A B : Dec} (hB : B.mant ≠ 0) {o : Except ErrKind DivLoop}
    (h : divLoop B.mant divPasses (divStart A B) = some o) (normalize : Bool) :
    divCore normalize A B = o.map (divResult normalize A B) := by
  rw [divCore, if_neg hB, h]
  cases o with
  | error e => rfl
  | ok st =>
    simp only [Except.map, divResult, quotientDec]
    split <;> rfl

/-- DIV of valid operands is DivCore (44_divmod.md R110). -/
theorem perform_div {opa opb : Quad} (ha : opa.valid = true) (hb : opb.valid = true) (b : Bool) :
    perform .div opa opb b = decOutcome (divCore b opa.dec opb.dec) :=
  onDecs_valid _ ha hb

section Results

variable {A B : Dec}

/-- The scale after a step, or scale 0 when that is negative, is reached by an extension of the step (44_divmod.md R103). -/
theorem exists_extension {i u : Nat}
    (hu : u = (scaleAfter A B i).toNat) : ∃ e, 9 * i ≤ e ∧ A.scale + e = B.scale + u := by
  unfold scaleAfter at hu
  exact ⟨B.scale + u - A.scale, by omega, by omega⟩

/-- However the loop leaves, it leaves with the quotient rounded at the scale it reached, which fits (44_divmod.md R103, R105). -/
theorem DivOutcome.ok_rounded (hB : B.mant ≠ 0) {st : DivLoop} (h : DivOutcome A B (.ok st)) :
    ∃ u : Nat, u ≤ 28 ∧ st.t = u ∧ st.q = roundedAtScale A B u ∧ roundedAtScale A B u ≤ MMAX := by
  cases h with
  | @exact i u _ h hu hle hfit =>
    obtain ⟨e, hi, he⟩ := exists_extension hu
    have hround := roundedAtScale_of_exact hB he (mul_pow_mod_eq_zero_of_le h.1 hi)
    exact ⟨u, hle, rfl, hround.symm, hround ▸ hfit⟩
  | @rounded u _ h hfit => exact ⟨u, h.le, rfl, rfl, hfit⟩
  | @carried u _ h _ =>
    exact ⟨u, Nat.le_of_succ_le h.le, rfl, rfl, roundedAtScale_le_of_succ_fits h.fits⟩

theorem DivOutcome.error_overflow {e : ErrKind} (h : DivOutcome A B (.error e)) :
    e = .overflow ∧ MMAX < roundedAtScale A B 0 := by
  cases h with
  | overflow h => exact ⟨rfl, h⟩

/-- Above its last scale a quotient does not fit (44_divmod.md R104). -/
theorem LastScale.not_fits {u v : Nat} (h : LastScale A B u) (huv : u < v) (hv : v ≤ 28) :
    MMAX < quotientAt A B v := by
  obtain rfl | hlast := h.last
  · omega
  · exact hlast.trans_le (quotientAt_mono huv)

theorem LastScale.unique {u v : Nat} (hu : LastScale A B u) (hv : LastScale A B v) : u = v := by
  obtain hlt | rfl | hgt := lt_trichotomy u v
  · exact absurd hv.fits (Nat.not_le.mpr (hu.not_fits hlt hv.le))
  · rfl
  · exact absurd hu.fits (Nat.not_le.mpr (hv.not_fits hgt hu.le))

/-- A quotient has no last scale below that of a first exact step at which it fits (44_divmod.md R104, R107). -/
theorem FirstExact.not_lastScale {i u v : Nat} (h : FirstExact A B i)
    (hu : u = (scaleAfter A B i).toNat) (hle : u ≤ 28) (hfit : quotientAt A B u ≤ MMAX) :
    ¬ LastScale A B v := by
  intro hv
  have hlate := hv.late i h.1
  exact absurd hfit (Nat.not_le.mpr (hv.not_fits (by omega) hle))

theorem FirstExact.unique {i j : Nat} (hi : FirstExact A B i) (hj : FirstExact A B j) : i = j := by
  obtain hlt | rfl | hgt := lt_trichotomy i j
  · exact absurd hi.1 (hj.2 i hlt)
  · rfl
  · exact absurd hj.1 (hi.2 j hgt)

/-- When a first exact step fits, the loop leaves there (44_divmod.md R103, R104). -/
theorem DivOutcome.of_firstExact {i u : Nat} {st : DivLoop} (h : FirstExact A B i)
    (hu : u = (scaleAfter A B i).toNat) (hle : u ≤ 28) (hfit : quotientAt A B u ≤ MMAX)
    (hst : DivOutcome A B (.ok st)) :
    st.q = quotientAt A B u ∧ st.t = u ∧ st.extended = decide (i ≠ 0) := by
  cases hst with
  | exact h' hu' =>
    cases h.unique h'
    cases hu.trans hu'.symm
    exact ⟨rfl, rfl, rfl⟩
  | rounded h' => exact absurd h' (h.not_lastScale hu hle hfit)
  | carried h' => exact absurd h' (h.not_lastScale hu hle hfit)

/-- When a quotient has a last scale, the loop rounds there, or one digit lower on a carry (44_divmod.md R103, R105 (b)). -/
theorem DivOutcome.of_lastScale {u : Nat} {st : DivLoop} (h : LastScale A B u)
    (hst : DivOutcome A B (.ok st)) :
    (roundedAtScale A B u ≤ MMAX ∧ st.q = roundedAtScale A B u ∧ st.t = u) ∨
      (MMAX < roundedAtScale A B u ∧ st.q = roundedAtScale A B (u - 1) ∧ st.t = (u - 1 : Nat)) := by
  cases hst with
  | exact h' hu' hle hfit => exact absurd h (h'.not_lastScale hu' hle hfit)
  | rounded h' hfit =>
    cases h.unique h'
    exact .inl ⟨hfit, rfl, rfl⟩
  | carried h' hcarry =>
    cases h.unique h'
    exact .inr ⟨hcarry, rfl, rfl⟩

/-- The decimal DivCore returns fits, and is the quotient rounded at some scale u, but for zeros stripped below it (44_divmod.md R103, R107). -/
theorem divResult_rounded (hB : B.mant ≠ 0) {st : DivLoop} (h : DivOutcome A B (.ok st))
    (normalize : Bool) :
    ∃ u m e : Nat, divResult normalize A B st = quotientDec A B e m ∧ m ≤ MMAX ∧ u ≤ 28 ∧ e ≤ u ∧
      roundedAtScale A B u = m * 10 ^ (u - e) := by
  obtain ⟨u, hle, ht, hq, hfit⟩ := h.ok_rounded hB
  rw [divResult, hq, ht, Int.toNat_natCast]
  split
  · obtain ⟨hscale, hm, -⟩ := strip_spec (roundedAtScale A B u) u
    exact ⟨u, _, _, rfl, (strip_le _ _).trans hfit, hle, hscale, hm⟩
  · exact ⟨u, _, u, rfl, hfit, hle, le_refl u, by simp⟩

/-- The decimal of a quotient rounded at scale u is within half a unit of u of the exact quotient, so within half a unit of its own scale (44_divmod.md R106). -/
theorem quotientDec_near (hB : B.mant ≠ 0) {u m e : Nat} (he : e ≤ u)
    (h : roundedAtScale A B u = m * 10 ^ (u - e)) :
    |(m : ℚ) / 10 ^ e - (A.mant * 10 ^ B.scale : ℚ) / (B.mant * 10 ^ A.scale)| ≤
      1 / (2 * 10 ^ e) := by
  have hd : 0 < B.mant * 10 ^ A.scale := Nat.mul_pos (Nat.pos_of_ne_zero hB) (by positivity)
  obtain ⟨hnear, -⟩ := rne_nearest (A.mant * 10 ^ (B.scale + u)) hd
  rw [← roundedAtScale, h] at hnear
  obtain ⟨k, rfl⟩ := Nat.exists_eq_add_of_le he
  rw [Nat.add_sub_cancel_left] at hnear
  push_cast at hnear
  have hunit : (m : ℚ) * 10 ^ k - A.mant * 10 ^ (B.scale + (e + k)) / (B.mant * 10 ^ A.scale) =
      (m / 10 ^ e - A.mant * 10 ^ B.scale / (B.mant * 10 ^ A.scale)) * 10 ^ (e + k) := by
    have hB' : (B.mant : ℚ) ≠ 0 := by exact_mod_cast hB
    field_simp
    ring
  rw [hunit, abs_mul, abs_of_pos (by positivity : (0 : ℚ) < 10 ^ (e + k)),
    ← le_div_iff₀ (by positivity), div_div] at hnear
  refine hnear.trans (one_div_le_one_div_of_le (by positivity) ?_)
  gcongr
  norm_num

end Results

section Commands

variable {s : State}

/-- DIV with a nonzero divisor overflows, or writes the decimal of what the loop leaves with (44_divmod.md R103, R110). -/
theorem exec_div_cases (ha : s.opa.valid = true) (hb : s.opb.valid = true)
    (hB : s.opb.dec.mant ≠ 0) :
    (MMAX < roundedAtScale s.opa.dec s.opb.dec 0 ∧ exec .div s = .next { s with err := 1#3 }) ∨
      ∃ st, DivOutcome s.opa.dec s.opb.dec (.ok st) ∧
        exec .div s = .next { s with
          res := decResult (divResult s.cfg.divNormalize s.opa.dec s.opb.dec st), err := 0#3 } := by
  obtain ⟨o, hloop, ho⟩ := divLoop_outcome (dec_fits ha) (dec_fits hb) hB
  have hperform : perform .div s.opa s.opb s.cfg.divNormalize =
      decOutcome (o.map (divResult s.cfg.divNormalize s.opa.dec s.opb.dec)) := by
    rw [perform_div ha hb, divCore_eq hB hloop]
  cases o with
  | error e =>
    obtain ⟨rfl, hover⟩ := ho.error_overflow
    exact .inl ⟨hover, exec_of_perform_error (e := .overflow) hperform⟩
  | ok st => exact .inr ⟨st, ho, exec_of_perform_ok hperform⟩

/-- DIV overflows when the quotient rounded to an integer exceeds MMAX (44_divmod.md R106). -/
theorem exec_div_overflow (ha : s.opa.valid = true) (hb : s.opb.valid = true)
    (hB : s.opb.dec.mant ≠ 0) (h : MMAX < roundedAtScale s.opa.dec s.opb.dec 0) :
    exec .div s = .next { s with err := 1#3 } := by
  obtain ⟨-, hexec⟩ | ⟨st, hst, -⟩ := exec_div_cases ha hb hB
  · exact hexec
  · obtain ⟨u, -, -, -, hfit⟩ := hst.ok_rounded hB
    have hmono := roundedAtScale_mono (A := s.opa.dec) (B := s.opb.dec) (Nat.zero_le u)
    omega

/-- DIV completes when the quotient rounded to an integer is at most MMAX (44_divmod.md R106). -/
theorem exec_div_completes (ha : s.opa.valid = true) (hb : s.opb.valid = true)
    (hB : s.opb.dec.mant ≠ 0) (h : roundedAtScale s.opa.dec s.opb.dec 0 ≤ MMAX) :
    ∃ st, DivOutcome s.opa.dec s.opb.dec (.ok st) ∧
      exec .div s = .next { s with
        res := decResult (divResult s.cfg.divNormalize s.opa.dec s.opb.dec st), err := 0#3 } := by
  obtain ⟨hover, -⟩ | hst := exec_div_cases ha hb hB
  · omega
  · exact hst

/-- With DIV_NORMALIZE false DIV keeps the scale and the mantissa the loop leaves with (44_divmod.md R107). -/
theorem divResult_literal (A B : Dec) (st : DivLoop) :
    divResult false A B st = quotientDec A B st.t.toNat st.q := by
  rw [divResult, Bool.and_false]
  rfl

/-- Settles O34: the loop ends with an overflow of the quotient rounded to an integer or with the quotient rounded at its scale; which scale that is, its outcomes say. -/
theorem divisionOverflowsExactlyAboveTheLargestMantissa :
    Obligations.DivisionOverflowsExactlyAboveTheLargestMantissa := by
  intro s ha hb hB
  refine ⟨fun hover => exec_div_overflow ha hb hB hover, fun hV => ?_, fun hnorm hV => ⟨?_, ?_⟩⟩
  · obtain ⟨st, hst, hexec⟩ := exec_div_completes ha hb hB hV
    obtain ⟨u, m, e, hres, hm, hu, he, hround⟩ := divResult_rounded hB hst s.cfg.divNormalize
    rw [hres] at hexec
    exact ⟨_, Dec.fits_iff_le.mpr ⟨he.trans hu, hm⟩, hexec, rfl, quotientDec_near hB he hround⟩
  · intro i u hi hfirst hu hle hfit
    obtain ⟨st, hst, hexec⟩ := exec_div_completes ha hb hB hV
    obtain ⟨hq, ht, -⟩ := hst.of_firstExact ⟨hi, hfirst⟩ hu hle hfit
    rw [hnorm, divResult_literal, hq, ht] at hexec
    exact hexec
  · intro u hle hfit hlast hlate
    obtain ⟨st, hst, hexec⟩ := exec_div_completes ha hb hB hV
    rw [hnorm, divResult_literal] at hexec
    obtain ⟨hround, hq, ht⟩ | ⟨hcarry, hq, ht⟩ := hst.of_lastScale ⟨hle, hfit, hlast, hlate⟩
    · rw [hq, ht] at hexec
      exact ⟨fun _ => hexec, fun hcarry => absurd hround (Nat.not_le.mpr hcarry)⟩
    · rw [hq, ht] at hexec
      exact ⟨fun hround => absurd hround (Nat.not_le.mpr hcarry), fun _ => hexec⟩

/-! ## Quotients exact at the natural scale -/

/-- A quotient exact at the natural scale, brought up to scale 0 when that is negative (44_divmod.md R107). -/
theorem quotientAt_natural {A B : Dec} (hN : A.mant % B.mant = 0) :
    quotientAt A B (A.scale - B.scale) = A.mant / B.mant * 10 ^ (B.scale - A.scale) := by
  rw [quotientAt_eq (e := B.scale - A.scale) (by omega),
    Nat.div_mul_right_comm (Nat.dvd_of_mod_eq_zero hN)]

/-- DIV of an exact quotient at scale 0 or above: that quotient, whatever DIV_NORMALIZE is, or an overflow (44_divmod.md R106 (a), R107). -/
theorem exec_div_natural (ha : s.opa.valid = true) (hb : s.opb.valid = true)
    (hB : s.opb.dec.mant ≠ 0) (hN : s.opa.dec.mant % s.opb.dec.mant = 0) :
    exec .div s =
      if quotientAt s.opa.dec s.opb.dec (s.opa.dec.scale - s.opb.dec.scale) ≤ MMAX then
        .next { s with
          res := decResult (quotientDec s.opa.dec s.opb.dec (s.opa.dec.scale - s.opb.dec.scale)
            (quotientAt s.opa.dec s.opb.dec (s.opa.dec.scale - s.opb.dec.scale))), err := 0#3 }
      else .next { s with err := 1#3 } := by
  obtain ⟨hAe, hAm⟩ := Dec.fits_iff_le.mp (dec_fits ha)
  have hfirst : FirstExact s.opa.dec s.opb.dec 0 :=
    ⟨by simpa [ExactAfter] using hN, fun _ hj => absurd hj (Nat.not_lt_zero _)⟩
  have hround := roundedAtScale_of_exact hB
    (e := s.opb.dec.scale - s.opa.dec.scale) (u := s.opa.dec.scale - s.opb.dec.scale) (by omega)
    (mul_pow_mod_eq_zero_of_le hfirst.1 (by omega))
  have hmono := roundedAtScale_mono (A := s.opa.dec) (B := s.opb.dec)
    (Nat.zero_le (s.opa.dec.scale - s.opb.dec.scale))
  split_ifs with hfit
  · obtain ⟨st, hst, hexec⟩ := exec_div_completes ha hb hB (hmono.trans (hround ▸ hfit))
    obtain ⟨hq, ht, hext⟩ := hst.of_firstExact hfirst (u := s.opa.dec.scale - s.opb.dec.scale)
      (by unfold scaleAfter; omega) (by omega) hfit
    rw [hexec, divResult, hext, hq, ht]
    rfl
  · have hscale : s.opa.dec.scale - s.opb.dec.scale = 0 := by
      by_contra hpos
      have hdiv := Nat.div_le_self s.opa.dec.mant s.opb.dec.mant
      rw [quotientAt_natural hN, show s.opb.dec.scale - s.opa.dec.scale = 0 by omega] at hfit
      simp only [pow_zero, Nat.mul_one] at hfit
      omega
    rw [hscale] at hfit hround
    exact exec_div_overflow ha hb hB (hround ▸ Nat.lt_of_not_le hfit)

/-- An exact quotient is zero when the dividend is (44_divmod.md R109). -/
theorem quotientSign_exact {A B : Dec} (hN : A.mant % B.mant = 0) (k : Nat) :
    quotientSign A B (A.mant / B.mant * 10 ^ k) =
      if A.mant = 0 then false else xor A.sign B.sign := by
  have hzero : A.mant / B.mant * 10 ^ k = 0 ↔ A.mant = 0 :=
    ⟨fun h => Nat.eq_zero_of_dvd_of_div_eq_zero (Nat.dvd_of_mod_eq_zero hN)
      ((Nat.mul_eq_zero.mp h).resolve_right (by positivity)), fun h => by simp [h]⟩
  simp only [quotientSign, hzero]

/-- Settles O35: the first step is exact, so the loop leaves at the natural scale or brings the quotient up to scale 0. -/
theorem exactQuotientsKeepTheNaturalScale : Obligations.ExactQuotientsKeepTheNaturalScale := by
  intro s ha hb hB hN
  obtain ⟨-, hAm⟩ := Dec.fits_iff_le.mp (dec_fits ha)
  have hexec := exec_div_natural ha hb hB hN
  rw [quotientAt_natural hN, quotientDec, quotientSign_exact hN] at hexec
  refine ⟨fun hle => ?_, fun hlt hfit => ?_, fun hlt hover => ?_⟩
  · have hdiv := Nat.div_le_self s.opa.dec.mant s.opb.dec.mant
    rw [Nat.sub_eq_zero_of_le hle, pow_zero, Nat.mul_one, if_pos (hdiv.trans hAm)] at hexec
    exact hexec
  · rw [if_pos hfit, Nat.sub_eq_zero_of_le hlt.le] at hexec
    exact hexec
  · rwa [if_neg (Nat.not_le.mpr hover)] at hexec

end Commands

/-! ## The closed form -/

/-- The search for the largest scale at which a quotient fits, rounded down (44_divmod.md R108, `max U`). -/
theorem largestFit_cases (n d bound : Nat) :
    (largestFit n d bound = none ∧ ∀ j, j ≤ bound → MMAX < n * 10 ^ j / d) ∨
      ∃ u, u ≤ bound ∧ largestFit n d bound = some u ∧ n * 10 ^ u / d ≤ MMAX ∧
        ∀ j, u < j → j ≤ bound → MMAX < n * 10 ^ j / d := by
  induction bound with
  | zero =>
    rw [largestFit]
    split_ifs with h
    · exact .inr ⟨0, le_refl 0, rfl, by simpa using h, fun j hj hj' => by omega⟩
    · exact .inl ⟨rfl, fun j hj => by simpa [Nat.le_zero.mp hj] using h⟩
  | succ b ih =>
    rw [largestFit]
    split_ifs with h
    · exact .inr ⟨b + 1, le_refl _, rfl, h, fun j hj hj' => by omega⟩
    have hlast : ∀ j, j = b + 1 → MMAX < n * 10 ^ j / d := fun j hj => hj ▸ Nat.lt_of_not_le h
    obtain ⟨hnone, hall⟩ | ⟨u, hu, hsome, hfit, hall⟩ := ih
    · exact .inl ⟨hnone, fun j hj => (Nat.le_succ_iff.mp hj).elim (hall j) (hlast j)⟩
    · exact .inr ⟨u, Nat.le_succ_of_le hu, hsome, hfit,
        fun j huj hj => (Nat.le_succ_iff.mp hj).elim (hall j huj) (hlast j)⟩

/-- Zeros appended with as many scales strip off again (40_primitives.md R62). -/
theorem strip_mul_pow (m u k : Nat) : strip (m * 10 ^ k) (u + k) = strip m u := by
  induction k with
  | zero => simp
  | succ k ih =>
    rw [← Nat.add_assoc, strip_succ, pow_succ, ← Nat.mul_assoc, if_pos (Nat.mul_mod_left _ _),
      Nat.mul_div_cancel _ (by decide), ih]

section ClosedForm

variable {A B : Dec}

/-- The decimal of a quotient rounded and stripped (44_divmod.md R108). -/
def strippedQuotient (A B : Dec) (u : Nat) : Dec :=
  quotientDec A B (strip (roundedAtScale A B u) u).2 (strip (roundedAtScale A B u) u).1

theorem numerator_mul_pow (A B : Dec) (u : Nat) :
    A.mant * 10 ^ B.scale * 10 ^ u = A.mant * 10 ^ (B.scale + u) := by
  rw [pow_add, Nat.mul_assoc]

/-- The closed form of an exact quotient (44_divmod.md R108). -/
theorem divClosedForm_natural (hA : A.fits = true) (hN : A.mant % B.mant = 0) :
    divClosedForm A B =
      if quotientAt A B (A.scale - B.scale) ≤ MMAX then
        .ok (quotientDec A B (A.scale - B.scale) (quotientAt A B (A.scale - B.scale)))
      else .error .overflow := by
  obtain ⟨-, hAm⟩ := Dec.fits_iff_le.mp hA
  rw [quotientAt_natural hN, divClosedForm, if_pos hN]
  by_cases hle : B.scale ≤ A.scale
  · have hdiv := Nat.div_le_self A.mant B.mant
    rw [if_pos hle, Nat.sub_eq_zero_of_le hle, pow_zero, Nat.mul_one, if_pos (hdiv.trans hAm)]
    rfl
  · rw [if_neg hle, Nat.sub_eq_zero_of_le (Nat.le_of_not_le hle)]
    by_cases hfit : A.mant / B.mant * 10 ^ (B.scale - A.scale) ≤ MMAX
    · rw [if_pos hfit, if_neg (Nat.not_lt.mpr hfit)]
      rfl
    · rw [if_neg hfit, if_pos (Nat.lt_of_not_le hfit)]

/-- The closed form of an inexact quotient that fits at no scale (44_divmod.md R108). -/
theorem divClosedForm_inexact (hN : A.mant % B.mant ≠ 0) :
    (MMAX < quotientAt A B 0 ∧ divClosedForm A B = .error .overflow) ∨
      ∃ u, u ≤ 28 ∧ quotientAt A B u ≤ MMAX ∧
        (∀ j, u < j → j ≤ 28 → MMAX < quotientAt A B j) ∧
        divClosedForm A B =
          if roundedAtScale A B u ≤ MMAX then .ok (strippedQuotient A B u)
          else if u = 0 then .error .overflow
          else .ok (strippedQuotient A B (u - 1)) := by
  have hfit := largestFit_cases (A.mant * 10 ^ B.scale) (B.mant * 10 ^ A.scale) scaleMax
  simp only [numerator_mul_pow] at hfit
  rw [divClosedForm, if_neg hN]
  obtain ⟨hnone, hall⟩ | ⟨u, hu, hsome, hfit, hall⟩ := hfit
  · rw [hnone]
    exact .inl ⟨hall 0 (by decide), rfl⟩
  · rw [hsome]
    refine .inr ⟨u, hu, hfit, hall, ?_⟩
    simp only [divClosedAt, numerator_mul_pow]
    unfold strippedQuotient roundedAtScale
    split_ifs <;> rfl

/-- The closed form overflows when the quotient rounded to an integer exceeds MMAX (44_divmod.md R106, R108). -/
theorem divClosedForm_overflow (hN : A.mant % B.mant ≠ 0) (h : MMAX < roundedAtScale A B 0) :
    divClosedForm A B = .error .overflow := by
  obtain ⟨-, hform⟩ | ⟨u, -, hfit, -, hform⟩ := divClosedForm_inexact hN
  · exact hform
  have hover : MMAX < roundedAtScale A B u := h.trans_le (roundedAtScale_mono (Nat.zero_le u))
  rw [hform, if_neg (Nat.not_le.mpr hover), if_pos]
  by_contra hpos
  obtain ⟨v, rfl⟩ := Nat.exists_eq_succ_of_ne_zero hpos
  have hv := roundedAtScale_le_of_succ_fits hfit
  have hmono := roundedAtScale_mono (A := A) (B := B) (Nat.zero_le v)
  omega

/-- The closed form rounds at the last scale, or one digit lower on a carry (44_divmod.md R108). -/
theorem divClosedForm_of_lastScale {u : Nat} (hN : A.mant % B.mant ≠ 0) (h : LastScale A B u) :
    divClosedForm A B =
      if roundedAtScale A B u ≤ MMAX then .ok (strippedQuotient A B u)
      else if u = 0 then .error .overflow
      else .ok (strippedQuotient A B (u - 1)) := by
  obtain ⟨hnone, -⟩ | ⟨v, hv, hfit, hall, hform⟩ := divClosedForm_inexact hN
  · have hmono := quotientAt_mono (A := A) (B := B) (Nat.zero_le u)
    exact absurd h.fits (by omega)
  obtain hlt | rfl | hgt := lt_trichotomy u v
  · exact absurd hfit (Nat.not_le.mpr (h.not_fits hlt hv))
  · exact hform
  · exact absurd h.fits (Nat.not_le.mpr (hall u hgt h.le))

/-- Above a scale at which the quotient is exact, rounding only appends zeros, which strip off again (44_divmod.md R107, R108). -/
theorem divClosedForm_of_exact (hB : B.mant ≠ 0) {e u : Nat} (hN : A.mant % B.mant ≠ 0)
    (hu : A.scale + e = B.scale + u) (hr : A.mant * 10 ^ e % B.mant = 0) (hle : u ≤ 28)
    (hfit : quotientAt A B u ≤ MMAX) : divClosedForm A B = .ok (strippedQuotient A B u) := by
  obtain ⟨hnone, -⟩ | ⟨v, -, hvfit, hall, hform⟩ := divClosedForm_inexact hN
  · have hmono := quotientAt_mono (A := A) (B := B) (Nat.zero_le u)
    omega
  have huv : u ≤ v := by
    by_contra hlt
    exact absurd hfit (Nat.not_le.mpr (hall u (Nat.lt_of_not_le hlt) hle))
  obtain ⟨k, rfl⟩ := Nat.exists_eq_add_of_le huv
  have hv : A.scale + (e + k) = B.scale + (u + k) := by omega
  have hround := roundedAtScale_of_exact hB hv (mul_pow_mod_eq_zero_of_le hr (Nat.le_add_right e k))
  have hzeros : roundedAtScale A B (u + k) = roundedAtScale A B u * 10 ^ k := by
    rw [hround, roundedAtScale_of_exact hB hu hr, quotientAt_eq hv, quotientAt_eq hu,
      Nat.div_mul_right_comm (Nat.dvd_of_mod_eq_zero hr), Nat.mul_assoc, ← pow_add]
  rw [hform, if_pos (hround ▸ hvfit), strippedQuotient, hzeros, strip_mul_pow, strippedQuotient]

/-- With DIV_NORMALIZE true an extended quotient is stripped (44_divmod.md R107). -/
theorem divResult_extended {st : DivLoop} (h : st.extended = true) {u : Nat} (ht : st.t = u)
    (hq : st.q = roundedAtScale A B u) : divResult true A B st = strippedQuotient A B u := by
  rw [divResult, h, ht, hq]
  rfl

/-- With DIV_NORMALIZE true the loop leaves an inexact division with the closed form (44_divmod.md R108). -/
theorem divClosedForm_of_outcome (hB : B.mant ≠ 0) (hN : A.mant % B.mant ≠ 0) {st : DivLoop}
    (h : DivOutcome A B (.ok st)) : divClosedForm A B = .ok (divResult true A B st) := by
  cases h with
  | @exact i u _ h hu hle hfit =>
    obtain ⟨e, hi, he⟩ := exists_extension hu
    have hr := mul_pow_mod_eq_zero_of_le h.1 hi
    have hi0 : i ≠ 0 := by
      rintro rfl
      exact hN (by simpa [ExactAfter] using h.1)
    rw [divResult_extended (decide_eq_true hi0) rfl (roundedAtScale_of_exact hB he hr).symm,
      divClosedForm_of_exact hB hN he hr hle hfit]
  | rounded h hfit =>
    rw [divResult_extended rfl rfl rfl, divClosedForm_of_lastScale hN h, if_pos hfit]
  | carried h hcarry =>
    rw [divResult_extended rfl rfl rfl, divClosedForm_of_lastScale hN h,
      if_neg (Nat.not_le.mpr hcarry), if_neg (Nat.succ_ne_zero _), Nat.add_sub_cancel]

end ClosedForm

/-- Settles O33: an exact quotient is the closed form's at once, and an inexact one's last scale is the largest at which it fits. -/
theorem divisionEqualsItsClosedForm : Obligations.DivisionEqualsItsClosedForm := by
  intro s ha hb hB hnorm
  by_cases hN : s.opa.dec.mant % s.opb.dec.mant = 0
  · rw [exec_div_natural ha hb hB hN, divClosedForm_natural (dec_fits ha) hN]
    split_ifs <;> rfl
  · obtain ⟨hover, hexec⟩ | ⟨st, hst, hexec⟩ := exec_div_cases ha hb hB
    · rw [hexec, divClosedForm_overflow hN hover]
    · rw [hexec, divClosedForm_of_outcome hB hN hst, hnorm]

end Sys2Proof.Machine
end

section
/-! PROOFS. The statements of 45_round.md: the mode's row that decides the increment, the rounded value as the mode's neighbour, and the second rounding to the same scale. -/

namespace Sys2Proof.Machine

open Sys2Proof

/-! ## RoundCore and ROUND -/

section RoundCore

variable (A : Dec) (mode : RoundMode) (k : Nat)

/-- Whether RoundCore increments the quotient of a mantissa that loses digits (45_round.md R116). -/
def roundsUp : Bool :=
  roundUp mode A.sign (A.mant / 10 ^ (A.scale - k)) (A.mant % 10 ^ (A.scale - k))
    (10 ^ (A.scale - k) / 2)

theorem roundCore_sign : (roundCore A mode k).sign = A.sign := by
  unfold roundCore
  split <;> rfl

variable {A k}

theorem roundCore_of_le (h : A.scale ≤ k) : roundCore A mode k = A := if_pos h

theorem roundCore_of_lt (h : k < A.scale) :
    roundCore A mode k =
      { sign := A.sign, scale := k
        mant := A.mant / 10 ^ (A.scale - k) + (roundsUp A mode k).toNat } := by
  rw [Bool.toNat, Bool.cond_eq_ite]
  exact if_neg (Nat.not_le.mpr h)

theorem roundCore_scale : (roundCore A mode k).scale = min A.scale k := by
  obtain h | h := le_or_gt A.scale k
  · rw [roundCore_of_le mode h, min_eq_left h]
  · rw [roundCore_of_lt mode h, min_eq_right h.le]

end RoundCore

/-- ROUND of a valid operand never fails (45_round.md R120). -/
theorem exec_round {s : State} (h : s.opa.valid = true) (mode : RoundMode) (k : Nat) :
    exec (.round mode k) s = .next { s with
      res := decResult (roundCore s.opa.dec mode k), err := 0#3 } :=
  exec_of_perform_ok (by rw [perform, onDec, readDec_valid h])

theorem exec_round_result {s t : State} {mode : RoundMode} {k : Nat} (h : s.opa.valid = true)
    (ht : exec (.round mode k) s = .next t) :
    t.err = 0#3 ∧ t.res = decResult (roundCore s.opa.dec mode k) := by
  rw [exec_round h] at ht
  cases ht
  exact ⟨rfl, rfl⟩

/-! ## The mode table -/

/-- A power of ten that drops a digit is even, so half of it is exact (45_round.md R115). -/
theorem ten_pow_even {n : Nat} (h : 0 < n) : 10 ^ n % 2 = 0 :=
  Nat.mod_eq_zero_of_dvd (dvd_pow (by decide : 2 ∣ 10) h.ne')

section ModeTable

variable {A : Dec} {k : Nat}

/-- The row of ToEven, in units of half the divisor (45_round.md R116). -/
theorem roundsUp_rne (h : k < A.scale) :
    roundsUp A .rne k = true ↔
      10 ^ (A.scale - k) < 2 * (A.mant % 10 ^ (A.scale - k)) ∨
        (2 * (A.mant % 10 ^ (A.scale - k)) = 10 ^ (A.scale - k) ∧
          A.mant / 10 ^ (A.scale - k) % 2 = 1) := by
  have heven := ten_pow_even (Nat.sub_pos_of_lt h)
  rw [roundsUp, roundUp, decide_eq_true_iff]
  omega

/-- The row of AwayFromZero, in units of half the divisor (45_round.md R116). -/
theorem roundsUp_away (h : k < A.scale) :
    roundsUp A .away k = true ↔ 10 ^ (A.scale - k) ≤ 2 * (A.mant % 10 ^ (A.scale - k)) := by
  have heven := ten_pow_even (Nat.sub_pos_of_lt h)
  rw [roundsUp, roundUp, decide_eq_true_iff]
  omega

theorem roundsUp_trunc : roundsUp A .trunc k = true ↔ False := Bool.false_eq_true.to_iff

theorem roundsUp_floor :
    roundsUp A .floor k = true ↔ 0 < A.mant % 10 ^ (A.scale - k) ∧ A.sign = true := by
  rw [roundsUp, roundUp, Bool.and_eq_true, decide_eq_true_iff]

theorem roundsUp_ceil :
    roundsUp A .ceil k = true ↔ 0 < A.mant % 10 ^ (A.scale - k) ∧ A.sign = false := by
  rw [roundsUp, roundUp, Bool.and_eq_true, decide_eq_true_iff, Bool.not_eq_true']

/-- An exact quotient is not incremented in any mode (45_round.md R116). -/
theorem remainder_pos_of_roundsUp {mode : RoundMode} (h : k < A.scale)
    (hup : roundsUp A mode k = true) : 0 < A.mant % 10 ^ (A.scale - k) := by
  have hp : 0 < 10 ^ (A.scale - k) := by positivity
  cases mode with
  | rne =>
    rw [roundsUp_rne h] at hup
    omega
  | away =>
    rw [roundsUp_away h] at hup
    omega
  | trunc => exact (roundsUp_trunc.mp hup).elim
  | floor => exact (roundsUp_floor.mp hup).1
  | ceil => exact (roundsUp_ceil.mp hup).1

end ModeTable

/-- Settles O38: an operand that keeps its scale is packed back to its own words, and the increment of the others is the mode's row. -/
theorem roundFollowsTheModeTable : Obligations.RoundFollowsTheModeTable := by
  refine fun s mode k ha _ => ⟨fun hle => ?_, fun hlt => ?_⟩
  · rw [exec_round ha, roundCore_of_le mode hle, decResult_dec ha]
  · refine ⟨(roundsUp s.opa.dec mode k).toNat, Bool.toNat_le _, ?_, ?_⟩
    · rw [Bool.toNat_eq_one]
      cases mode with
      | rne => exact roundsUp_rne hlt
      | away => exact roundsUp_away hlt
      | trunc => exact roundsUp_trunc
      | floor => exact roundsUp_floor
      | ceil => exact roundsUp_ceil
    · rw [exec_round ha, roundCore_of_lt mode hlt]

/-! ## What rounding adds to the magnitude -/

section Gap

variable (A : Dec) (mode : RoundMode) (k : Nat)

/-- What rounding adds to the magnitude, in units of the operand's scale (45_round.md R115). -/
def roundGap : Int :=
  ((roundCore A mode k).mant * 10 ^ (A.scale - (roundCore A mode k).scale) : Nat) - (A.mant : Int)

/-- The gap is 0 at a kept scale; below it, it gives up the remainder or fills it up to a whole unit (45_round.md R115, R117). -/
theorem roundGap_cases :
    roundGap A mode k = 0 ∨ k < A.scale ∧
      (¬ roundsUp A mode k = true ∧ roundGap A mode k = -(A.mant % 10 ^ (A.scale - k) : Nat) ∧
          (roundCore A mode k).mant = A.mant / 10 ^ (A.scale - k) ∨
        roundsUp A mode k = true ∧
          roundGap A mode k = (10 ^ (A.scale - k) : Nat) - (A.mant % 10 ^ (A.scale - k) : Nat) ∧
          (roundCore A mode k).mant = A.mant / 10 ^ (A.scale - k) + 1) := by
  obtain h | h := le_or_gt A.scale k
  · left
    simp [roundGap, roundCore_of_le mode h]
  · refine .inr ⟨h, ?_⟩
    have hn := Nat.div_add_mod' A.mant (10 ^ (A.scale - k))
    rw [roundGap, roundCore_of_lt mode h]
    cases roundsUp A mode k with
    | false =>
      refine .inl ⟨Bool.false_ne_true, ?_, rfl⟩
      simp only [Bool.toNat_false, Nat.add_zero]
      omega
    | true =>
      refine .inr ⟨rfl, ?_, rfl⟩
      simp only [Bool.toNat_true, Nat.succ_mul]
      omega

/-- Rounding moves a magnitude by less than a unit of the target scale (45_round.md R121 (b)). -/
theorem natAbs_roundGap_lt : (roundGap A mode k).natAbs < 10 ^ (A.scale - k) := by
  have hp : 0 < 10 ^ (A.scale - k) := by positivity
  have hr := Nat.mod_lt A.mant hp
  obtain h0 | ⟨h, ⟨-, hgap, -⟩ | ⟨hup, hgap, -⟩⟩ := roundGap_cases A mode k
  · omega
  · omega
  · have := remainder_pos_of_roundsUp h hup
    omega

/-- RNE moves a magnitude by at most half a unit, and by half a unit to an even mantissa alone (45_round.md R116). -/
theorem roundGap_rne :
    2 * (roundGap A .rne k).natAbs ≤ 10 ^ (A.scale - k) ∧
      (2 * (roundGap A .rne k).natAbs = 10 ^ (A.scale - k) →
        (roundCore A .rne k).mant % 2 = 0) := by
  have hp : 0 < 10 ^ (A.scale - k) := by positivity
  have hr := Nat.mod_lt A.mant hp
  obtain h0 | ⟨h, ⟨hup, hgap, hm⟩ | ⟨hup, hgap, hm⟩⟩ := roundGap_cases A .rne k
  · omega
  · rw [roundsUp_rne h] at hup
    omega
  · rw [roundsUp_rne h] at hup
    omega

/-- AWAY moves a magnitude by at most half a unit, and by half a unit upward alone (45_round.md R116). -/
theorem roundGap_away :
    2 * (roundGap A .away k).natAbs ≤ 10 ^ (A.scale - k) ∧
      (2 * (roundGap A .away k).natAbs = 10 ^ (A.scale - k) → 0 < roundGap A .away k) := by
  have hp : 0 < 10 ^ (A.scale - k) := by positivity
  have hr := Nat.mod_lt A.mant hp
  obtain h0 | ⟨h, ⟨hup, hgap, -⟩ | ⟨hup, hgap, -⟩⟩ := roundGap_cases A .away k
  · omega
  · rw [roundsUp_away h] at hup
    omega
  · rw [roundsUp_away h] at hup
    omega

theorem roundGap_trunc : roundGap A .trunc k ≤ 0 := by
  obtain h0 | ⟨-, ⟨-, hgap, -⟩ | ⟨hup, -⟩⟩ := roundGap_cases A .trunc k
  · omega
  · omega
  · exact (roundsUp_trunc.mp hup).elim

/-- FLOOR raises the magnitude of a negative decimal alone (45_round.md R116). -/
theorem roundGap_floor : if A.sign then 0 ≤ roundGap A .floor k else roundGap A .floor k ≤ 0 := by
  have hr := Nat.mod_lt A.mant (show 0 < 10 ^ (A.scale - k) by positivity)
  obtain h0 | ⟨-, ⟨hup, hgap, -⟩ | ⟨hup, hgap, -⟩⟩ := roundGap_cases A .floor k
  · simp [h0]
  · rw [roundsUp_floor, not_and] at hup
    split
    · next hs =>
      have hr0 : ¬ 0 < A.mant % 10 ^ (A.scale - k) := fun hpos => hup hpos hs
      omega
    · omega
  · rw [if_pos (roundsUp_floor.mp hup).2]
    omega

/-- CEIL raises the magnitude of a positive decimal alone (45_round.md R116). -/
theorem roundGap_ceil : if A.sign then roundGap A .ceil k ≤ 0 else 0 ≤ roundGap A .ceil k := by
  have hr := Nat.mod_lt A.mant (show 0 < 10 ^ (A.scale - k) by positivity)
  obtain h0 | ⟨-, ⟨hup, hgap, -⟩ | ⟨hup, hgap, -⟩⟩ := roundGap_cases A .ceil k
  · simp [h0]
  · rw [roundsUp_ceil, not_and] at hup
    split
    · omega
    · next hs =>
      have hr0 : ¬ 0 < A.mant % 10 ^ (A.scale - k) := fun hpos =>
        hup hpos (Bool.eq_false_of_not_eq_true hs)
      omega
  · rw [(roundsUp_ceil.mp hup).2, if_neg Bool.false_ne_true]
    omega

end Gap

/-! ## The rounded value -/

theorem Dec.abs_val (d : Dec) : |d.val| = d.mant / 10 ^ d.scale := by
  have h : (0 : ℚ) ≤ d.mant / 10 ^ d.scale := by positivity
  unfold Dec.val
  split
  · rw [neg_div, abs_neg, abs_of_nonneg h]
  · rw [abs_of_nonneg h]

/-- A value is its magnitude with its sign (00_scope.md R12). -/
theorem Dec.val_eq_abs (d : Dec) : d.val = if d.sign then -|d.val| else |d.val| := by
  rw [d.abs_val, Dec.val]
  split
  · rw [neg_div]
  · rfl

section RoundedValue

variable (A : Dec) (mode : RoundMode) (k : Nat)

/-- The gap is the difference of the two magnitudes (00_scope.md R12). -/
theorem abs_round_val_sub :
    |(roundCore A mode k).val| - |A.val| = roundGap A mode k / 10 ^ A.scale := by
  have hscale : (roundCore A mode k).scale ≤ A.scale :=
    (roundCore_scale mode).trans_le (min_le_left _ _)
  rw [Dec.abs_val, Dec.abs_val, roundGap]
  generalize roundCore A mode k = B at *
  obtain ⟨j, hj⟩ := Nat.exists_eq_add_of_le hscale
  rw [hj, Nat.add_sub_cancel_left, pow_add]
  push_cast
  field_simp

/-- The gap with the operand's sign is the difference of the two values (00_scope.md R12). -/
theorem round_val_sub :
    (roundCore A mode k).val - A.val =
      if A.sign then -(roundGap A mode k / 10 ^ A.scale : ℚ)
      else roundGap A mode k / 10 ^ A.scale := by
  rw [A.val_eq_abs, (roundCore A mode k).val_eq_abs, roundCore_sign, ← abs_round_val_sub]
  split
  · ring
  · rfl

/-- The values stand as the magnitudes do when the operand is positive, and the other way round when it is negative (00_scope.md R12). -/
theorem round_val_le_iff :
    (roundCore A mode k).val ≤ A.val ↔
      if A.sign then 0 ≤ roundGap A mode k else roundGap A mode k ≤ 0 := by
  have hpow : (0 : ℚ) < 10 ^ A.scale := by positivity
  rw [← sub_nonpos, round_val_sub]
  split
  · rw [neg_nonpos, le_div_iff₀ hpow, zero_mul, Int.cast_nonneg_iff]
  · rw [div_le_iff₀ hpow, zero_mul, Int.cast_nonpos]

theorem le_round_val_iff :
    A.val ≤ (roundCore A mode k).val ↔
      if A.sign then roundGap A mode k ≤ 0 else 0 ≤ roundGap A mode k := by
  have hpow : (0 : ℚ) < 10 ^ A.scale := by positivity
  rw [← sub_nonneg, round_val_sub]
  split
  · rw [neg_nonneg, div_le_iff₀ hpow, zero_mul, Int.cast_nonpos]
  · rw [le_div_iff₀ hpow, zero_mul, Int.cast_nonneg_iff]

theorem abs_round_val_le_iff : |(roundCore A mode k).val| ≤ |A.val| ↔ roundGap A mode k ≤ 0 := by
  rw [← sub_nonpos, abs_round_val_sub, div_le_iff₀ (by positivity), zero_mul, Int.cast_nonpos]

theorem abs_lt_round_val_iff : |A.val| < |(roundCore A mode k).val| ↔ 0 < roundGap A mode k := by
  rw [← not_le, abs_round_val_le_iff, not_le]

/-- The distance of the two values, in units of the target scale (45_round.md R121 (b)). -/
theorem abs_round_val_sub_val :
    |(roundCore A mode k).val - A.val| =
      (roundGap A mode k).natAbs / (10 ^ (A.scale - k) : Nat) / 10 ^ k := by
  have habs : |(roundCore A mode k).val - A.val| = (roundGap A mode k).natAbs / 10 ^ A.scale := by
    rw [round_val_sub, Nat.cast_natAbs, Int.cast_abs]
    split <;> simp [abs_div]
  rw [habs]
  obtain h0 | ⟨h, -⟩ := roundGap_cases A mode k
  · simp [h0]
  · rw [div_div, Nat.cast_pow, Nat.cast_ofNat, ← pow_add, Nat.sub_add_cancel h.le]

theorem abs_round_val_sub_val_lt : |(roundCore A mode k).val - A.val| < 1 / 10 ^ k := by
  rw [abs_round_val_sub_val, div_lt_div_iff_of_pos_right (by positivity),
    div_lt_one (by positivity)]
  exact_mod_cast natAbs_roundGap_lt A mode k

/-- Half a unit of the target scale, in units of the operand's (45_round.md R115). -/
theorem abs_round_val_sub_val_le_half_iff :
    |(roundCore A mode k).val - A.val| ≤ 1 / (2 * 10 ^ k) ↔
      2 * (roundGap A mode k).natAbs ≤ 10 ^ (A.scale - k) := by
  rw [abs_round_val_sub_val, ← div_div, div_le_div_iff_of_pos_right (by positivity),
    div_le_div_iff₀ (by positivity) two_pos]
  norm_cast
  rw [one_mul, Nat.mul_comm]

theorem abs_round_val_sub_val_eq_half_iff :
    |(roundCore A mode k).val - A.val| = 1 / (2 * 10 ^ k) ↔
      2 * (roundGap A mode k).natAbs = 10 ^ (A.scale - k) := by
  rw [abs_round_val_sub_val, ← div_div, div_left_inj' (by positivity),
    div_eq_div_iff (by positivity) two_ne_zero]
  norm_cast
  rw [one_mul, Nat.mul_comm]

end RoundedValue

/-- The words of a decimal result are those of Pack (00_scope.md R11). -/
theorem decResult_low (d : Dec) : (decResult d).low = pack d := rfl

/-- Settles O39: the gap of each mode, read as an order and a distance of the two values. -/
theorem roundedValuesAreTheModesNeighbours : Obligations.RoundedValuesAreTheModesNeighbours := by
  intro s t mode k ha _ ht
  obtain ⟨herr, hres⟩ := exec_round_result ha ht
  have hfits := roundCore_fits (dec_fits ha) mode k
  simp only [hres, decResult_low, dec_pack hfits]
  refine ⟨herr, pack_valid hfits, rfl, roundCore_scale mode, roundCore_sign _ _ _,
    abs_round_val_sub_val_lt _ _ _, ?_⟩
  cases mode with
  | rne =>
    rw [abs_round_val_sub_val_le_half_iff, abs_round_val_sub_val_eq_half_iff]
    exact roundGap_rne _ _
  | away =>
    rw [abs_round_val_sub_val_le_half_iff, abs_round_val_sub_val_eq_half_iff,
      abs_lt_round_val_iff]
    exact roundGap_away _ _
  | trunc => exact (abs_round_val_le_iff _ _ _).mpr (roundGap_trunc _ _)
  | floor => exact (round_val_le_iff _ _ _).mpr (roundGap_floor _ _)
  | ceil => exact (le_round_val_iff _ _ _).mpr (roundGap_ceil _ _)

/-! ## Rounding again -/

/-- A rounded decimal has a scale that the same target keeps (45_round.md R117). -/
theorem roundCore_roundCore (A : Dec) (mode mode' : RoundMode) (k : Nat) :
    roundCore (roundCore A mode k) mode' k = roundCore A mode k :=
  roundCore_of_le mode' ((roundCore_scale mode).trans_le (min_le_right _ _))

/-- Settles O40: the second operand is the packed first result, which the second rounding keeps. -/
theorem roundingTwiceIsRoundingOnce : Obligations.RoundingTwiceIsRoundingOnce := by
  intro s t u mode mode' k ha _ ht hu
  obtain ⟨-, hres⟩ := exec_round_result ha ht
  have hfits := roundCore_fits (dec_fits ha) mode k
  have hlow : t.res.low = pack (roundCore s.opa.dec mode k) := congrArg Octo.low hres
  have hvalid : t.res.low.valid = true := hlow ▸ pack_valid hfits
  obtain ⟨herr, hres'⟩ := exec_round_result (s := { t with opa := t.res.low }) hvalid hu
  refine ⟨herr, ?_⟩
  rw [hres', hlow, dec_pack hfits, roundCore_roundCore, hres]

end Sys2Proof.Machine
end

section
/-! PROOFS. The statements of 46_compare.md: CMP orders the exact values, NORM strips the zeros its scale can drop, and its words are canonical. -/

namespace Sys2Proof.Machine

open Sys2Proof

/-! ## The order of the exact values -/

section Order

variable (A B : Dec)

/-- Brought to the denominator 10^(a+b), a signed mantissa is its value in units of that scale (46_compare.md R122). -/
theorem Dec.signedAt_scale :
    (A.signedAt B.scale : ℚ) = A.val * 10 ^ (A.scale + B.scale) := by
  simpa using A.signedAt_eq_val (Nat.le_add_right A.scale B.scale)

theorem signedAt_lt_iff : A.signedAt B.scale < B.signedAt A.scale ↔ A.val < B.val := by
  rw [← Int.cast_lt (R := ℚ), A.signedAt_scale, B.signedAt_scale, Nat.add_comm B.scale]
  exact mul_lt_mul_iff_of_pos_right (by positivity)

theorem signedAt_eq_iff : A.signedAt B.scale = B.signedAt A.scale ↔ A.val = B.val := by
  rw [← Int.cast_inj (α := ℚ), A.signedAt_scale, B.signedAt_scale, Nat.add_comm B.scale]
  exact mul_left_inj' (by positivity)

/-- CmpCore orders the exact values (46_compare.md R122). -/
theorem cmpCore_eq_val :
    cmpCore A B = if A.val < B.val then -1 else if A.val = B.val then 0 else 1 := by
  simp only [cmpCore, signedAt_lt_iff, signedAt_eq_iff]

end Order

/-- CMP of valid operands writes the ordering alone (46_compare.md R124). -/
theorem exec_cmp {s : State} (ha : s.opa.valid = true) (hb : s.opb.valid = true) :
    exec .cmp s = .next { s with
      res := resWords [orderingWord (cmpCore s.opa.dec s.opb.dec)], err := 0#3 } :=
  exec_of_perform_ok (onDecs_valid _ ha hb)

/-- Settles O41: the integers CmpCore compares stand as the two values do. -/
theorem compareOrdersTheExactValues : Obligations.CompareOrdersTheExactValues := by
  refine ⟨by decide, fun s => ⟨fun ha hb => ⟨_, exec_cmp ha hb, ?_⟩, fun h => ?_⟩⟩
  · rw [cmpCore_eq_val]
    refine ⟨fun hlt => ?_, fun heq => ?_, fun hgt => ?_⟩
    · rw [if_pos hlt]
      rfl
    · rw [if_neg heq.not_lt, if_pos heq]
      rfl
    · rw [if_neg hgt.not_gt, if_neg hgt.ne']
      rfl
  · exact exec_of_perform_error (e := .invalidRepresentation) (onDecs_invalid _ h)

/-! ## Normalization -/

section Normalization

variable (A : Dec)

theorem normCore_scale_le : (normCore A).scale ≤ A.scale := (strip_spec A.mant A.scale).1

/-- NORM gives up a factor of ten for each scale it drops (46_compare.md R125). -/
theorem normCore_mant : (normCore A).mant * 10 ^ (A.scale - (normCore A).scale) = A.mant :=
  (strip_spec A.mant A.scale).2.1.symm

theorem normCore_stripped : (normCore A).stripped := (strip_spec A.mant A.scale).2.2

variable {A}

/-- Every zero has one canonical encoding (46_compare.md R125). -/
theorem normCore_of_zero (h : A.mant = 0) : normCore A = ⟨false, 0, 0⟩ := by
  simp only [normCore, h, strip_of_zero, if_true]

theorem normCore_sign (h : A.mant ≠ 0) : (normCore A).sign = A.sign := by
  have hm : (normCore A).mant ≠ 0 := fun h0 => h (by rw [← normCore_mant A, h0, Nat.zero_mul])
  exact if_neg hm

end Normalization

/-- NORM keeps the value (46_compare.md R125). -/
theorem normCore_val (A : Dec) : (normCore A).val = A.val := by
  by_cases h : A.mant = 0
  · simp [normCore_of_zero h, Dec.val, h]
  have hsigned : (normCore A).signedAt (A.scale - (normCore A).scale) =
      A.signedAt (A.scale - A.scale) := by
    rw [Dec.signedAt, Dec.signedAt, normCore_sign h, normCore_mant, Nat.sub_self, pow_zero,
      Nat.mul_one]
  have hpow : (10 : ℚ) ^ A.scale ≠ 0 := by positivity
  refine mul_right_cancel₀ hpow ?_
  rw [← Dec.signedAt_eq_val _ (normCore_scale_le A), ← Dec.signedAt_eq_val _ le_rfl, hsigned]

/-- NORM of a valid operand never fails (46_compare.md R125). -/
theorem exec_norm {s : State} (h : s.opa.valid = true) :
    exec .norm s = .next { s with res := decResult (normCore s.opa.dec), err := 0#3 } :=
  exec_of_perform_ok (by rw [perform, onDec, readDec_valid h])

/-- Settles O42: Strip keeps the value and leaves no zero the scale could drop, and only a zero loses its sign. -/
theorem normStripsTrailingZeros : Obligations.NormStripsTrailingZeros := by
  refine ⟨by decide, fun s => ⟨fun ha => ?_, fun h => ?_⟩⟩
  · exact ⟨normCore s.opa.dec, exec_norm ha, normCore_val _, normCore_fits (dec_fits ha),
      normCore_scale_le _, normCore_of_zero, fun h0 => ⟨normCore_sign h0, normCore_stripped _⟩⟩
  · exact exec_of_perform_error (e := .invalidRepresentation) (onDec_invalid _ h)

/-! ## The canonical encoding -/

/-- The sign of a nonzero magnitude is that of the integer it stands for (00_scope.md R12). -/
theorem withSign_neg_iff (s : Bool) {m : Nat} (hm : m ≠ 0) : withSign s m < 0 ↔ s = true := by
  cases s with
  | false => simp [withSign]
  | true => simp [withSign, Nat.pos_of_ne_zero hm]

/-- Equal values are one mantissa with zeros appended, so they strip to one triple (46_compare.md R126). -/
theorem normCore_eq_of_val_eq {A B : Dec} (h : A.val = B.val) : normCore A = normCore B := by
  have hsigned : withSign A.sign (A.mant * 10 ^ B.scale) =
      withSign B.sign (B.mant * 10 ^ A.scale) :=
    (signedAt_eq_iff A B).mpr h
  have hmant : A.mant * 10 ^ B.scale = B.mant * 10 ^ A.scale := by
    simpa using congrArg Int.natAbs hsigned
  have hstrip : strip A.mant A.scale = strip B.mant B.scale := by
    rw [← strip_mul_pow A.mant A.scale B.scale, ← strip_mul_pow B.mant B.scale A.scale, hmant,
      Nat.add_comm]
  by_cases hA : A.mant = 0
  · have hB : B.mant = 0 := by simpa [hA] using hmant.symm
    rw [normCore_of_zero hA, normCore_of_zero hB]
  · have hscaled : A.mant * 10 ^ B.scale ≠ 0 := mul_ne_zero hA (by positivity)
    have hsign : A.sign = B.sign := by
      rw [Bool.eq_iff_iff, ← withSign_neg_iff A.sign hscaled, hsigned,
        withSign_neg_iff B.sign (hmant ▸ hscaled)]
    rw [normCore, normCore, hstrip, hsign]

/-- Two decimals have one value exactly when they normalize to one triple (46_compare.md R126). -/
theorem normCore_eq_iff {A B : Dec} : normCore A = normCore B ↔ A.val = B.val := by
  refine ⟨fun h => ?_, normCore_eq_of_val_eq⟩
  rw [← normCore_val A, ← normCore_val B, h]

/-- The result words tell apart the triples that fit (10_state.md R24). -/
theorem decResult_inj {d d' : Dec} (h : d.fits = true) (h' : d'.fits = true) :
    decResult d = decResult d' ↔ d = d' := by
  refine ⟨fun heq => ?_, congrArg decResult⟩
  rw [← dec_pack h, ← dec_pack h', ← decResult_low, heq, decResult_low]

/-- Settles O43: NORM's words are those of a triple that the value alone determines. -/
theorem normIsCanonical : Obligations.NormIsCanonical := by
  intro s s' t t' ha ha' ht ht'
  rw [exec_norm ha] at ht
  rw [exec_norm ha'] at ht'
  cases ht
  cases ht'
  rw [← normCore_eq_iff]
  exact decResult_inj (normCore_fits (dec_fits ha)) (normCore_fits (dec_fits ha'))

end Sys2Proof.Machine
end

section
/-! PROOFS. Rounding to a binary floating-point format (47_convert.md R127): the value of a pattern, and `FloatFormat.round` as the nearest pattern, a tie to the even one. -/

namespace Sys2Proof.Machine

open Sys2Proof

/-- An integer power as a quotient of two natural ones, as the model writes it. -/
theorem zpow_eq_div {b : ℚ} (hb : b ≠ 0) (k : ℤ) : b ^ k = b ^ k.toNat / b ^ (-k).toNat := by
  rw [← zpow_natCast, ← zpow_natCast, ← zpow_sub₀ hb, Int.toNat_sub_toNat_neg]

/-! ## Integers nearest to a rational -/

section NearestInteger

variable {q : ℚ} {m : Nat} (h : nearestEvenInt q m)

include h

theorem nearestEvenInt.le_of_le {b : Nat} (hb : (b : ℚ) ≤ q) : b ≤ m := by
  have hlt : (b : ℚ) < m + 1 := by linarith [(abs_le.mp h.1).1]
  exact Nat.lt_add_one_iff.mp (by exact_mod_cast hlt)

theorem nearestEvenInt.ge_of_ge {b : Nat} (hb : q ≤ b) : m ≤ b := by
  have hlt : (m : ℚ) < b + 1 := by linarith [(abs_le.mp h.1).2]
  exact Nat.lt_add_one_iff.mp (by exact_mod_cast hlt)

/-- No integer is nearer, and one as near is the same or loses the tie (40_primitives.md R61). -/
theorem nearestEvenInt.nearest (j : Nat) :
    |(m : ℚ) - q| ≤ |(j : ℚ) - q| ∧ (|(m : ℚ) - q| = |(j : ℚ) - q| → j = m ∨ m % 2 = 0) := by
  obtain ⟨hhalf, htie⟩ := h
  rcases eq_or_ne j m with rfl | hne
  · exact ⟨le_rfl, fun _ => .inl rfl⟩
  have hone : (1 : ℚ) ≤ |(j : ℚ) - m| := by
    exact_mod_cast Int.one_le_abs (sub_ne_zero.mpr (Int.ofNat_inj.not.mpr hne))
  have htri : |(j : ℚ) - m| ≤ |(j : ℚ) - q| + |(m : ℚ) - q| := by
    rw [abs_sub_comm (m : ℚ) q]
    exact abs_sub_le _ _ _
  exact ⟨by linarith, fun heq => .inr (htie (by linarith))⟩

end NearestInteger

/-! ## The nearer of two values -/

/-- A rational to which the larger of two values is as near lies above their midpoint. -/
theorem add_le_two_mul_of_nearer {a b q : ℚ} (hlt : b < a) (h : |a - q| ≤ |b - q|) :
    a + b ≤ 2 * q := by
  nlinarith [sq_le_sq.mpr h]

/-- A rational to which the smaller of two values is as near lies below their midpoint. -/
theorem two_mul_le_add_of_nearer {a b q : ℚ} (hlt : b < a) (h : |b - q| ≤ |a - q|) :
    2 * q ≤ a + b := by
  nlinarith [sq_le_sq.mpr h]

/-! ## The binary exponent -/

/-- `ilog2` is the exponent of a positive rational (47_convert.md R127). -/
theorem ilog2_spec {n d : Nat} (hn : 0 < n) (hd : 0 < d) :
    (2 : ℚ) ^ ilog2 n d ≤ n / d ∧ (n : ℚ) / d < 2 ^ (ilog2 n d + 1) := by
  have hd' : (0 : ℚ) < d := Nat.cast_pos.mpr hd
  have hn1 : (2 : ℚ) ^ (n.log2 : ℤ) ≤ n := by exact_mod_cast Nat.log2_self_le hn.ne'
  have hn2 : (n : ℚ) < 2 ^ ((n.log2 : ℤ) + 1) := by exact_mod_cast Nat.lt_log2_self
  have hd1 : (2 : ℚ) ^ (d.log2 : ℤ) ≤ d := by exact_mod_cast Nat.log2_self_le hd.ne'
  have hd2 : (d : ℚ) < 2 ^ ((d.log2 : ℤ) + 1) := by exact_mod_cast Nat.lt_log2_self
  have htest : d * 2 ^ ((n.log2 : ℤ) - d.log2).toNat ≤ n * 2 ^ (-((n.log2 : ℤ) - d.log2)).toNat ↔
      (2 : ℚ) ^ ((n.log2 : ℤ) - d.log2) ≤ n / d := by
    rw [zpow_eq_div two_ne_zero, div_le_div_iff₀ (by positivity) hd', mul_comm _ (d : ℚ)]
    exact_mod_cast Iff.rfl
  unfold ilog2
  simp only [htest]
  split_ifs with h
  · refine ⟨h, ?_⟩
    calc (n : ℚ) / d < 2 ^ ((n.log2 : ℤ) + 1) / 2 ^ (d.log2 : ℤ) := by gcongr
      _ = 2 ^ ((n.log2 : ℤ) - d.log2 + 1) := by rw [← zpow_sub₀ two_ne_zero]; congr 1; ring
  · refine ⟨?_, by rw [sub_add_cancel]; exact not_le.mp h⟩
    calc (2 : ℚ) ^ ((n.log2 : ℤ) - d.log2 - 1) = 2 ^ (n.log2 : ℤ) / 2 ^ ((d.log2 : ℤ) + 1) := by
          rw [← zpow_sub₀ two_ne_zero]; congr 1; ring
      _ ≤ n / d := by gcongr

namespace FloatFormat

/-- What the layouts of R127 have in common: a fraction and an exponent field of at least two bits. -/
def Regular (F : FloatFormat) : Prop := 0 < F.fracBits ∧ 2 ≤ F.expBits

variable {F : FloatFormat}

/-! ## The value of a pattern -/

theorem magnitude_den_pos (F : FloatFormat) (x : Nat) : 0 < (F.magnitude x).2 := by
  unfold magnitude
  positivity

theorem absValue_nonneg (F : FloatFormat) (x : Nat) : 0 ≤ F.absValue x := by
  unfold absValue
  positivity

theorem absValue_eq (F : FloatFormat) (x : Nat) :
    F.absValue x = F.significand x * 2 ^ F.ulpExp x := by
  rw [zpow_eq_div two_ne_zero, absValue, magnitude]
  push_cast
  ring

/-- The value of a pattern with given fields (47_convert.md R127). -/
theorem absValue_fields {e f : Nat} (he : e < 2 ^ F.expBits) (hf : f < 2 ^ F.fracBits) :
    F.absValue (e * 2 ^ F.fracBits + f) =
      ((if e = 0 then f else 2 ^ F.fracBits + f : Nat) : ℚ) * 2 ^ (F.minUlp + (e - 1 : Nat)) := by
  have hexp : F.expField (e * 2 ^ F.fracBits + f) = e := by
    rw [expField, Nat.mul_comm, Nat.mul_add_div (by positivity), Nat.div_eq_of_lt hf, Nat.add_zero,
      Nat.mod_eq_of_lt he]
  have hfrac : F.fracField (e * 2 ^ F.fracBits + f) = f := by
    rw [fracField, Nat.mul_add_mod', Nat.mod_eq_of_lt hf]
  rw [absValue_eq, significand, ulpExp, hexp, hfrac]

/-- A significand m and an exponent k above the least make a pattern, also when m has one bit more, which carries (47_convert.md R127). -/
theorem absValue_pattern {k m : Nat} (hm : k = 0 ∨ 2 ^ F.fracBits ≤ m)
    (hcarry : m ≤ 2 ^ (F.fracBits + 1))
    (hlt : k * 2 ^ F.fracBits + m < 2 ^ (F.fracBits + F.expBits)) :
    F.absValue (k * 2 ^ F.fracBits + m) = m * 2 ^ (F.minUlp + k) := by
  rw [pow_succ] at hcarry
  rw [pow_add, Nat.mul_comm (2 ^ F.fracBits)] at hlt
  have hpos : 0 < 2 ^ F.fracBits := by positivity
  have hexp : ∀ e f, k * 2 ^ F.fracBits + m = e * 2 ^ F.fracBits + f → e < 2 ^ F.expBits :=
    fun e f h => Nat.lt_of_mul_lt_mul_right (a := 2 ^ F.fracBits) (by omega)
  rcases Nat.lt_or_ge m (2 ^ F.fracBits) with hsub | hnormal
  · obtain rfl : k = 0 := hm.resolve_right hsub.not_ge
    exact absValue_fields (e := 0) (by positivity) hsub
  obtain ⟨f, rfl⟩ := Nat.exists_eq_add_of_le hnormal
  rcases Nat.lt_or_ge f (2 ^ F.fracBits) with hf | hf
  · have hx : k * 2 ^ F.fracBits + (2 ^ F.fracBits + f) = (k + 1) * 2 ^ F.fracBits + f := by ring
    rw [hx, absValue_fields (hexp _ _ hx) hf, if_neg k.succ_ne_zero, Nat.add_sub_cancel]
  · obtain rfl : f = 2 ^ F.fracBits := by omega
    have hx : k * 2 ^ F.fracBits + (2 ^ F.fracBits + 2 ^ F.fracBits) =
        (k + 2) * 2 ^ F.fracBits + 0 := by ring
    have hulp : F.minUlp + ((k + 2 - 1 : Nat) : Int) = F.minUlp + k + 1 := by omega
    rw [hx, absValue_fields (hexp _ _ hx) hpos, if_neg (by omega), hulp, zpow_add_one₀ two_ne_zero]
    push_cast
    ring

/-- Every pattern has a significand and an exponent above the least (47_convert.md R127). -/
theorem exists_pattern (F : FloatFormat) (x : Nat) :
    ∃ k m, x = k * 2 ^ F.fracBits + m ∧ (k = 0 ∨ 2 ^ F.fracBits ≤ m) ∧
      m < 2 ^ (F.fracBits + 1) := by
  rw [pow_succ]
  have hdiv := Nat.div_add_mod' x (2 ^ F.fracBits)
  have hmod : x % 2 ^ F.fracBits < 2 ^ F.fracBits := Nat.mod_lt _ (by positivity)
  cases h : x / 2 ^ F.fracBits with
  | zero =>
    rw [h] at hdiv
    exact ⟨0, x % 2 ^ F.fracBits, hdiv.symm, .inl rfl, by omega⟩
  | succ k =>
    rw [h, Nat.succ_mul] at hdiv
    exact ⟨k, 2 ^ F.fracBits + x % 2 ^ F.fracBits, by omega, .inr (by omega), by omega⟩

/-- The next pattern has a significand one larger at the same exponent, or carries (47_convert.md R127). -/
theorem absValue_lt_succ {x : Nat} (hx : x + 1 < 2 ^ (F.fracBits + F.expBits)) :
    F.absValue x < F.absValue (x + 1) := by
  obtain ⟨k, m, rfl, hm, hlt⟩ := F.exists_pattern x
  rw [Nat.add_assoc] at hx ⊢
  rw [absValue_pattern hm hlt.le (by omega), absValue_pattern (hm.imp_right (by omega)) hlt hx]
  gcongr
  omega

/-- Patterns are in the order of their values (47_convert.md R127). -/
theorem absValue_lt {x y : Nat} (hxy : x < y) (hy : y < 2 ^ (F.fracBits + F.expBits)) :
    F.absValue x < F.absValue y := by
  induction y, hxy using Nat.le_induction with
  | base => exact absValue_lt_succ hy
  | succ z _ ih => exact (ih (by omega)).trans (absValue_lt_succ hy)

/-- The finite patterns are those below the infinity (47_convert.md R127). -/
theorem finitePattern_iff {x : Nat} :
    F.finitePattern x ↔ x < (2 ^ F.expBits - 1) * 2 ^ F.fracBits := by
  have hfields : x < 2 ^ (F.fracBits + F.expBits) ↔ x / 2 ^ F.fracBits < 2 ^ F.expBits := by
    rw [Nat.div_lt_iff_lt_mul (by positivity), pow_add, Nat.mul_comm]
  rw [finitePattern, isSpecial, expField, hfields, ← Nat.div_lt_iff_lt_mul (by positivity),
    decide_eq_false_iff_not]
  have hpos := Nat.two_pow_pos F.expBits
  refine ⟨fun ⟨hlt, hne⟩ => ?_, fun hlt => ⟨by omega, ?_⟩⟩
  · rw [Nat.mod_eq_of_lt hlt] at hne
    omega
  · rw [Nat.mod_eq_of_lt (by omega)]
    omega

theorem finitePattern.of_le {x y : Nat} (hy : F.finitePattern y) (hxy : x ≤ y) :
    F.finitePattern x :=
  finitePattern_iff.mpr (hxy.trans_lt (finitePattern_iff.mp hy))

theorem finitePattern.absValue_le {x y : Nat} (hy : F.finitePattern y) (hxy : x ≤ y) :
    F.absValue x ≤ F.absValue y := by
  rcases Nat.eq_or_lt_of_le hxy with rfl | hlt
  · exact le_rfl
  · exact (absValue_lt hlt hy.1).le

theorem finitePattern.absValue_inj {x y : Nat} (hx : F.finitePattern x) (hy : F.finitePattern y)
    (h : F.absValue x = F.absValue y) : x = y := by
  rcases Nat.lt_trichotomy x y with hlt | heq | hgt
  · exact absurd h (absValue_lt hlt hy.1).ne
  · exact heq
  · exact absurd h (absValue_lt hgt hx.1).ne'

/-! ## The nearest pattern -/

theorem nearestEven.lt {q : ℚ} {x : Nat} (h : F.nearestEven q x) :
    x < 2 ^ (F.fracBits + F.expBits) := by
  obtain ⟨⟨hlt, -⟩, -⟩ := h
  exact hlt

/-- A value of the format bounds what rounds to nearest from above (47_convert.md R127). -/
theorem nearestEven.absValue_le {q : ℚ} {x y : Nat} (h : F.nearestEven q x) (hy : F.finitePattern y)
    (hq : q ≤ F.absValue y) : F.absValue x ≤ F.absValue y := by
  have hnear := (h.2 y hy).1
  rw [abs_of_nonneg (sub_nonneg.mpr hq)] at hnear
  linarith [le_abs_self (F.absValue x - q)]

/-- A value of the format bounds what rounds to nearest from below (47_convert.md R127). -/
theorem nearestEven.le_absValue {q : ℚ} {x y : Nat} (h : F.nearestEven q x) (hy : F.finitePattern y)
    (hq : F.absValue y ≤ q) : F.absValue y ≤ F.absValue x := by
  have hnear := (h.2 y hy).1
  rw [abs_of_nonpos (sub_nonpos.mpr hq)] at hnear
  linarith [neg_abs_le (F.absValue x - q)]

/-- Rounding to nearest even is monotonic (47_convert.md R137 (c)). -/
theorem nearestEven.mono {q q' : ℚ} {x x' : Nat} (h : F.nearestEven q x) (h' : F.nearestEven q' x')
    (hq : q ≤ q') : x ≤ x' := by
  by_contra hlt
  rw [not_le] at hlt
  obtain ⟨hx, hnear⟩ := h
  obtain ⟨hx', hnear'⟩ := h'
  have hlo := add_le_two_mul_of_nearer (absValue_lt hlt hx.1) (hnear x' hx').1
  have hhi := two_mul_le_add_of_nearer (absValue_lt hlt hx.1) (hnear' x hx).1
  rcases Nat.eq_or_lt_of_le (Nat.succ_le_of_lt hlt) with hadj | hgap
  · have heq : |F.absValue x - q| = |F.absValue x' - q| := by
      rw [show F.absValue x - q = -(F.absValue x' - q) by linarith, abs_neg]
    have heq' : |F.absValue x' - q'| = |F.absValue x - q'| := by
      rwa [show q' = q by linarith, eq_comm]
    have heven := ((hnear x' hx').2 heq).resolve_left hlt.ne
    have heven' := ((hnear' x hx).2 heq').resolve_left hlt.ne'
    omega
  · have hnext := add_le_two_mul_of_nearer (absValue_lt hgap hx.1) (hnear _ (hx.of_le hgap.le)).1
    have hstep := absValue_lt (Nat.lt_succ_self x') (hx.of_le hgap.le).1
    linarith

/-- Against a rational in the range of the exponent k a pattern is a multiple of that exponent's unit, or, having a smaller exponent, lies below the range and is farther than a multiple (47_convert.md R127). -/
theorem exists_multiple {k y : Nat} {q : ℚ} (hnormal : k = 0 ∨ (2 ^ F.fracBits : Nat) ≤ q)
    (hy : y < 2 ^ (F.fracBits + F.expBits)) :
    ∃ j : Nat, F.absValue y = j * 2 ^ (F.minUlp + k) ∨
      |(j : ℚ) * 2 ^ (F.minUlp + k) - q * 2 ^ (F.minUlp + k)| <
        |F.absValue y - q * 2 ^ (F.minUlp + k)| := by
  obtain ⟨k', m, rfl, hm, hlt⟩ := F.exists_pattern y
  have hval := absValue_pattern hm hlt.le hy
  rcases Nat.lt_or_ge k' k with hk | hk
  · have hq := hnormal.resolve_left (by omega)
    have hbelow : F.absValue (k' * 2 ^ F.fracBits + m) <
        (2 ^ F.fracBits : Nat) * 2 ^ (F.minUlp + k) :=
      calc F.absValue (k' * 2 ^ F.fracBits + m)
          < (2 ^ (F.fracBits + 1) : Nat) * 2 ^ (F.minUlp + k') := by rw [hval]; gcongr
        _ = (2 ^ F.fracBits : Nat) * 2 ^ (F.minUlp + k' + 1) := by
          rw [zpow_add_one₀ two_ne_zero, pow_succ]
          push_cast
          ring
        _ ≤ (2 ^ F.fracBits : Nat) * 2 ^ (F.minUlp + k) :=
          mul_le_mul_of_nonneg_left (zpow_le_zpow_right₀ one_le_two (by omega)) (by positivity)
    have habove : ((2 ^ F.fracBits : Nat) : ℚ) * 2 ^ (F.minUlp + k) ≤ q * 2 ^ (F.minUlp + k) := by
      gcongr
    refine ⟨2 ^ F.fracBits, .inr ?_⟩
    rw [abs_of_nonpos (by linarith), abs_of_nonpos (by linarith)]
    linarith
  · obtain ⟨i, rfl⟩ := Nat.exists_eq_add_of_le hk
    refine ⟨m * 2 ^ i, .inl ?_⟩
    rw [hval, Nat.cast_add, ← add_assoc, zpow_add₀ two_ne_zero, zpow_natCast]
    push_cast
    ring

/-- A rational in the range of the exponent k, or below it at the least one, rounds to the integer nearest in units of that exponent (47_convert.md R127). -/
theorem nearestEven_pattern (hF : F.Regular) {k m : Nat} {q : ℚ}
    (hnormal : k = 0 ∨ (2 ^ F.fracBits : Nat) ≤ q) (hm : nearestEvenInt q m)
    (hcarry : m ≤ 2 ^ (F.fracBits + 1)) (hfin : F.finitePattern (k * 2 ^ F.fracBits + m)) :
    F.nearestEven (q * 2 ^ (F.minUlp + k)) (k * 2 ^ F.fracBits + m) := by
  have hval := absValue_pattern (hnormal.imp_right hm.le_of_le) hcarry hfin.1
  have hunit : (0 : ℚ) < 2 ^ (F.minUlp + k) := by positivity
  have hdist : ∀ j : Nat, |(j : ℚ) * 2 ^ (F.minUlp + k) - q * 2 ^ (F.minUlp + k)| =
      |(j : ℚ) - q| * 2 ^ (F.minUlp + k) := fun j => by
    rw [← sub_mul, abs_mul, abs_of_pos hunit]
  refine ⟨hfin, fun y hy => ?_⟩
  obtain ⟨j, hj⟩ := exists_multiple hnormal hy.1
  obtain ⟨hle, htie⟩ := hm.nearest j
  have hle' := mul_le_mul_of_nonneg_right hle hunit.le
  rw [hval, hdist]
  rcases hj with heq | hfar
  · rw [heq, hdist]
    refine ⟨hle', fun h => ?_⟩
    rcases htie (mul_right_cancel₀ hunit.ne' h) with rfl | heven
    · exact .inl (hy.absValue_inj hfin (heq.trans hval.symm))
    · obtain ⟨c, hc⟩ := Nat.exists_eq_succ_of_ne_zero hF.1.ne'
      rw [hc, pow_succ, ← Nat.mul_assoc, Nat.mul_add_mod']
      exact .inr heven
  · rw [hdist] at hfar
    have hlt := hle'.trans_lt hfar
    exact ⟨hlt.le, fun h => absurd h hlt.ne⟩

/-! ## The model's rounding -/

section RoundExp

variable {n d : Nat} (hn : 0 < n) (hd : 0 < d)

include hn hd

/-- Unless it is the least one, the exponent leaves a full significand (47_convert.md R127). -/
theorem le_div_roundExp (h : F.roundExp n d ≠ F.minUlp) :
    ((2 ^ F.fracBits : Nat) : ℚ) ≤ n / d / 2 ^ F.roundExp n d := by
  have hexp : (F.fracBits : ℤ) + F.roundExp n d = ilog2 n d := by
    unfold roundExp at h ⊢
    omega
  rw [le_div_iff₀ (by positivity), Nat.cast_pow, Nat.cast_ofNat, ← zpow_natCast,
    ← zpow_add₀ two_ne_zero, hexp]
  exact (ilog2_spec hn hd).1

/-- The exponent leaves at most one bit above a full significand (47_convert.md R127). -/
theorem div_roundExp_le :
    (n : ℚ) / d / 2 ^ F.roundExp n d ≤ (2 ^ (F.fracBits + 1) : Nat) := by
  rw [div_le_iff₀ (by positivity), Nat.cast_pow, Nat.cast_ofNat, ← zpow_natCast,
    ← zpow_add₀ two_ne_zero]
  refine (ilog2_spec hn hd).2.le.trans (zpow_le_zpow_right₀ one_le_two ?_)
  unfold roundExp
  push_cast
  omega

/-- What `round` answers for a positive rational: the exponent above the least, at which the rational is in range, and the integer nearest in units of it (47_convert.md R127). -/
theorem round_spec (F : FloatFormat) :
    ∃ (k m : Nat) (q : ℚ), F.round n d = k * 2 ^ F.fracBits + m ∧
      (n : ℚ) / d = q * 2 ^ (F.minUlp + k) ∧ nearestEvenInt q m ∧
      (k = 0 ∨ (2 ^ F.fracBits : Nat) ≤ q) ∧ q ≤ (2 ^ (F.fracBits + 1) : Nat) := by
  obtain ⟨k, hk⟩ : ∃ k : Nat, F.roundExp n d = F.minUlp + k :=
    ⟨(F.roundExp n d - F.minUlp).toNat, by unfold roundExp; omega⟩
  have hround : F.round n d = (F.roundExp n d - F.minUlp).toNat * 2 ^ F.fracBits +
      rne (n * 2 ^ (-F.roundExp n d).toNat) (d * 2 ^ (F.roundExp n d).toNat) := if_neg hn.ne'
  have hnear := rne_nearest (n * 2 ^ (-F.roundExp n d).toNat)
    (d := d * 2 ^ (F.roundExp n d).toNat) (by positivity)
  have hq : ((n * 2 ^ (-F.roundExp n d).toNat : Nat) : ℚ) / (d * 2 ^ (F.roundExp n d).toNat : Nat) =
      n / d / 2 ^ F.roundExp n d := by
    rw [zpow_eq_div two_ne_zero]
    push_cast
    field_simp
  have hk' : (F.roundExp n d - F.minUlp).toNat = k := by omega
  rw [hk'] at hround
  refine ⟨k, _, _, hround, ?_, hq ▸ hnear, ?_, div_roundExp_le hn hd⟩
  · rw [← hk, div_mul_cancel₀ _ (by positivity)]
  · exact or_iff_not_imp_left.mpr fun h0 => le_div_roundExp hn hd (by omega)

end RoundExp

theorem Regular.two_pow_expBits (hF : F.Regular) : 2 ^ F.expBits = 2 * F.bias + 2 ∧ 0 < F.bias := by
  obtain ⟨c, hc⟩ := Nat.exists_eq_add_of_le hF.2
  have hpos := Nat.two_pow_pos c
  rw [bias, hc, show 2 + c - 1 = c + 1 by omega, Nat.add_comm 2 c, pow_succ, pow_succ]
  omega

@[simp] theorem absValue_zero (F : FloatFormat) : F.absValue 0 = 0 := by
  simp [absValue_eq, significand, expField, fracField]

/-- Zero rounds to the zero pattern, whose significand is even (47_convert.md R127). -/
theorem nearestEven_zero (hF : F.Regular) : F.nearestEven 0 0 := by
  have hexp := hF.two_pow_expBits
  refine ⟨finitePattern_iff.mpr (Nat.mul_pos (by omega) (by positivity)), fun y _ => ?_⟩
  rw [absValue_zero, sub_zero, abs_zero]
  exact ⟨abs_nonneg _, fun _ => .inr rfl⟩

/-- A value below 2^bias rounds to a finite pattern (47_convert.md R127). -/
theorem finitePattern_of_lt (hF : F.Regular) {k m : Nat} {q : ℚ}
    (hnormal : k = 0 ∨ (2 ^ F.fracBits : Nat) ≤ q) (hcarry : m ≤ 2 ^ (F.fracBits + 1))
    (hlt : q * 2 ^ (F.minUlp + k) < 2 ^ F.bias) : F.finitePattern (k * 2 ^ F.fracBits + m) := by
  obtain ⟨hexp, hbias⟩ := hF.two_pow_expBits
  have hk : k + 2 < 2 ^ F.expBits - 1 := by
    rcases hnormal with rfl | hq
    · omega
    · have hpow : (2 : ℚ) ^ ((F.fracBits : ℤ) + (F.minUlp + k)) < 2 ^ (F.bias : ℤ) :=
        calc (2 : ℚ) ^ ((F.fracBits : ℤ) + (F.minUlp + k))
            = (2 ^ F.fracBits : Nat) * 2 ^ (F.minUlp + k) := by
              rw [zpow_add₀ two_ne_zero, zpow_natCast, Nat.cast_pow, Nat.cast_ofNat]
          _ ≤ q * 2 ^ (F.minUlp + k) := by gcongr
          _ < 2 ^ (F.bias : ℤ) := by exact_mod_cast hlt
      have := (zpow_lt_zpow_iff_right₀ one_lt_two).mp hpow
      unfold minUlp at this
      omega
  rw [finitePattern_iff]
  calc k * 2 ^ F.fracBits + m ≤ (k + 2) * 2 ^ F.fracBits := by
        rw [pow_succ] at hcarry
        rw [Nat.add_mul]
        omega
    _ < (2 ^ F.expBits - 1) * 2 ^ F.fracBits := Nat.mul_lt_mul_of_pos_right hk (by positivity)

/-- The model's rounding is to the nearest pattern, for values far enough below the infinity (47_convert.md R127). -/
theorem round_nearestEven (hF : F.Regular) {n d : Nat} (hd : 0 < d)
    (hlt : (n : ℚ) / d < 2 ^ F.bias) :
    F.nearestEven ((n : ℚ) / d) (F.round n d) := by
  rcases Nat.eq_zero_or_pos n with rfl | hn
  · rw [Nat.cast_zero, zero_div]
    exact nearestEven_zero hF
  obtain ⟨k, m, q, hround, hq, hm, hnormal, hcarry⟩ := round_spec hn hd F
  rw [hround, hq]
  have hm' := hm.ge_of_ge hcarry
  exact nearestEven_pattern hF hnormal hm hm' (finitePattern_of_lt hF hnormal hm' (hq ▸ hlt))

end FloatFormat
end Sys2Proof.Machine
end

section
/-! PROOFS. The statements of 47_convert.md on decimal to floating point: each step of TOF64 and TOF32 rounds to nearest, and TOF64 is monotonic at one scale. -/

namespace Sys2Proof.Machine

open Sys2Proof

/-! ## The bounds of the steps -/

/-- The patterns of 1, 2^64 and 2^96, which bound the steps of ToDouble (47_convert.md R128, R129). -/
theorem binary64_bounds :
    (binary64.finitePattern 0x3FF0000000000000 ∧ binary64.absValue 0x3FF0000000000000 = 1) ∧
      (binary64.finitePattern 0x43F0000000000000 ∧ binary64.absValue 0x43F0000000000000 = 2 ^ 64) ∧
      binary64.finitePattern 0x45F0000000000000 ∧
      binary64.absValue 0x45F0000000000000 = 2 ^ 96 := by
  simp only [FloatFormat.finitePattern, FloatFormat.absValue,
    show binary64.magnitude 0x3FF0000000000000 = (2 ^ 52, 2 ^ 52) by rfl,
    show binary64.magnitude 0x43F0000000000000 = (2 ^ 64, 1) by rfl,
    show binary64.magnitude 0x45F0000000000000 = (2 ^ 96, 1) by rfl]
  refine ⟨⟨by decide, by norm_num⟩, ⟨by decide, by norm_num⟩, ⟨by decide, by norm_num⟩⟩

/-- "Neither RNE64 nor RNE32 overflows": every step rounds a rational of at most 2^96 (47_convert.md R127). -/
theorem round_step {F : FloatFormat} (hF : F.Regular ∧ 96 < F.bias) {n d : Nat} (hd : 0 < d)
    (h : (n : ℚ) / d ≤ 2 ^ 96) : F.nearestEven ((n : ℚ) / d) (F.round n d) :=
  FloatFormat.round_nearestEven hF.1 hd (h.trans_lt (pow_lt_pow_right₀ one_lt_two hF.2))

theorem binary64_step : binary64.Regular ∧ 96 < binary64.bias := by
  unfold FloatFormat.Regular
  decide

theorem binary32_step : binary32.Regular ∧ 96 < binary32.bias := by
  unfold FloatFormat.Regular
  decide

/-- An integer of at most 2^96 is rounded to the nearest binary64 (47_convert.md R127). -/
theorem binary64_round_nat {n : Nat} (h : n ≤ 2 ^ 96) :
    binary64.nearestEven (n : ℚ) (binary64.round n 1) := by
  have hround := round_step binary64_step (n := n) (d := 1) one_pos
  rw [Nat.cast_one, div_one] at hround
  exact hround (by exact_mod_cast h)

/-! ## The steps of ToDouble -/

/-- `f1` of ToDouble, as a binary64 pattern (47_convert.md R128). -/
def lowDouble (m : Nat) : Nat := binary64.round (m % 2 ^ 64) 1

/-- `p` of ToDouble, as a binary64 pattern (47_convert.md R128). -/
def scaleDouble (e : Nat) : Nat := binary64.round (10 ^ e) 1

/-- The sum that `f3` of ToDouble rounds (47_convert.md R128). -/
def mantissaSum (m : Nat) : ℚ := binary64.absValue (lowDouble m) + (m / 2 ^ 64 * 2 ^ 64 : Nat)

section Steps

variable {m : Nat}

theorem lowDouble_nearest (m : Nat) : binary64.nearestEven ((m % 2 ^ 64 : Nat) : ℚ) (lowDouble m) :=
  binary64_round_nat (by omega)

theorem lowDouble_le (m : Nat) : binary64.absValue (lowDouble m) ≤ 2 ^ 64 := by
  obtain ⟨-, ⟨hfin, hval⟩, -⟩ := binary64_bounds
  have hlt : m % 2 ^ 64 ≤ 2 ^ 64 := by omega
  rw [← hval]
  exact (lowDouble_nearest m).absValue_le hfin (by rw [hval]; exact_mod_cast hlt)

theorem mantissaSum_le (hm : m < 2 ^ 96) : mantissaSum m ≤ 2 ^ 96 := by
  have hhigh : ((m / 2 ^ 64 * 2 ^ 64 : Nat) : ℚ) + 2 ^ 64 ≤ 2 ^ 96 := by
    have : m / 2 ^ 64 * 2 ^ 64 + 2 ^ 64 ≤ 2 ^ 96 := by omega
    exact_mod_cast this
  unfold mantissaSum
  linarith [lowDouble_le m]

theorem mantissaSum_mono {m' : Nat} (h : m ≤ m') : mantissaSum m ≤ mantissaSum m' := by
  unfold mantissaSum
  rcases Nat.eq_or_lt_of_le (Nat.div_le_div_right (c := 2 ^ 64) h) with heq | hlt
  · have hlow : ((m % 2 ^ 64 : Nat) : ℚ) ≤ (m' % 2 ^ 64 : Nat) := by
      have : m % 2 ^ 64 ≤ m' % 2 ^ 64 := by omega
      exact_mod_cast this
    have hround := (lowDouble_nearest m).mono (lowDouble_nearest m') hlow
    rw [heq]
    linarith [(lowDouble_nearest m').1.absValue_le hround]
  · have hhigh : ((m / 2 ^ 64 * 2 ^ 64 : Nat) : ℚ) + 2 ^ 64 ≤ (m' / 2 ^ 64 * 2 ^ 64 : Nat) := by
      have : m / 2 ^ 64 * 2 ^ 64 + 2 ^ 64 ≤ m' / 2 ^ 64 * 2 ^ 64 := by omega
      exact_mod_cast this
    linarith [lowDouble_le m, binary64.absValue_nonneg (lowDouble m')]

theorem mantissaDouble_nearest (hm : m < 2 ^ 96) :
    binary64.nearestEven (mantissaSum m) (mantissaDouble m) := by
  have hden := binary64.magnitude_den_pos (lowDouble m)
  have hsum : mantissaSum m =
      (((binary64.magnitude (lowDouble m)).1 +
        m / 2 ^ 64 * 2 ^ 64 * (binary64.magnitude (lowDouble m)).2 : Nat) : ℚ) /
        (binary64.magnitude (lowDouble m)).2 := by
    rw [mantissaSum, FloatFormat.absValue]
    push_cast
    field_simp
  have hle := mantissaSum_le hm
  rw [hsum] at hle ⊢
  exact round_step binary64_step hden hle

theorem mantissaDouble_le (hm : m < 2 ^ 96) : binary64.absValue (mantissaDouble m) ≤ 2 ^ 96 := by
  obtain ⟨-, -, hfin, hval⟩ := binary64_bounds
  rw [← hval]
  exact (mantissaDouble_nearest hm).absValue_le hfin (hval ▸ mantissaSum_le hm)

variable {e : Nat}

theorem scaleDouble_nearest (he : e ≤ 28) : binary64.nearestEven (10 ^ e) (scaleDouble e) := by
  have hround := binary64_round_nat (n := 10 ^ e) <|
    (Nat.pow_le_pow_right (by decide) he).trans (by decide : 10 ^ 28 ≤ 2 ^ 96)
  exact_mod_cast hround

theorem one_le_scaleDouble (he : e ≤ 28) : 1 ≤ binary64.absValue (scaleDouble e) := by
  obtain ⟨⟨hfin, hval⟩, -⟩ := binary64_bounds
  rw [← hval]
  exact (scaleDouble_nearest he).le_absValue hfin (hval ▸ one_le_pow₀ (by norm_num))

/-- The quotient that ToDouble rounds last is at most 2^96 (47_convert.md R127). -/
theorem quotient_le (he : e ≤ 28) (hm : m < 2 ^ 96) :
    binary64.absValue (mantissaDouble m) / binary64.absValue (scaleDouble e) ≤ 2 ^ 96 :=
  (div_le_self (binary64.absValue_nonneg _) (one_le_scaleDouble he)).trans (mantissaDouble_le hm)

theorem doubleMagnitude_nearest (he : e ≤ 28) (hm : m < 2 ^ 96) :
    binary64.nearestEven (binary64.absValue (mantissaDouble m) / binary64.absValue (scaleDouble e))
      (doubleMagnitude e m) := by
  have hquot : binary64.absValue (mantissaDouble m) / binary64.absValue (scaleDouble e) =
      (((binary64.magnitude (mantissaDouble m)).1 *
          (binary64.magnitude (scaleDouble e)).2 : Nat) : ℚ) /
        ((binary64.magnitude (mantissaDouble m)).2 *
          (binary64.magnitude (scaleDouble e)).1 : Nat) := by
    rw [FloatFormat.absValue, FloatFormat.absValue, div_div_div_eq]
    push_cast
    rfl
  have hp : (binary64.magnitude (scaleDouble e)).1 ≠ 0 := fun h0 => by
    have hone := one_le_scaleDouble he
    rw [FloatFormat.absValue, h0, Nat.cast_zero, zero_div] at hone
    exact absurd hone (by norm_num)
  have hle := quotient_le he hm
  rw [hquot] at hle ⊢
  have hden := Nat.mul_pos (binary64.magnitude_den_pos (mantissaDouble m)) (Nat.pos_of_ne_zero hp)
  exact round_step binary64_step hden hle

/-- `RNE32` of ToDouble's result (47_convert.md R130). -/
def singleMagnitude (e m : Nat) : Nat :=
  binary32.round (binary64.magnitude (doubleMagnitude e m)).1
    (binary64.magnitude (doubleMagnitude e m)).2

theorem toSingle_eq (d : Dec) :
    toSingle d = d.sign.toNat * 2 ^ 31 + singleMagnitude d.scale d.mant := rfl

theorem singleMagnitude_nearest (he : e ≤ 28) (hm : m < 2 ^ 96) :
    binary32.nearestEven (binary64.absValue (doubleMagnitude e m)) (singleMagnitude e m) := by
  obtain ⟨-, -, hfin, hval⟩ := binary64_bounds
  refine round_step binary32_step (binary64.magnitude_den_pos _) ?_
  exact ((doubleMagnitude_nearest he hm).absValue_le hfin (hval ▸ quotient_le he hm)).trans hval.le

end Steps

/-! ## The result words -/

/-- A command on one valid decimal operand applies its function (30_encoding.md R52). -/
theorem onDec_valid {opa : Quad} (f : Dec → Except ErrKind Octo) (h : opa.valid = true) :
    onDec opa f = f opa.dec := by
  rw [onDec, readDec_valid h]

/-- A sign bit above a magnitude of 31 bits (47_convert.md R127). -/
theorem ofNat_sign_add (b : Bool) {g : Nat} (hg : g < 2 ^ 31) :
    BitVec.ofNat 32 (b.toNat * 2 ^ 31 + g) =
      BitVec.ofNat 32 g ||| if b then 0x80000000#32 else 0#32 := by
  cases b with
  | false => simp
  | true =>
    have hor : 2 ^ 31 + g = 2 ^ 31 ||| g := by simpa using Nat.two_pow_add_eq_or_of_lt hg 1
    rw [Bool.toNat_true, Nat.one_mul, hor, BitVec.ofNat_or, BitVec.or_comm]
    rfl

theorem doubleWords (b : Bool) {f : Nat} (hf : f < 2 ^ 63) :
    resWords (limbs 2 (b.toNat * 2 ^ 63 + f)) = ⟨BitVec.ofNat 32 f,
      BitVec.ofNat 32 (f / 2 ^ 32) ||| (if b then 0x80000000#32 else 0#32),
      0#32, 0#32, 0#32, 0#32, 0#32, 0#32⟩ := by
  have hlow : BitVec.ofNat 32 (b.toNat * 2 ^ 63 + f) = BitVec.ofNat 32 f := by
    apply BitVec.eq_of_toNat_eq
    rw [BitVec.toNat_ofNat, BitVec.toNat_ofNat]
    omega
  have hhigh : (b.toNat * 2 ^ 63 + f) / 2 ^ 32 = b.toNat * 2 ^ 31 + f / 2 ^ 32 := by omega
  rw [limbs_succ, limbs_succ, limbs_zero, hlow, hhigh, ofNat_sign_add b (by omega)]
  rfl

/-- TOF64 of a valid operand never fails (47_convert.md R129). -/
theorem exec_tof64 {s : State} (h : s.opa.valid = true) :
    exec .tof64 s = .next { s with res := resWords (limbs 2 (toDouble s.opa.dec)), err := 0#3 } :=
  exec_of_perform_ok (onDec_valid _ h)

/-- TOF32 of a valid operand never fails (47_convert.md R130). -/
theorem exec_tof32 {s : State} (h : s.opa.valid = true) :
    exec .tof32 s = .next { s with res := resWords (limbs 1 (toSingle s.opa.dec)), err := 0#3 } :=
  exec_of_perform_ok (onDec_valid _ h)

/-- Settles O44: each step rounds a value of at most 2^96, and the sign bit is above the magnitude's. -/
theorem toFloatRoundsEachStepToNearest : Obligations.ToFloatRoundsEachStepToNearest := by
  refine ⟨decode_of_encode_eq rfl rfl, decode_of_encode_eq rfl rfl,
    fun s => ⟨fun h => ?_, fun h => ?_⟩⟩
  · exact ⟨exec_of_perform_error (e := .invalidRepresentation) (perform_invalid_opa rfl h _ _),
      exec_of_perform_error (e := .invalidRepresentation) (perform_invalid_opa rfl h _ _)⟩
  · obtain ⟨he, hm⟩ := (Dec.fits_iff _).mp (dec_fits h)
    have hf := doubleMagnitude_nearest he hm
    have hg := singleMagnitude_nearest he hm
    refine ⟨_, _, _, _, _, lowDouble_nearest _, mantissaDouble_nearest hm, scaleDouble_nearest he,
      hf, hg, ?_, ?_⟩
    · rw [exec_tof64 h, toDouble, doubleWords _ hf.lt]
    · rw [exec_tof32 h, toSingle_eq, limbs_succ, ofNat_sign_add _ hg.lt]
      rfl

/-! ## Monotonicity -/

/-- At one scale each step is a monotonic rounding of a function increasing in the mantissa (47_convert.md R137 (c)). -/
theorem doubleMagnitude_mono {e m m' : Nat} (he : e ≤ 28) (hm' : m' < 2 ^ 96) (h : m ≤ m') :
    doubleMagnitude e m ≤ doubleMagnitude e m' := by
  have hm := h.trans_lt hm'
  have hsum := (mantissaDouble_nearest hm).mono (mantissaDouble_nearest hm') (mantissaSum_mono h)
  have hval := (mantissaDouble_nearest hm').1.absValue_le hsum
  exact (doubleMagnitude_nearest he hm).mono (doubleMagnitude_nearest he hm')
    (div_le_div_of_nonneg_right hval (binary64.absValue_nonneg _))

/-- The two result words of TOF64 together are the pattern (47_convert.md R129). -/
theorem exec_tof64_pattern {s t : State} (h : s.opa.valid = true) (ht : exec .tof64 s = .next t) :
    (t.res.w1 ++ t.res.w0).toNat = toDouble s.opa.dec := by
  obtain ⟨he, hm⟩ := (Dec.fits_iff _).mp (dec_fits h)
  have hlt : doubleMagnitude s.opa.dec.scale s.opa.dec.mant < 2 ^ 63 :=
    (doubleMagnitude_nearest he hm).lt
  have hsign := s.opa.dec.sign.toNat_le
  rw [exec_tof64 h] at ht
  obtain rfl := Host.Outcome.next.inj ht
  rw [toNat_append₂]
  refine ofLimbs_limbs (n := 2) ?_
  unfold toDouble
  omega

/-- Settles O45: the sign bits agree, and the magnitude does not decrease. -/
theorem toDoubleIsMonotonicAtOneScale : Obligations.ToDoubleIsMonotonicAtOneScale := by
  intro s s' t t' h h' hscale hsign hmant ht ht'
  obtain ⟨he, -⟩ := (Dec.fits_iff _).mp (dec_fits h)
  obtain ⟨-, hm'⟩ := (Dec.fits_iff _).mp (dec_fits h')
  rw [exec_tof64_pattern h ht, exec_tof64_pattern h' ht', toDouble, toDouble, ← hscale, hsign]
  exact Nat.add_le_add_left (doubleMagnitude_mono he hm' hmant) _

end Sys2Proof.Machine
end

section
/-! PROOFS. The statements of 47_convert.md on floating point to decimal: the range of FROMF64 and FROMF32, and the digits they keep. -/

namespace Sys2Proof.Machine

open Sys2Proof

/-! ## The decimal exponent -/

/-- The power of ten found does not exceed the value (00_scope.md R9). -/
theorem pow_largestPow10_le {v : Nat} (hv : v ≠ 0) (bound : Nat) :
    10 ^ largestPow10 v bound ≤ v := by
  induction bound with
  | zero => exact Nat.one_le_iff_ne_zero.mpr hv
  | succ k ih =>
    rw [largestPow10]
    split
    · next h => exact h
    · exact ih

/-- The power of ten found is large enough when the last one looked at is (00_scope.md R9). -/
theorem le_mul_pow_leastPow10 {n d j fuel : Nat} (h : d ≤ n * 10 ^ (j + fuel)) :
    d ≤ n * 10 ^ leastPow10 n d j fuel := by
  induction fuel generalizing j with
  | zero => exact h
  | succ k ih =>
    rw [leastPow10]
    split
    · next hj => exact hj
    · exact ih (by rwa [Nat.add_right_comm])

section Magnitude

variable {n d : Nat} (hn : 0 < n) (hd : 0 < d)

include hd in
/-- The upper half of `lg10` (00_scope.md R9). -/
theorem lt_pow_lg10_succ : (n : ℚ) / d < 10 ^ (lg10 n d + 1) := by
  have h := mul_pow_lt_of_lg10 (n := n) (N := (lg10 n d + 1).toNat) (p := (-(lg10 n d + 1)).toNat)
    hd (by omega)
  rw [zpow_eq_div (by norm_num), div_lt_div_iff₀ (by positivity) (by positivity),
    mul_comm _ (d : ℚ)]
  exact_mod_cast h

include hn hd in
/-- The lower half of `lg10` (00_scope.md R9). -/
theorem pow_lg10_le : (10 : ℚ) ^ lg10 n d ≤ n / d := by
  unfold lg10
  split
  · next hle =>
    have hq : n / d ≠ 0 := (Nat.div_pos hle hd).ne'
    have h := (Nat.le_div_iff_mul_le hd).mp (pow_largestPow10_le hq (Nat.log2 (n / d)))
    rw [zpow_natCast, le_div_iff₀ (by positivity)]
    exact_mod_cast h
  · have hlast : d ≤ n * 10 ^ (0 + (Nat.log2 d + 1)) :=
      calc d ≤ 2 ^ (Nat.log2 d + 1) := Nat.lt_log2_self.le
        _ ≤ 10 ^ (Nat.log2 d + 1) := Nat.pow_le_pow_left (by decide) _
        _ ≤ n * 10 ^ (0 + (Nat.log2 d + 1)) := by
          rw [Nat.zero_add]
          exact Nat.le_mul_of_pos_left _ hn
    rw [zpow_neg, zpow_natCast, inv_le_iff_one_le_mul₀ (by positivity), div_mul_eq_mul_div,
      one_le_div (by positivity)]
    exact_mod_cast le_mul_pow_leastPow10 hlast

/-! ## The rounded digits -/

include hd in
/-- The digits kept are the integer nearest to the value in units of the scale (47_convert.md R131). -/
theorem roundedAt_nearest (p : ℤ) : nearestEvenInt ((n : ℚ) / d * 10 ^ p) (roundedAt n d p) := by
  have h := rne_nearest (n * 10 ^ p.toNat) (d := d * 10 ^ (-p).toNat) (by positivity)
  rw [zpow_eq_div (by norm_num), div_mul_div_comm]
  exact_mod_cast h

/-- A value of at most b units rounds to at most b of them (40_primitives.md R61). -/
theorem rne_le_of_le_mul {b c : Nat} (hc : 0 < c) (h : n ≤ b * c) : rne n c ≤ b := by
  have hexact : rne (b * c) c = b := by
    simpa using rne_mul_right b 1 hc
  exact (rne_mono c h).trans hexact.le

/-- The digit budget is small enough that 2^96 rounded to it fits the mantissa; so does every value below (47_convert.md R133). -/
def BudgetFits (N : Nat) : Prop := N ≤ 15 ∧ rne (2 ^ 96) (10 ^ (29 - N)) * 10 ^ (29 - N) ≤ MMAX

include hn hd in
/-- "After rounding, v < 2^96 never exceeds MMAX" (47_convert.md R133). -/
theorem roundedAt_mul_le {N : Nat} (hN : BudgetFits N) (hlt : n < 2 ^ 96 * d) {p : ℤ}
    (hp : p = digitScale N n d) (hneg : p < 0) :
    roundedAt n d p * 10 ^ (-p).toNat ≤ MMAX := by
  obtain ⟨hN, hmax⟩ := hN
  have hlg : lg10 n d < 29 := by
    have hval : (n : ℚ) / d < 10 ^ (29 : ℤ) := by
      rw [div_lt_iff₀ (by positivity)]
      calc (n : ℚ) < 2 ^ 96 * d := by exact_mod_cast hlt
        _ ≤ 10 ^ (29 : ℤ) * d := by gcongr; norm_num
    exact (zpow_lt_zpow_iff_right₀ (by norm_num)).mp ((pow_lg10_le hn hd).trans_lt hval)
  obtain ⟨j, rfl⟩ : ∃ j : ℕ, p = -(j : ℤ) := ⟨(-p).toNat, by omega⟩
  have hj : lg10 n d = N - 1 + j := by
    unfold digitScale at hp
    omega
  have hround : roundedAt n d (-(j : ℤ)) = rne n (d * 10 ^ j) := by
    simp [roundedAt, show (-(j : ℤ)).toNat = 0 by omega]
  rw [hround, neg_neg, Int.toNat_natCast]
  rcases Nat.lt_or_ge j (29 - N) with h | h
  · have hdigits : n ≤ 10 ^ N * (d * 10 ^ j) := by
      have h0 := mul_pow_lt_of_lg10 (n := n) (N := N + j) (p := 0) hd (by omega)
      rw [pow_zero, Nat.mul_one, pow_add] at h0
      exact h0.le.trans_eq (by ring)
    calc rne n (d * 10 ^ j) * 10 ^ j ≤ 10 ^ N * 10 ^ j :=
          Nat.mul_le_mul_right _ (rne_le_of_le_mul (by positivity) hdigits)
      _ = 10 ^ (N + j) := (pow_add 10 N j).symm
      _ ≤ 10 ^ 28 := Nat.pow_le_pow_right (by decide) (by omega)
      _ ≤ MMAX := by decide
  · obtain rfl : j = 29 - N := by omega
    have hround : rne n (d * 10 ^ (29 - N)) ≤ rne (2 ^ 96) (10 ^ (29 - N)) := by
      rw [← rne_mul_right (2 ^ 96) _ hd, Nat.mul_comm d]
      exact rne_mono _ hlt.le
    exact (Nat.mul_le_mul_right _ hround).trans hmax

include hn hd in
/-- FromFloat completes on a nonzero magnitude below 2^96 (47_convert.md R133). -/
theorem decOfMagnitude_completes {N : Nat} (hN : BudgetFits N) (hlt : n < 2 ^ 96 * d)
    (sign : Bool) : ∃ x, decOfMagnitude sign N n d = .ok x := by
  unfold decOfMagnitude
  simp only
  split_ifs with h0 hneg hover
  · exact ⟨_, rfl⟩
  · exact absurd (roundedAt_mul_le hn hd hN hlt rfl hneg) hover.not_ge
  · exact ⟨_, rfl⟩
  · exact ⟨_, rfl⟩

end Magnitude

/-- Everything FromFloat answers when it completes on a nonzero magnitude: the rounded digits with the zeros its scale can drop removed, and positive zero for no digits (47_convert.md R131, R132). -/
theorem decOfMagnitude_ok {sign : Bool} {N n d : Nat} {x : Dec}
    (h : decOfMagnitude sign N n d = .ok x) :
    x.stripped ∧ (roundedAt n d (digitScale N n d) = 0 → x = ⟨false, 0, 0⟩) ∧
      (roundedAt n d (digitScale N n d) ≠ 0 → x.sign = sign ∧
        (x.mant : ℚ) / 10 ^ x.scale =
          roundedAt n d (digitScale N n d) / (10 : ℚ) ^ digitScale N n d) := by
  unfold decOfMagnitude at h
  generalize digitScale N n d = p at h ⊢
  simp only at h
  generalize roundedAt n d p = m at h ⊢
  split_ifs at h with h0 hneg <;> cases h
  · exact ⟨.inl rfl, fun _ => rfl, fun hm => absurd h0 hm⟩
  · refine ⟨.inl rfl, fun hm => absurd hm h0, fun _ => ⟨rfl, ?_⟩⟩
    obtain ⟨j, rfl⟩ : ∃ j : ℕ, p = -(j : ℤ) := ⟨(-p).toNat, by omega⟩
    simp
  · obtain ⟨hle, hm, hlast⟩ := strip_spec m p.toNat
    refine ⟨hlast, fun h => absurd h h0, fun _ => ⟨rfl, ?_⟩⟩
    obtain ⟨e, rfl⟩ := Int.eq_ofNat_of_zero_le (not_lt.mp hneg)
    rw [Int.toNat_natCast] at hle hm ⊢
    generalize strip m e = r at hle hm ⊢
    obtain ⟨k, rfl⟩ := Nat.exists_eq_add_of_le hle
    rw [hm, zpow_natCast, Nat.add_sub_cancel_left, pow_add]
    push_cast
    field_simp

/-! ## The range -/

section Range

variable {F : FloatFormat} {x : Nat}

/-- The model's test of the upper bound (47_convert.md R133 (b)). -/
theorem FloatFormat.two_pow_96_le_absValue_iff :
    2 ^ 96 ≤ F.absValue x ↔ 2 ^ 96 * (F.magnitude x).2 ≤ (F.magnitude x).1 := by
  rw [FloatFormat.absValue, le_div_iff₀ (Nat.cast_pos.mpr (F.magnitude_den_pos x))]
  exact_mod_cast Iff.rfl

theorem FloatFormat.absValue_eq_zero_iff : F.absValue x = 0 ↔ (F.magnitude x).1 = 0 := by
  have h := (F.magnitude_den_pos x).ne'
  simp [FloatFormat.absValue, h]

/-- A NaN, an infinity or a magnitude of at least 2^96 overflows (47_convert.md R133). -/
theorem fromFloat_overflow {N : Nat} (h : F.isSpecial x = true ∨ 2 ^ 96 ≤ F.absValue x) :
    fromFloat F N x = .error .overflow := by
  rw [F.two_pow_96_le_absValue_iff] at h
  unfold fromFloat
  split_ifs with hs hr
  · rfl
  · rfl
  · exact absurd h (not_or.mpr ⟨hs, hr⟩)
  · exact absurd h (not_or.mpr ⟨hs, hr⟩)

/-- A value in range is a zero or is rounded (47_convert.md R131). -/
theorem fromFloat_in_range {N : Nat} (hs : F.isSpecial x = false) (hlt : F.absValue x < 2 ^ 96) :
    fromFloat F N x = if F.absValue x = 0 then .ok zeroDec
      else decOfMagnitude (F.signBit x) N (F.magnitude x).1 (F.magnitude x).2 := by
  rw [fromFloat, if_neg (by simp [hs]), if_neg (F.two_pow_96_le_absValue_iff.not.mp hlt.not_ge)]
  simp only [F.absValue_eq_zero_iff]

end Range

/-- FROMF64 and FROMF32: the format of the operand, its digit budget and its pattern (47_convert.md R134). -/
def ReadsFloat (opa : Quad) (i : Instr) (F : FloatFormat) (N x : Nat) : Prop :=
  i = .fromf64 ∧ F = binary64 ∧ N = 15 ∧ x = (opa.w1 ++ opa.w0).toNat ∨
    i = .fromf32 ∧ F = binary32 ∧ N = 7 ∧ x = opa.w0.toNat

theorem readsFloat_fromf64 (opa : Quad) :
    ReadsFloat opa .fromf64 binary64 15 (opa.w1 ++ opa.w0).toNat := .inl ⟨rfl, rfl, rfl, rfl⟩

theorem readsFloat_fromf32 (opa : Quad) : ReadsFloat opa .fromf32 binary32 7 opa.w0.toNat :=
  .inr ⟨rfl, rfl, rfl, rfl⟩

section Commands

variable {s : State} {i : Instr} {F : FloatFormat} {N x : Nat} (hi : ReadsFloat s.opa i F N x)

include hi

theorem budgetFits_of_readsFloat : BudgetFits N := by
  obtain ⟨-, -, rfl, -⟩ | ⟨-, -, rfl, -⟩ := hi <;> unfold BudgetFits <;> decide

theorem perform_fromFloat :
    perform i s.opa s.opb s.cfg.divNormalize = decOutcome (fromFloat F N x) := by
  obtain ⟨rfl, rfl, rfl, rfl⟩ | ⟨rfl, rfl, rfl, rfl⟩ := hi
  · rw [← Quad.u64_eq_append]
    rfl
  · rfl

theorem exec_fromFloat_overflow (h : F.isSpecial x = true ∨ 2 ^ 96 ≤ F.absValue x) :
    exec i s = .next { s with err := 1#3 } :=
  exec_of_perform_error (e := .overflow) <| by
    rw [perform_fromFloat hi, fromFloat_overflow h, decOutcome_error]

theorem exec_fromFloat_ok {d : Dec} (h : fromFloat F N x = .ok d) :
    exec i s = .next { s with res := decResult d, err := 0#3 } :=
  exec_of_perform_ok <| by rw [perform_fromFloat hi, h, decOutcome_ok]

/-- The conversion completes on every value in range (47_convert.md R133). -/
theorem fromFloat_completes (hs : F.isSpecial x = false) (hlt : F.absValue x < 2 ^ 96) :
    ∃ d, fromFloat F N x = .ok d := by
  rw [fromFloat_in_range hs hlt]
  split_ifs with h0
  · exact ⟨_, rfl⟩
  · have hrange := F.two_pow_96_le_absValue_iff.not.mp hlt.not_ge
    exact decOfMagnitude_completes (Nat.pos_of_ne_zero (F.absValue_eq_zero_iff.not.mp h0))
      (F.magnitude_den_pos x) (budgetFits_of_readsFloat hi) (not_le.mp hrange) _

theorem exec_fromFloat_completes (hs : F.isSpecial x = false) (hlt : F.absValue x < 2 ^ 96) :
    ∃ d : Dec, d.fits = true ∧ exec i s = .next { s with res := decResult d, err := 0#3 } := by
  obtain ⟨d, hd⟩ := fromFloat_completes hi hs hlt
  exact ⟨d, fromFloat_fits (budgetFits_of_readsFloat hi).1 hd, exec_fromFloat_ok hi hd⟩

end Commands

/-- Settles O46: the two range tests are those of the special patterns and of the exact value. -/
theorem fromFloatOverflowsExactlyOutOfRange : Obligations.FromFloatOverflowsExactlyOutOfRange := by
  intro s
  have h64 := readsFloat_fromf64 s.opa
  have h32 := readsFloat_fromf32 s.opa
  refine ⟨⟨fun h => ?_, fun hs hlt => ?_⟩, fun h => ?_, fun hs hlt => ?_⟩
  · exact exec_fromFloat_overflow h64 (h.imp_left decide_eq_true)
  · exact exec_fromFloat_completes h64 (decide_eq_false hs) hlt
  · exact exec_fromFloat_overflow h32 (h.imp_left decide_eq_true)
  · exact exec_fromFloat_completes h32 (decide_eq_false hs) hlt

/-- Settles O47: the digits are rounded at the scale that the value's decimal exponent gives. -/
theorem fromFloatKeepsTheDigitBudget : Obligations.FromFloatKeepsTheDigitBudget := by
  intro s i F N x hi
  refine ⟨exec_fromFloat_overflow hi, fun hs h0 => ?_, fun hs hlt h0 => ?_⟩
  · have hlt : F.absValue x < 2 ^ 96 := by
      rw [h0]
      norm_num
    exact exec_fromFloat_ok hi (by rw [fromFloat_in_range hs hlt, if_pos h0, zeroDec])
  · obtain ⟨d, hd⟩ := fromFloat_completes hi hs hlt
    have hpos : 0 < (F.magnitude x).1 := Nat.pos_of_ne_zero (F.absValue_eq_zero_iff.not.mp h0)
    have hden := F.magnitude_den_pos x
    have hmag := hd
    rw [fromFloat_in_range hs hlt, if_neg h0] at hmag
    obtain ⟨hstrip, hzero, hval⟩ := decOfMagnitude_ok hmag
    exact ⟨d, _, _, pow_lg10_le hpos hden, lt_pow_lg10_succ hden, roundedAt_nearest hden _,
      exec_fromFloat_ok hi hd, fromFloat_fits (budgetFits_of_readsFloat hi).1 hd, hstrip, hzero,
      hval⟩

end Sys2Proof.Machine
end

section
/-! PROOFS. The currency statements of 47_convert.md: FROMCY normalizes a decimal at scale 4, TOCY rounds to four digits once, and the trip from currency and back is exact. -/

namespace Sys2Proof.Machine

open Sys2Proof

/-! ## From currency -/

/-- FROMCY normalizes the decimal |c| at scale 4 with the sign of c (46_compare.md R125, 47_convert.md R135). -/
theorem decOfCurrency_eq_normCore (c : Int) :
    decOfCurrency c = normCore ⟨decide (c < 0), 4, c.natAbs⟩ := by
  by_cases hc : c = 0
  · rw [hc, normCore_of_zero rfl]
    rfl
  · have hsign := normCore_sign (A := ⟨decide (c < 0), 4, c.natAbs⟩) (Int.natAbs_ne_zero.mpr hc)
    rw [decOfCurrency, if_neg hc]
    exact congrArg (fun b => Dec.mk b _ _) hsign.symm

/-- A currency value as a decimal at scale 4 (47_convert.md R135). -/
theorem val_currency (c : Int) : (⟨decide (c < 0), 4, c.natAbs⟩ : Dec).val = (c : ℚ) / 10 ^ 4 := by
  unfold Dec.val
  rw [Nat.cast_natAbs, Int.cast_abs]
  rcases lt_or_ge c 0 with h | h
  · rw [if_pos (decide_eq_true h), abs_of_neg (Int.cast_lt_zero.mpr h), neg_neg]
  · rw [if_neg (by simpa using h), abs_of_nonneg (Int.cast_nonneg h)]

theorem decOfCurrency_sign (c : Int) : (decOfCurrency c).sign = decide (c < 0) := by
  unfold decOfCurrency
  split_ifs with h
  · rw [h]
    rfl
  · rfl

/-- Settles O48: NORM's facts about the decimal |c| at scale 4 are FROMCY's. -/
theorem fromCurrencyTrimsZeros : Obligations.FromCurrencyTrimsZeros := by
  refine ⟨decode_of_encode_eq rfl rfl, fun s => ?_⟩
  intro c
  refine ⟨decOfCurrency c, exec_of_perform_ok rfl,
    decOfCurrency_fits (natAbs_toInt_le_MMAX _ (by decide)), ?_⟩
  refine ⟨?_, ?_, ?_, decOfCurrency_sign c, fun hc => if_pos hc⟩ <;> rw [decOfCurrency_eq_normCore]
  · exact normCore_stripped _
  · exact normCore_scale_le _
  · exact (normCore_val _).trans (val_currency c)

/-! ## To currency -/

/-- Both branches of R136 are one rounding of the value in units of 10^-4 (47_convert.md R136). -/
theorem currencyMagnitude_eq (A : Dec) :
    currencyMagnitude A = rne (A.mant * 10 ^ 4) (10 ^ A.scale) := by
  unfold currencyMagnitude cyScale
  split_ifs with h
  · have hpow : A.mant * 10 ^ 4 = A.mant * 10 ^ (4 - A.scale) * 10 ^ A.scale := by
      rw [Nat.mul_assoc, ← pow_add, Nat.sub_add_cancel h.le]
    have hexact := rne_mul_right (A.mant * 10 ^ (4 - A.scale)) 1 (c := 10 ^ A.scale) (by positivity)
    rw [hpow]
    rwa [Nat.one_mul, rne_one, eq_comm] at hexact
  · obtain ⟨k, hk⟩ := Nat.exists_eq_add_of_le (not_lt.mp h)
    rw [hk, Nat.add_sub_cancel_left, pow_add, Nat.mul_comm (10 ^ 4),
      rne_mul_right _ _ (by positivity)]

/-- The signed currency value of a decimal, before its range is checked (47_convert.md R136). -/
def currencyValue (A : Dec) : Int := withSign A.sign (rne (A.mant * 10 ^ 4) (10 ^ A.scale))

theorem toCurrency_eq (A : Dec) :
    toCurrency A = if currencyValue A < -(2 ^ 63) ∨ 2 ^ 63 - 1 < currencyValue A
      then .error .overflow else .ok (currencyValue A) := by
  rw [currencyValue, ← currencyMagnitude_eq]
  rfl

/-- TOCY's result words are the two halves of the 64-bit value (47_convert.md R136). -/
theorem currencyWords_eq (c : Int) :
    currencyWords c = ⟨(BitVec.ofInt 64 c).extractLsb' 0 32, (BitVec.ofInt 64 c).extractLsb' 32 32,
      0#32, 0#32, 0#32, 0#32, 0#32, 0#32⟩ := by
  simp only [currencyWords, limbs_succ, limbs_zero, BitVec.extractLsb', Nat.shiftRight_eq_div_pow,
    pow_zero, Nat.div_one]
  rfl

theorem perform_tocy {opa : Quad} (h : opa.valid = true) (opb : Quad) (b : Bool) :
    perform .tocy opa opb b = (toCurrency opa.dec).map currencyWords := by
  rw [perform, onDec_valid _ h]
  cases toCurrency opa.dec <;> rfl

theorem exec_tocy_ok {s : State} (h : s.opa.valid = true)
    (hlo : -(2 ^ 63) ≤ currencyValue s.opa.dec) (hhi : currencyValue s.opa.dec ≤ 2 ^ 63 - 1) :
    exec .tocy s = .next { s with res := currencyWords (currencyValue s.opa.dec), err := 0#3 } :=
  exec_of_perform_ok <| by
    rw [perform_tocy h, toCurrency_eq, if_neg (by omega), Except.map]

theorem exec_tocy_overflow {s : State} (h : s.opa.valid = true)
    (hout : currencyValue s.opa.dec < -(2 ^ 63) ∨ 2 ^ 63 - 1 < currencyValue s.opa.dec) :
    exec .tocy s = .next { s with err := 1#3 } :=
  exec_of_perform_error (e := .overflow) <| by
    rw [perform_tocy h, toCurrency_eq, if_pos hout, Except.map]

/-- Settles O49: the value checked against the 64-bit range is the one rounding of the decimal. -/
theorem toCurrencyRoundsToFourDigits : Obligations.ToCurrencyRoundsToFourDigits := by
  refine ⟨decode_of_encode_eq rfl rfl, fun s => ⟨fun h => ?_, fun h => ?_⟩⟩
  · exact exec_of_perform_error (e := .invalidRepresentation) (perform_invalid_opa rfl h _ _)
  · refine ⟨fun hlo hhi => ?_, exec_tocy_overflow h⟩
    rw [exec_tocy_ok h hlo hhi, currencyWords_eq]
    rfl

/-! ## The round trip -/

/-- Four digits hold a currency value exactly (47_convert.md R137 (a)). -/
theorem currencyValue_decOfCurrency (c : Int) : currencyValue (decOfCurrency c) = c := by
  have hscale : (decOfCurrency c).scale ≤ 4 := decOfCurrency_eq_normCore c ▸ normCore_scale_le _
  have hmant : (decOfCurrency c).mant * 10 ^ (4 - (decOfCurrency c).scale) = c.natAbs :=
    decOfCurrency_eq_normCore c ▸ normCore_mant _
  have hexact : currencyMagnitude (decOfCurrency c) = c.natAbs := by
    rw [← hmant, currencyMagnitude, cyScale]
    split_ifs with h
    · rfl
    · have h4 : (decOfCurrency c).scale = 4 := by omega
      rw [h4, Nat.sub_self, pow_zero, rne_one, Nat.mul_one]
  rw [currencyValue, ← currencyMagnitude_eq, hexact, decOfCurrency_sign, withSign]
  simp only [decide_eq_true_eq]
  split_ifs <;> omega

/-- TOCY of FROMCY's decimal writes the currency value again (47_convert.md R137 (a)). -/
theorem exec_tocy_currency {s : State} {x : BitVec 64} (h : s.opa = pack (decOfCurrency x.toInt)) :
    exec .tocy s = .next { s with res := currencyWords x.toInt, err := 0#3 } := by
  have hfits : (decOfCurrency x.toInt).fits = true :=
    decOfCurrency_fits (natAbs_toInt_le_MMAX _ (by decide))
  have hval : currencyValue s.opa.dec = x.toInt := by
    rw [h, dec_pack hfits, currencyValue_decOfCurrency]
  have hlo : -(2 ^ 63) ≤ x.toInt := BitVec.le_toInt x
  have hhi : x.toInt < 2 ^ 63 := BitVec.toInt_lt
  rw [exec_tocy_ok (h ▸ pack_valid hfits) (by omega) (by omega), hval]

/-- Settles O50: TOCY's operand is FROMCY's decimal, whose currency value is the signed 64-bit value. -/
theorem currencyRoundTrip : Obligations.CurrencyRoundTrip := by
  intro s t u ht hu
  rw [exec_of_perform_ok (i := .fromcy) rfl] at ht
  obtain rfl := Host.Outcome.next.inj ht
  rw [exec_tocy_currency (x := s.opa.w1 ++ s.opa.w0) rfl] at hu
  obtain rfl := Host.Outcome.next.inj hu
  simp only [currencyWords_eq, BitVec.ofInt_toInt]
  exact ⟨trivial, BitVec.extractLsb'_append_eq_right, BitVec.extractLsb'_append_eq_left⟩

end Sys2Proof.Machine
end

section
/-! PROOFS. The statements of 60_exceptions.md and 70_reset_and_hazards.md: the errors each command may report, the frame and the end of every command, the zero divisor, the reset event, and the invariant of a well-formed run. -/

namespace Sys2Proof.Machine

open Sys2Proof

/-! ## The errors of the shared functions -/

theorem scaleResult_error {X e : Nat} {err : ErrKind} (h : scaleResult X e = .error err) :
    err = .overflow := by
  obtain ⟨k, -, -, -, -, hok⟩ | ⟨-, hover⟩ := scaleResult_cases X e
  · cases hok.symm.trans h
  · cases hover.symm.trans h
    rfl

/-- Mapping the value of an outcome keeps its error. -/
theorem error_of_map {α β : Type} {f : α → β} {o : Except ErrKind α} {e : ErrKind}
    (h : o.map f = .error e) : o = .error e := by
  cases o with
  | error e' =>
    cases h
    rfl
  | ok a => cases h

theorem addCore_error {A B : Dec} {e : ErrKind} (h : addCore A B = .error e) : e = .overflow := by
  by_cases hB : B.mant = 0
  · cases (addCore_zero_right A hB).symm.trans h
  by_cases hA : A.mant = 0
  · cases (addCore_zero_left hA hB).symm.trans h
  · rw [addCore_of_ne_zero hA hB] at h
    exact scaleResult_error (error_of_map h)

theorem mulCore_error {A B : Dec} {e : ErrKind} (h : mulCore A B = .error e) : e = .overflow :=
  scaleResult_error (error_of_map (mulCore_eq A B ▸ h))

theorem scaleresDec_error {X k : Nat} {e : ErrKind} (h : scaleresDec X k = .error e) :
    e = .overflow :=
  scaleResult_error (error_of_map (scaleresDec_eq X k ▸ h))

theorem divCore_zero_divisor (normalize : Bool) (A : Dec) {B : Dec} (hB : B.mant = 0) :
    divCore normalize A B = .error .divideByZero :=
  if_pos hB

/-- DivCore of operands that fit fails on a zero divisor, or where its loop overflows (44_divmod.md R103). -/
theorem divCore_error {normalize : Bool} {A B : Dec} {e : ErrKind} (hA : A.fits = true)
    (hBfits : B.fits = true) (h : divCore normalize A B = .error e) :
    e = .divideByZero ∨ e = .overflow := by
  by_cases hB : B.mant = 0
  · cases (divCore_zero_divisor normalize A hB).symm.trans h
    exact .inl rfl
  · obtain ⟨o, hloop, ho⟩ := divLoop_outcome hA hBfits hB
    rw [divCore_eq hB hloop] at h
    obtain rfl := error_of_map h
    exact .inr ho.error_overflow.1

theorem remCore_error {A B : Dec} {e : ErrKind} (h : remCore A B = .error e) :
    e = .divideByZero := by
  unfold remCore at h
  split_ifs at h
  cases h
  rfl

theorem divide_error {qn rn a d : Nat} {e : ErrKind} (h : divide qn rn a d = .error e) :
    e = .divideByZero := by
  unfold divide at h
  split_ifs at h
  cases h
  rfl

theorem decOfParts_error {opa opb : Quad} {e : ErrKind} (h : decOfParts opa opb = .error e) :
    e = .invalidRepresentation := by
  unfold decOfParts at h
  split_ifs at h
  cases h
  rfl

theorem decOfMagnitude_error {sign : Bool} {N n d : Nat} {e : ErrKind}
    (h : decOfMagnitude sign N n d = .error e) : e = .overflow := by
  unfold decOfMagnitude at h
  simp only at h
  split_ifs at h
  cases h
  rfl

theorem fromFloat_error {F : FloatFormat} {N x : Nat} {e : ErrKind}
    (h : fromFloat F N x = .error e) : e = .overflow := by
  unfold fromFloat at h
  split_ifs at h
  · cases h
    rfl
  · cases h
    rfl
  · exact decOfMagnitude_error h

theorem toCurrency_error {A : Dec} {e : ErrKind} (h : toCurrency A = .error e) : e = .overflow := by
  rw [toCurrency_eq] at h
  split_ifs at h
  cases h
  rfl

/-! ## The errors of the commands -/

section Outcomes

variable {opa opb : Quad} {e : ErrKind} {es : List ErrKind}

/-- A command on one decimal operand fails on an invalid one, or as its function does (30_encoding.md R52). -/
theorem mem_of_onDec_error {f : Dec → Except ErrKind Octo} (h : onDec opa f = .error e)
    (hf : f opa.dec = .error e → e ∈ es) : e ∈ .invalidRepresentation :: es := by
  cases ha : opa.valid with
  | false =>
    cases (onDec_invalid f ha).symm.trans h
    exact List.mem_cons_self
  | true => exact List.mem_cons_of_mem _ (hf (onDec_valid f ha ▸ h))

/-- A command on two decimal operands fails on an invalid one, or as its function does on two that fit (30_encoding.md R52). -/
theorem mem_of_onDecs_error {f : Dec → Dec → Except ErrKind Octo} (h : onDecs opa opb f = .error e)
    (hf : ∀ A B, A.fits = true → B.fits = true → f A B = .error e → e ∈ es) :
    e ∈ .invalidRepresentation :: es := by
  by_cases hv : opa.valid = true ∧ opb.valid = true
  · obtain ⟨ha, hb⟩ := hv
    rw [onDecs_valid f ha hb] at h
    exact List.mem_cons_of_mem _ (hf _ _ (dec_fits ha) (dec_fits hb) h)
  · have hinvalid : opa.valid = false ∨ opb.valid = false := by
      simpa only [not_and_or, Bool.not_eq_true] using hv
    cases (onDecs_invalid f hinvalid).symm.trans h
    exact List.mem_cons_self

/-- The outcome of a command is no error but those of its row (60_exceptions.md R139). -/
theorem perform_error_mem {i : Instr} {b : Bool} (h : perform i opa opb b = .error e) :
    e ∈ errorsOf i := by
  cases i with
  | fromi32 | fromu32 | fromi64 | fromu64 | fromcy | mul96x32 | mul96x64 | mul96x96 | lzc32 | lzc96
  | pow10mul => cases h
  | ldw | round | norm | tof64 | tof32 => exact mem_of_onDec_error h nofun
  | cmp => exact mem_of_onDecs_error h nofun
  | mkparts => exact List.mem_singleton.mpr (decOfParts_error (decOutcome_eq_error.mp h))
  | add | sub =>
    exact mem_of_onDecs_error h fun _ _ _ _ ho =>
      List.mem_singleton.mpr (addCore_error (decOutcome_eq_error.mp ho))
  | mul =>
    exact mem_of_onDecs_error h fun _ _ _ _ ho =>
      List.mem_singleton.mpr (mulCore_error (decOutcome_eq_error.mp ho))
  | div =>
    exact mem_of_onDecs_error h fun _ _ hA hB ho =>
      List.mem_pair.mpr (divCore_error hA hB (decOutcome_eq_error.mp ho))
  | rem =>
    exact mem_of_onDecs_error h fun _ _ _ _ ho =>
      List.mem_singleton.mpr (remCore_error (decOutcome_eq_error.mp ho))
  | fromf64 | fromf32 => exact List.mem_singleton.mpr (fromFloat_error (decOutcome_eq_error.mp h))
  | tocy =>
    refine mem_of_onDec_error h fun ho => List.mem_singleton.mpr (toCurrency_error (A := opa.dec) ?_)
    split at ho
    · next hc => rw [hc, Except.error.inj ho]
    · cases ho
  | div96x32 | div96x64 | div128x96 => exact List.mem_singleton.mpr (divide_error h)
  | scaleres => exact List.mem_singleton.mpr (scaleresDec_error (decOutcome_eq_error.mp h))

end Outcomes

/-- Settles O19: a success reports code 0, and an error is one of the command's row. -/
theorem commandsReportOnlyTheirOwnErrors : Obligations.CommandsReportOnlyTheirOwnErrors := by
  intro i s t h
  obtain ⟨r, -, rfl⟩ | ⟨e, he, rfl⟩ := exec_cases h
  · exact .inl rfl
  · exact .inr ⟨e, perform_error_mem he, rfl⟩

/-! ## The end of a command -/

/-- ILLEGAL_COMMAND is no command's error: it is an illegal word's (60_exceptions.md R139). -/
theorem illegalCommand_not_mem_errorsOf (i : Instr) : ErrKind.illegalCommand ∉ errorsOf i := by
  cases i <;> simp [errorsOf]

theorem ErrKind.code_le (e : ErrKind) : e.code.toNat ≤ 4 := by cases e <;> decide

theorem ErrKind.code_le_three {e : ErrKind} (h : e ≠ .illegalCommand) : e.code.toNat ≤ 3 := by
  cases e with
  | illegalCommand => exact absurd rfl h
  | _ => decide

/-- A command reports one of the codes 0 to 3 (10_state.md R19, 60_exceptions.md R139). -/
theorem exec_err_le_three {i : Instr} {s t : State} (h : exec i s = .next t) : t.err.toNat ≤ 3 := by
  obtain herr | ⟨e, he, herr⟩ := commandsReportOnlyTheirOwnErrors i s t h
  · simp [herr]
  · rw [herr]
    exact ErrKind.code_le_three (ne_of_mem_of_not_mem he (illegalCommand_not_mem_errorsOf i))

/-- Settles O16: a command is the end of its outcome, which is a next state. -/
theorem everyCommandEnds : Obligations.EveryCommandEnds := by
  intro i s
  obtain ⟨t, ht⟩ : ∃ t, exec i s = .next t := exec_eq_complete i s ▸ complete_next _ s
  exact ⟨t, ht, exec_err_le_three ht⟩

/-! ## The frame of a command -/

/-- Below RES, from CMD on and beside STATUS, an offset holds neither a RES register nor STATUS (20_memory.md R31). -/
theorem regAt_ne_result {off : Nat} (h : off < 0x20 ∨ (0x40 ≤ off ∧ off ≠ 0x44)) :
    (∀ i, regAt off ≠ some (.res i)) ∧ regAt off ≠ some .status := by
  unfold regAt
  split_ifs
  · simp
  · simp
  · omega
  · simp
  · omega
  · simp

/-- RES and STATUS apart, the window reads the same whatever RES and ERR hold (20_memory.md R37). -/
theorem windowRead_withResult {off : Nat} (h : off < 0x20 ∨ (0x40 ≤ off ∧ off ≠ 0x44)) (s : State)
    (r : Octo) (e : BitVec 3) : windowRead { s with res := r, err := e } off = windowRead s off := by
  obtain ⟨hres, hstatus⟩ := regAt_ne_result h
  unfold windowRead
  cases hr : regAt off with
  | none => rfl
  | some reg =>
    cases reg with
    | opa | opb | cmd => rfl
    | res i => exact absurd hr (hres i)
    | status => exact absurd hr hstatus

/-- Settles O15: a command ends in a success or in an error, and the window's other words are not RES or STATUS. -/
theorem commandsChangeResultAndStatusAlone : Obligations.CommandsChangeResultAndStatusAlone := by
  intro i s t h
  have hframe : ∀ off, off < 0x20 ∨ (0x40 ≤ off ∧ off ≠ 0x44) →
      windowRead t off = windowRead s off := by
    obtain ⟨r, e, rfl⟩ := exec_frame h
    exact fun off hoff => windowRead_withResult hoff s r e
  obtain ⟨r, -, rfl⟩ | ⟨e, -, rfl⟩ := exec_cases h
  · exact ⟨fun _ => State.succeed_eq s r, fun herr => absurd rfl herr, hframe⟩
  · exact ⟨fun herr => absurd herr e.code_ne_zero, fun _ => State.raiseError_eq s e, hframe⟩

/-! ## A zero divisor -/

theorem Quad.u64_eq_zero {q : Quad} (h0 : q.w0 = 0#32) (h1 : q.w1 = 0#32) : q.u64 = 0 := by
  simp [Quad.u64, h0, h1]

theorem Quad.u96_eq_zero {q : Quad} (h0 : q.w0 = 0#32) (h1 : q.w1 = 0#32) (h2 : q.w2 = 0#32) :
    q.u96 = 0 := by
  simp [Quad.u96, h0, h1, h2]

/-- Settles O22: every divider tests its divisor's number against 0, and DIV and REM test the mantissa before anything else. -/
theorem zeroDivisorsReportTwo : Obligations.ZeroDivisorsReportTwo := by
  intro s
  refine ⟨fun ha hb h0 h1 h2 => ?_, fun h0 => exec_divide_zero rfl (congrArg BitVec.toNat h0),
    fun h0 h1 => exec_divide_zero rfl (Quad.u64_eq_zero h0 h1),
    fun h0 h1 h2 => exec_divide_zero rfl (Quad.u96_eq_zero h0 h1 h2)⟩
  have hB : s.opb.dec.mant = 0 := Quad.u96_eq_zero h0 h1 h2
  refine ⟨exec_of_perform_error (e := .divideByZero) ?_,
    exec_of_perform_error (e := .divideByZero) ?_⟩
  · rw [perform_div ha hb, divCore_zero_divisor _ _ hB, decOutcome_error]
  · rw [perform_rem ha hb, remCore_zero_divisor _ hB, decOutcome_error]

/-! ## The reset event -/

/-- Every offset of the window reads as 0 after the reset event (70_reset_and_hazards.md R154). -/
theorem windowRead_blockReset (s : State) (off : Nat) : windowRead s.blockReset off = 0#32 :=
  windowRead_reset off

/-- Settles O11: the oldest event is the reset, and only the fields that are no registers survive it. -/
theorem resetEventClearsEveryRegister : Obligations.ResetEventClearsEveryRegister :=
  fun s rest hl hp =>
    ⟨(s.withPending rest).blockReset, step_event hl hp, fun off _ => windowRead_blockReset _ off,
      rfl⟩

/-! ## Well-formed runs -/

/-- The access of a well-formed run is performed at its offset (20_memory.md R32). -/
theorem access_allowed {s : State} {addr : Nat} {width : AccessWidth}
    (h : accessAllowed s.cfg addr width = true)
    (perform : Nat → Host.Outcome State Fault Refusal) :
    access s addr width perform = perform (addr - s.cfg.base) := by
  obtain ⟨⟨hwin, rfl⟩, ha⟩ :
      (inWindow s.cfg addr = true ∧ width = .word) ∧ (addr - s.cfg.base) % 4 = 0 := by
    simpa [accessAllowed] using h
  simp [access, hwin, ha]

/-- Every write to the window is a next state (60_exceptions.md R153). -/
theorem windowWrite_next (s : State) (off : Nat) (v : Word) :
    ∃ t, windowWrite s off v = .next t := by
  unfold windowWrite
  split
  case h_4 => exact execute_next v s
  all_goals exact ⟨_, rfl⟩

/-- An event of a well-formed run is performed (60_exceptions.md R152, R153). -/
theorem performEvent_next {e : HostEvent} {s : State} (h : e.allowed s.cfg = true) :
    ∃ t, performEvent e s = .next t := by
  cases e with
  | reset => exact ⟨_, rfl⟩
  | read addr width => exact ⟨_, (performEvent_read ..).trans (access_allowed h _)⟩
  | write addr width v =>
    rw [performEvent_write, access_allowed h]
    exact windowWrite_next s _ v

/-- A well-formed run goes on (60_exceptions.md R153, 70_reset_and_hazards.md R160). -/
theorem step_next {s : State} (h : s.Safe) : ∃ t, step s = .next t := by
  cases hp : s.pending with
  | nil => exact ⟨s, by rw [step_inContract h.launch, performNext, hp]⟩
  | cons e rest =>
    rw [step_event h.launch hp]
    exact performEvent_next (h.events e (hp ▸ List.mem_cons_self))

/-- Performing any word leaves ERR at one of the codes 0 to 4 (10_state.md R19). -/
theorem execute_errLegal {w : Word} {s t : State} (h : execute w s = .next t) : t.errLegal := by
  cases hd : decode w with
  | ok i =>
    rw [execute_ok hd] at h
    exact (exec_err_le_three h).trans (by decide)
  | error d =>
    rw [execute_error hd] at h
    cases h
    exact ErrKind.code_le .illegalCommand

/-- A step keeps ERR at one of the codes 0 to 4: only a command and a reset write it (10_state.md R19). -/
theorem step_errLegal {s t : State} (hs : s.errLegal) (h : step s = .next t) : t.errLegal := by
  obtain ⟨-, ⟨-, rfl⟩ | ⟨e, rest, -, he⟩⟩ := step_cases h
  · exact hs
  obtain ⟨-, rfl⟩ | ⟨addr, w, -, rfl⟩ | ⟨off, v, -, -, ha, hw⟩ := performEvent_cases he
  · exact Nat.zero_le 4
  · exact hs
  obtain ⟨-, i, rfl⟩ | ⟨-, -, i, rfl⟩ | ⟨-, hx⟩ | rfl := windowWrite_cases ha hw
  · exact hs
  · exact hs
  · exact execute_errLegal hx
  · exact hs

/-- A step keeps the invariant of a well-formed run: the parameters stand, and the events ahead are those that were (70_reset_and_hazards.md R157). -/
theorem step_safe {s t : State} (hs : s.Safe) (h : step s = .next t) : t.Safe := by
  obtain ⟨-, -, -, -, hcfg, hpending⟩ := registersChangeOnlyByTheirOwnEvents s t h
  refine ⟨hcfg ▸ hs.launch, fun e he => ?_, step_errLegal hs.err h⟩
  rw [hcfg]
  exact hs.events e (List.mem_of_mem_tail (hpending ▸ he))

/-- Settles O14: the next event is one the block performs, and performing it keeps the invariant. -/
theorem safeRunsNeverStopAndStaySafe : Obligations.SafeRunsNeverStopAndStaySafe := by
  intro s hs
  obtain ⟨t, ht⟩ := step_next hs
  exact ⟨t, ht, step_safe hs ht⟩

end Sys2Proof.Machine
end
